-- ==== Sys2Proof/Word.lean ====
section
/-! DEFINITION. The word types of the block (spec/00_scope.md R11, R12) and the small data types that the
configuration, the syntax and the state share. -/

namespace Sys2Proof

/-- An 8-bit byte: the unit of memory and of a port (20_memory.md R49). -/
abbrev Byte := BitVec 8
/-- A 20-bit physical address (00_scope.md R8). -/
abbrev Addr := BitVec 20
/-- A 16-bit port number (00_scope.md R8). -/
abbrev Port := BitVec 16
/-- A cycle count on the command interface, 0..511 (00_scope.md R11). -/
abbrev Cycles := BitVec 9
/-- A count of system ticks, or of CPU cycles of wait (00_scope.md R11). -/
abbrev U64 := BitVec 64
/-- An IEEE 754 binary64 value as its bit pattern, bit 63 the sign (30_encoding.md R69). The operations on it
are in Machine/Binary64.lean. -/
abbrev F64 := BitVec 64
/-- A device tag (10_state.md R40). -/
abbrev Tag := BitVec 8
/-- A range length on bus `L` (30_encoding.md R67). -/
abbrev Len := BitVec 21

/-- Bytes of the physical address space, `MEM_SIZE` (00_scope.md R8). -/
abbrev memSize : Nat := 0x100000
/-- Bytes of one bucket of the fast map, `BUCKET` (00_scope.md R8). -/
abbrev bucketSize : Nat := 0x2000
/-- `NBUCKETS` (00_scope.md R9). -/
abbrev numBuckets : Nat := 128
/-- Entries of the timing table, `TABLE_LEN` (00_scope.md R8). -/
abbrev tableLen : Nat := 512
/-- Byte returned by a read of an unmapped port, `OPEN_BUS` (00_scope.md R8). -/
abbrev openBus : Byte := 0xFF#8

/-- The two forms of the clock factor (10_state.md R30). -/
inductive ClockKind where
  | divisor
  | multiplier
deriving DecidableEq, Repr, Inhabited

/-- The clock factor, a pair `(kind, n)` (10_state.md R30). -/
structure ClockFactor where
  kind : ClockKind
  n : BitVec 32
deriving DecidableEq, Repr, Inhabited

/-- One timing entry, a pair `(ticks, us)` (10_state.md R34). -/
structure Entry where
  ticks : U64
  us : F64
deriving DecidableEq, Repr, Inhabited

/-- A key event: opaque to the block, which only hands it to the keyboard (10_state.md R44). The number stands
for the event and is never read. -/
structure KeyEvent where
  code : Nat
deriving DecidableEq, Repr, Inhabited

/-- The timer's fractional-tick carry: opaque to the block, which only copies it (44_scheduler.md R122). -/
structure Carry where
  code : Nat
deriving DecidableEq, Repr, Inhabited

/-- An effect a collaborator asks for: a pulse of a line of the primary PIC (10_state.md R47). -/
inductive Effect where
  | pulse (line : Fin 8)
deriving DecidableEq, Repr, Inhabited

/-- One pair `(tag, s0)` of an install configuration (43_map_config.md R112): a device tag and that device's
initial collaborator state, written out as numbers. -/
structure InstallEntry where
  tag : Tag
  init : List Nat
deriving DecidableEq, Repr, Inhabited

end Sys2Proof
end

