-- ==== Sys2Proof/Syntax.lean ====
section
/-! DEFINITION. The commands of the block (spec/30_encoding.md R70), one constructor for each row of the opcode
table, with the operands of its format (R68), and the pseudo-commands of R76. -/

namespace Sys2Proof

/-- A command with its operands, each of the width of its bus (30_encoding.md R67). WR8 and IOWR8 carry the byte
`D[7:0]` that they use. -/
inductive Instr where
  /-- 0x01 REBUILD: `K`, `N`, `X` (R85). -/
  | rebuild (k : ClockKind) (n : BitVec 32) (x : F64)
  /-- 0x02 LOOKUP: `C` (R87). -/
  | lookup (c : Cycles)
  /-- 0x10 RD8: `A`, `C` (R93). -/
  | rd8 (a : Addr) (c : Cycles)
  /-- 0x11 RD16: `A`, `C` (R94). -/
  | rd16 (a : Addr) (c : Cycles)
  /-- 0x12 WR8: `A`, `D[7:0]`, `C` (R95). -/
  | wr8 (a : Addr) (d : Byte) (c : Cycles)
  /-- 0x13 WR16: `A`, `D`, `C` (R96). -/
  | wr16 (a : Addr) (d : BitVec 16) (c : Cycles)
  /-- 0x14 PEEK8: `A` (R97). -/
  | peek8 (a : Addr)
  /-- 0x15 RWAIT: `A`, `C` (R98). -/
  | rwait (a : Addr) (c : Cycles)
  /-- 0x16 WWAIT: `A`, `C` (R99). -/
  | wwait (a : Addr) (c : Cycles)
  /-- 0x20 IORD8: `P`, `C` (R103). -/
  | iord8 (p : Port) (c : Cycles)
  /-- 0x21 IOWR8: `P`, `D[7:0]`, `C` (R104). -/
  | iowr8 (p : Port) (d : Byte) (c : Cycles)
  /-- 0x30 REGMAP: `A`, `L`, `T`, `W`, `O` (R106). -/
  | regmap (a : Addr) (l : Len) (t : Tag) (w : Byte) (o : Bool)
  /-- 0x31 MAPQ: `A` (R108). -/
  | mapq (a : Addr)
  /-- 0x32 SETFLAGS: `A`, `L`, `M` (R109). -/
  | setflags (a : Addr) (l : Len) (m : Byte)
  /-- 0x33 CLRFLAGS: `A`, `L`, `M` (R110). -/
  | clrflags (a : Addr) (l : Len) (m : Byte)
  /-- 0x34 TESTFLAGS: `A` (R111). -/
  | testflags (a : Addr)
  /-- 0x38 INSTALL: `G` (R113). -/
  | install (g : List InstallEntry)
  /-- 0x3F RESET (R115). -/
  | reset
  /-- 0x40 RUN: `U`, `Q`, `E` (R116). -/
  | run (u : F64) (q : U64) (e : Option KeyEvent)
  /-- 0x41 PHASE: `Q` (R134). -/
  | phase (q : U64)
deriving DecidableEq, Repr

/-- One transfer on the command port: the opcode and the operand buses (30_encoding.md R66, R67). Bus `E` is a
valid bit and an event, bus `G` the install configuration of 43_map_config.md R112. -/
structure Transfer where
  op : Byte
  a : Addr := 0#20
  p : Port := 0#16
  d : BitVec 16 := 0#16
  c : Cycles := 0#9
  l : Len := 0#21
  m : Byte := 0#8
  t : Tag := 0#8
  w : Byte := 0#8
  o : Bool := false
  k : Bool := false
  n : BitVec 32 := 0#32
  x : F64 := 0#64
  u : F64 := 0#64
  q : U64 := 0#64
  eValid : Bool := false
  eEv : KeyEvent := ⟨0⟩
  g : List InstallEntry := []
deriving DecidableEq, Repr

/-- The names of the operand buses (30_encoding.md R67). -/
inductive Bus where
  | a | p | d | c | l | m | t | w | o | k | n | x | u | q | e | g
deriving DecidableEq, Repr

/-- `MARKROM a, len` expands to `SETFLAGS a, len, 0x01` (30_encoding.md R76). -/
def Instr.markRom (a : Addr) (len : Len) : Instr := .setflags a len 0x01#8
/-- `BREAKX a` expands to `SETFLAGS a, 1, 0x04` (30_encoding.md R76). -/
def Instr.breakX (a : Addr) : Instr := .setflags a 1#21 0x04#8
/-- `BREAKA a` expands to `SETFLAGS a, 1, 0x08` (30_encoding.md R76). -/
def Instr.breakA (a : Addr) : Instr := .setflags a 1#21 0x08#8
/-- `UNBREAK a, len` expands to `CLRFLAGS a, len, 0x0E` (30_encoding.md R76). -/
def Instr.unbreak (a : Addr) (len : Len) : Instr := .clrflags a len 0x0E#8

end Sys2Proof
end

