-- ==== Sys2Proof/Decode.lean ====
section
/-! DEFINITION. The decoder of a command transfer (spec/30_encoding.md R66 to R73), total, rejecting an illegal
opcode by name, and the encoder, both written from the opcode map of R70 and the formats of R68. -/

namespace Sys2Proof

/-- Why a transfer is no command: its opcode is not in the map of R70 (30_encoding.md R72). -/
inductive DecodeError where
  | illegalOpcode (op : Byte)
deriving DecidableEq, Repr

/-- Bus `K`: 0 is `Divisor`, 1 is `Multiplier` (30_encoding.md R67). -/
def clockKindOfBit (k : Bool) : ClockKind := if k then .multiplier else .divisor

/-- The bit of bus `K` for a kind. -/
def clockKindBit : ClockKind → Bool
  | .divisor => false
  | .multiplier => true

/-- Bus `E`: the event counts only where the valid bit is set (30_encoding.md R67, log entry 11). -/
def eventOfBus (valid : Bool) (ev : KeyEvent) : Option KeyEvent := if valid then some ev else none

/-- `D[7:0]`, the byte WR8 and IOWR8 use (30_encoding.md R67). -/
def lowByte (d : BitVec 16) : Byte := d.setWidth 8

/-- The decoder: the whole opcode byte selects the command, and only the buses of its format are read
(30_encoding.md R66, R68, R70, R71). -/
def decode (t : Transfer) : Except DecodeError Instr :=
  match t.op.toNat with
  | 0x01 => .ok (.rebuild (clockKindOfBit t.k) t.n t.x)
  | 0x02 => .ok (.lookup t.c)
  | 0x10 => .ok (.rd8 t.a t.c)
  | 0x11 => .ok (.rd16 t.a t.c)
  | 0x12 => .ok (.wr8 t.a (lowByte t.d) t.c)
  | 0x13 => .ok (.wr16 t.a t.d t.c)
  | 0x14 => .ok (.peek8 t.a)
  | 0x15 => .ok (.rwait t.a t.c)
  | 0x16 => .ok (.wwait t.a t.c)
  | 0x20 => .ok (.iord8 t.p t.c)
  | 0x21 => .ok (.iowr8 t.p (lowByte t.d) t.c)
  | 0x30 => .ok (.regmap t.a t.l t.t t.w t.o)
  | 0x31 => .ok (.mapq t.a)
  | 0x32 => .ok (.setflags t.a t.l t.m)
  | 0x33 => .ok (.clrflags t.a t.l t.m)
  | 0x34 => .ok (.testflags t.a)
  | 0x38 => .ok (.install t.g)
  | 0x3F => .ok .reset
  | 0x40 => .ok (.run t.u t.q (eventOfBus t.eValid t.eEv))
  | 0x41 => .ok (.phase t.q)
  | _ => .error (.illegalOpcode t.op)

/-- The buses of the format of an opcode, in the order of the format; none for an opcode outside the map
(30_encoding.md R68, R70). -/
def formatBuses (op : Byte) : List Bus :=
  match op.toNat with
  | 0x01 => [.k, .n, .x]
  | 0x02 => [.c]
  | 0x10 => [.a, .c]
  | 0x11 => [.a, .c]
  | 0x12 => [.a, .d, .c]
  | 0x13 => [.a, .d, .c]
  | 0x14 => [.a]
  | 0x15 => [.a, .c]
  | 0x16 => [.a, .c]
  | 0x20 => [.p, .c]
  | 0x21 => [.p, .d, .c]
  | 0x30 => [.a, .l, .t, .w, .o]
  | 0x31 => [.a]
  | 0x32 => [.a, .l, .m]
  | 0x33 => [.a, .l, .m]
  | 0x34 => [.a]
  | 0x38 => [.g]
  | 0x40 => [.u, .q, .e]
  | 0x41 => [.q]
  | _ => []

/-- The opcode byte of a command (30_encoding.md R70). -/
def Instr.opcode : Instr → Byte
  | .rebuild .. => 0x01#8
  | .lookup .. => 0x02#8
  | .rd8 .. => 0x10#8
  | .rd16 .. => 0x11#8
  | .wr8 .. => 0x12#8
  | .wr16 .. => 0x13#8
  | .peek8 .. => 0x14#8
  | .rwait .. => 0x15#8
  | .wwait .. => 0x16#8
  | .iord8 .. => 0x20#8
  | .iowr8 .. => 0x21#8
  | .regmap .. => 0x30#8
  | .mapq .. => 0x31#8
  | .setflags .. => 0x32#8
  | .clrflags .. => 0x33#8
  | .testflags .. => 0x34#8
  | .install .. => 0x38#8
  | .reset => 0x3F#8
  | .run .. => 0x40#8
  | .phase .. => 0x41#8

/-- The encoder: a command on the buses of its format (30_encoding.md R68), every other bus 0. -/
def encode (i : Instr) : Transfer :=
  let t : Transfer := { op := i.opcode }
  match i with
  | .rebuild k n x => { t with k := clockKindBit k, n := n, x := x }
  | .lookup c => { t with c := c }
  | .rd8 a c => { t with a := a, c := c }
  | .rd16 a c => { t with a := a, c := c }
  | .wr8 a d c => { t with a := a, d := d.setWidth 16, c := c }
  | .wr16 a d c => { t with a := a, d := d, c := c }
  | .peek8 a => { t with a := a }
  | .rwait a c => { t with a := a, c := c }
  | .wwait a c => { t with a := a, c := c }
  | .iord8 p c => { t with p := p, c := c }
  | .iowr8 p d c => { t with p := p, d := d.setWidth 16, c := c }
  | .regmap a l tg w o => { t with a := a, l := l, t := tg, w := w, o := o }
  | .mapq a => { t with a := a }
  | .setflags a l m => { t with a := a, l := l, m := m }
  | .clrflags a l m => { t with a := a, l := l, m := m }
  | .testflags a => { t with a := a }
  | .install g => { t with g := g }
  | .reset => t
  | .run u q e => { t with u := u, q := q, eValid := e.isSome, eEv := e.getD ⟨0⟩ }
  | .phase q => { t with q := q }

/-- The transfer whose bits are `w` as the opcode table numbers them: the table gives a row the opcode byte and no
bit for an operand, so every bus is 0 (log entry 10). -/
def tableTransfer (w : Nat) : Transfer := { op := BitVec.ofNat 8 w }

/-- The command the decoder reads from a table word of `nbits` bits. No row has a bit above bit 7. -/
def decodeTableWord (_nbits w : Nat) : Option Instr :=
  if w < 0x100 then (decode (tableTransfer w)).toOption else none

end Sys2Proof
end

