-- ==== Sys2Proof/Machine/Flags.lean ====
section
/-! DEFINITION. The memory flags (spec/10_state.md R24 to R29): the bits of a flags byte, and the two operations on
the flags array, reading one byte and changing every byte of a range. -/

namespace Sys2Proof.Machine

/-- The flags array as a list of (address, flags byte): a flags byte holds from its address up to the next listed
one, and 0x00 holds before the first. Canonical form: addresses strictly rising and below 0x100000, each byte
different from the one before it, the first not 0x00 (log entry 13). -/
abbrev FlagMap := List Host.Cell

/-! Flag bits (10_state.md R25). -/

abbrev flagRom : Byte := 0x01#8
abbrev flagRet : Byte := 0x02#8
abbrev flagBpe : Byte := 0x04#8
abbrev flagBpa : Byte := 0x08#8
abbrev flagChk : Byte := 0x10#8
abbrev flagMmio : Byte := 0x20#8

/-- The bits a flags byte has: bits 7:6 read as 0 (10_state.md R29). -/
abbrev flagBits : Byte := 0x3F#8
/-- The bits SETFLAGS may set: ROM, RET, BPE, BPA, CHK (43_map_config.md R109). -/
abbrev setMask : Byte := 0x1F#8
/-- The bits CLRFLAGS may clear: RET, BPE, BPA, CHK (43_map_config.md R110). -/
abbrev clearMask : Byte := 0x1E#8
/-- The bits RESET keeps: ROM, CHK, MMIO (43_map_config.md R115). -/
abbrev resetKeepMask : Byte := 0x31#8

/-- The flags byte at `a` of a list whose bytes before its first address are `cur`. -/
def flagWalk (cur : Byte) : FlagMap → Nat → Byte
  | [], _ => cur
  | (p, v) :: rest, a => if a < p then cur else flagWalk v rest a

/-- `Flag(a)` (00_scope.md R14). -/
def flagAt (fl : FlagMap) (a : Nat) : Byte := flagWalk 0#8 fl a

/-- The ROM bit of `a` is set. -/
def romAt (fl : FlagMap) (a : Nat) : Bool := flagAt fl a &&& flagRom != 0#8

/-- The MMIO bit of `a` is set. -/
def mmioAt (fl : FlagMap) (a : Nat) : Bool := flagAt fl a &&& flagMmio != 0#8

/-- Put `p` into a strictly rising list. -/
def insertPoint (p : Nat) : List Nat → List Nat
  | [] => [p]
  | q :: rest => if p < q then p :: q :: rest else if p = q then q :: rest else q :: insertPoint p rest

/-- The elements of a list in strictly rising order. -/
def sortPoints : List Nat → List Nat
  | [] => []
  | p :: rest => insertPoint p (sortPoints rest)

/-- Drop each entry whose byte is the one that holds already. -/
def dropRepeats (cur : Byte) : FlagMap → FlagMap
  | [] => []
  | (p, v) :: rest => if v = cur then dropRepeats cur rest else (p, v) :: dropRepeats v rest

/-- The canonical list of the flags array `g`, which changes its byte at the addresses `points` only. -/
def buildFlags (g : Nat → Byte) (points : List Nat) : FlagMap :=
  dropRepeats 0#8 (((sortPoints (0 :: points)).filter (· < memSize)).map fun p => (p, g p))

/-- `flags[a] <- f(flags[a])` for every `a` with `lo <= a < hi`. -/
def mapFlags (f : Byte → Byte) (lo hi : Nat) (fl : FlagMap) : FlagMap :=
  buildFlags (fun a => if lo ≤ a ∧ a < hi then f (flagAt fl a) else flagAt fl a) (lo :: hi :: fl.map Prod.fst)

end Sys2Proof.Machine
end

