-- ==== Sys2Proof/Config.lean ====
section
/-! DEFINITION. What the spec leaves to the machine: the collaborator contract of spec/10_state.md R44 as functions
(log entries 1 and 2), and the one free value of the arithmetic. The machine's parameters and its collaborators
stand together in Machine/Board.lean, which needs the checks of a clock. -/

namespace Sys2Proof

/-- State of a timer (tag 0x01). Each device class has an opaque state type (10_state.md R44); the numbers stand
for a state and are never read by the block. -/
structure PitState where
  code : List Nat
deriving DecidableEq, Repr, Inhabited
/-- State of an interrupt controller (tags 0x02, 0x03). -/
structure PicState where
  code : List Nat
deriving DecidableEq, Repr, Inhabited
/-- State of a DMA controller (tags 0x04, 0x05). -/
structure DmaState where
  code : List Nat
deriving DecidableEq, Repr, Inhabited
/-- State of the PPI (tag 0x06). -/
structure PpiState where
  code : List Nat
deriving DecidableEq, Repr, Inhabited
/-- State of the keyboard (tag 0x07). -/
structure KbdState where
  code : List Nat
deriving DecidableEq, Repr, Inhabited
/-- State of a storage controller (tags 0x08, 0x09). -/
structure StorageState where
  code : List Nat
deriving DecidableEq, Repr, Inhabited
/-- State of the serial controller (tag 0x0A). -/
structure SerialState where
  code : List Nat
deriving DecidableEq, Repr, Inhabited
/-- State of the serial mouse (tag 0x0B). -/
structure MouseState where
  code : List Nat
deriving DecidableEq, Repr, Inhabited
/-- State of a video card (tags 0x80..0xFF). -/
structure VideoState where
  code : List Nat
deriving DecidableEq, Repr, Inhabited

/-- Byte I/O, which every class but KBD and MOUSE has (10_state.md R44). -/
structure ByteIo (σ : Type) where
  read : σ → Port → Entry → Byte × σ
  write : σ → Port → Byte → Entry → σ × List Effect
  ports : σ → List Port
deriving Inhabited

/-- What timer channel 1 shows at an inspection (10_state.md R44, `PIT.ch1`). -/
structure Channel1 where
  counting : Bool
  reload : BitVec 16
  elem : BitVec 16
  carry : Carry
deriving DecidableEq, Repr, Inhabited

/-- The PIT contract. -/
structure PitFns where
  io : ByteIo PitState
  advanceUs : PitState → F64 → PitState × List Effect
  advanceTicks : PitState → U64 → PitState × List Effect
  ch1 : PitState → Channel1
deriving Inhabited

/-- The PIC contract. -/
structure PicFns where
  io : ByteIo PicState
  pulse : PicState → Fin 8 → PicState
  advance : PicState → U64 → PicState
deriving Inhabited

/-- The DMA contract. -/
structure DmaFns where
  io : ByteIo DmaState
  advance : DmaState → Entry → DmaState
deriving Inhabited

/-- The PPI contract. `latch` answers whether keyboard interrupts are enabled; `advance` sees the primary PIC,
or none where it is absent (44_scheduler.md R120). -/
structure PpiFns where
  io : ByteIo PpiState
  latch : PpiState → Byte → PpiState × Bool
  advance : PpiState → Option PicState → F64 → PpiState × Option Bool
deriving Inhabited

/-- The keyboard contract. `tick` answers the new state, the drained scancode and the overflow flag. -/
structure KbdFns where
  apply : KbdState → KeyEvent → KbdState × Option Byte
  tick : KbdState → KbdState × Option Byte × Bool
deriving Inhabited

/-- The storage contract, in a form under which the DMA state comes back exactly when it was lent
(44_scheduler.md R125, log entry 2): `step` gives the controller's own next state and its effects, `dmaAfter` the
lent DMA state handed back. `StorageFns.advance` puts them together. -/
structure StorageFns where
  io : ByteIo StorageState
  step : StorageState → Option DmaState → Entry → StorageState × List Effect
  dmaAfter : StorageState → DmaState → Entry → DmaState
deriving Inhabited

/-- The serial contract. -/
structure SerialFns where
  io : ByteIo SerialState
  advance : SerialState → F64 → SerialState × List Effect
deriving Inhabited

/-- The mouse contract. -/
structure MouseFns where
  advance : MouseState → SerialState → F64 → MouseState × SerialState
deriving Inhabited

/-- The video contract, in a form under which the obligations of 10_state.md R45 hold (log entry 2): a byte read's
value is what a peek shows, its wait is what the read-wait query says, and a byte write's wait is what the
write-wait query says. `VideoFns.mread8` and `VideoFns.mwrite8` put them together. -/
structure VideoFns where
  io : ByteIo VideoState
  apertures : VideoState → List (Addr × Len)
  mpeek8 : VideoState → Addr → Byte
  mrwait : VideoState → Addr → U64 → BitVec 32
  mwwait : VideoState → Addr → U64 → BitVec 32
  readNext8 : VideoState → Addr → U64 → VideoState
  writeNext8 : VideoState → Addr → Byte → U64 → VideoState
  mread16 : VideoState → Addr → U64 → BitVec 16 × BitVec 32 × VideoState
  mwrite16 : VideoState → Addr → BitVec 16 → U64 → BitVec 32 × VideoState
  vadvanceUs : VideoState → F64 → Option PicState → VideoState × List Effect
  vadvanceTicks : VideoState → U64 → Option PicState → VideoState × List Effect
deriving Inhabited

/-- The unit a video kind is advanced by (00_scope.md R10, `VIDEO_KINDS`). -/
inductive TimeUnit where
  | us
  | ticks
deriving DecidableEq, Repr, Inhabited

/-- Free value: the sign and the payload of the quiet NaN that a binary64 operation gives on two operands. IEEE 754
fixes that the result is a NaN, and the spec says nothing of its bits (log entry 9). -/
opaque Config.nanBits : F64 → F64 → BitVec 52

end Sys2Proof
end

