-- ==== Sys2Proof/Machine/Binary64.lean ====
section
/-! DEFINITION. Binary64 arithmetic (spec/00_scope.md R13): each operation computes the exact rational result and
rounds it once, to nearest with ties to even. A finite value is read as a whole number of UNITS of 2^-1074, the
smallest positive binary64 value. -/

namespace Sys2Proof.Binary64

/-- The sign bit, bit 63. -/
def sign (x : F64) : Bool := 2 ^ 63 ≤ x.toNat

/-- Bits 62:0. Read as numbers, they order magnitudes as their values are ordered. -/
def magBits (x : F64) : Nat := x.toNat % 2 ^ 63

/-- The magnitude bits of an infinity. -/
abbrev infBits : Nat := 0x7FF0000000000000

def isNaN (x : F64) : Bool := infBits < magBits x
def isInf (x : F64) : Bool := magBits x == infBits
def isZero (x : F64) : Bool := magBits x == 0
/-- Neither a NaN nor an infinity. -/
def isFinite (x : F64) : Bool := magBits x < infBits

/-- The magnitude of a finite value in units of 2^-1074. -/
def units (x : F64) : Nat :=
  let e := magBits x / 2 ^ 52
  let f := magBits x % 2 ^ 52
  if e = 0 then f else (2 ^ 52 + f) * 2 ^ (e - 1)

/-- A finite value with its sign, in units of 2^-1074. -/
def signedUnits (x : F64) : Int := if sign x then -(units x : Int) else units x

/-- The integer nearest to `n / d`, of two the even one. -/
def roundDiv (n d : Nat) : Nat :=
  let q := n / d
  let r := n % d
  if 2 * r < d then q else if d < 2 * r then q + 1 else q + q % 2

/-- The magnitude bits of the binary64 value nearest to `num / den` units; past the largest finite value, those of
an infinity. The last place is `2^e` units, where `e` is 0 below 2^53 units. -/
def roundBits (num den : Nat) : Nat :=
  let e := Nat.log2 (num / den) - 52
  min (e * 2 ^ 52 + roundDiv num (den * 2 ^ e)) infBits

/-- A value from its sign and its magnitude bits. -/
def pack (s : Bool) (m : Nat) : F64 := BitVec.ofNat 64 ((if s then 2 ^ 63 else 0) + m)

/-- The quiet NaN of an operation on `a` and `b`: its sign and payload are free (log entry 9). -/
def quietNaN (a b : F64) : F64 :=
  let n := (Config.nanBits a b).toNat
  pack (2 ^ 51 ≤ n) (0xFFF * 2 ^ 51 + n % 2 ^ 51)

/-- `f64(k)` (00_scope.md R13). -/
def ofNat (k : Nat) : F64 := pack false (roundBits (k * 2 ^ 1074) 1)

/-- The binary64 value nearest to `num / den` (for a decimal literal, 30_encoding.md R75). -/
def ofRatio (num den : Nat) : F64 := pack false (roundBits (num * 2 ^ 1074) den)

/-- `-x`. -/
def neg (x : F64) : F64 := pack (!sign x) (magBits x)

/-- `fadd(a, b)` (00_scope.md R13). -/
def add (a b : F64) : F64 :=
  if isNaN a || isNaN b || (isInf a && isInf b && sign a != sign b) then quietNaN a b
  else if isInf a then a
  else if isInf b then b
  else
    let z := signedUnits a + signedUnits b
    if z = 0 then pack (sign a && sign b) 0 else pack (z < 0) (roundBits z.natAbs 1)

/-- `fsub(a, b)` (00_scope.md R13). -/
def sub (a b : F64) : F64 := if isNaN a || isNaN b then quietNaN a b else add a (neg b)

/-- `fmul(a, b)` (00_scope.md R13). -/
def mul (a b : F64) : F64 :=
  let s := sign a != sign b
  if isNaN a || isNaN b || (isInf a && isZero b) || (isZero a && isInf b) then quietNaN a b
  else if isInf a || isInf b then pack s infBits
  else pack s (roundBits (units a * units b) (2 ^ 1074))

/-- `fdiv(a, b)` (00_scope.md R13). -/
def div (a b : F64) : F64 :=
  let s := sign a != sign b
  if isNaN a || isNaN b || (isInf a && isInf b) || (isZero a && isZero b) then quietNaN a b
  else if isInf a || isZero b then pack s infBits
  else if isInf b then pack s 0
  else pack s (roundBits (units a * 2 ^ 1074) (units b))

/-- A number by which the IEEE order of two values that are no NaN is the order of integers; both zeros give 0. -/
def orderKey (x : F64) : Int := if sign x then -(magBits x : Int) else magBits x

/-- `fge(a, b)`, the IEEE `>=` comparison, false on a NaN (00_scope.md R13). -/
def ge (a b : F64) : Bool := !isNaN a && !isNaN b && orderKey b ≤ orderKey a

/-- The IEEE `>` comparison. -/
def gt (a b : F64) : Bool := !isNaN a && !isNaN b && orderKey b < orderKey a

/-- `+0.0`. -/
abbrev zero : F64 := 0#64

/-- `5000.0`, the default of `KB_UPDATE_US` (00_scope.md R10; its bits stand in 95_test_vectors.md). -/
abbrev fiveThousand : F64 := 0x40B3880000000000#64

/-- `1.0`. -/
abbrev one : F64 := 0x3FF0000000000000#64

end Sys2Proof.Binary64
end

