-- ==== Sys2Proof/Machine/Clock.lean ====
section
/-! DEFINITION. The conversion laws of spec/40_timing.md section 1, as functions of a clock factor and a crystal:
cycles and waits (R78 to R80), the CPU frequency (R81), the table (R82), and the REBUILD checks (R85). -/

namespace Sys2Proof.Machine

/-- `ceil_div(x, n)` (00_scope.md R12). -/
def ceilDiv (x n : Nat) : Nat := (x + n - 1) / n

/-- `Conv(cf, x)` (40_timing.md R78). -/
def conv (cf : ClockFactor) (x : Nat) : Nat :=
  match cf.kind with
  | .divisor => ceilDiv x cf.n.toNat
  | .multiplier => x * cf.n.toNat

/-- `W2C(w)`, the same function as cycles to ticks, in the 64 bits of the response's `wait` (40_timing.md R80,
90_conflicts.md C2). -/
def waitCycles (cf : ClockFactor) (w : BitVec 32) : U64 := BitVec.ofNat 64 (conv cf w.toNat)

/-- `MHz(cf, crystal)` (40_timing.md R81). -/
def mhz (cf : ClockFactor) (crystal : F64) : F64 :=
  match cf.kind with
  | .divisor => Binary64.div crystal (Binary64.ofNat cf.n.toNat)
  | .multiplier => Binary64.mul crystal (Binary64.ofNat cf.n.toNat)

/-- The checks of REBUILD, none of which raises `BAD_CLOCK` (40_timing.md R85; 70_reset_and_hazards.md R154). -/
def clockOk (cf : ClockFactor) (crystal : F64) : Bool :=
  cf.n != 0#32 && Binary64.isFinite crystal && Binary64.gt crystal Binary64.zero
    && !Binary64.isInf (mhz cf crystal) && !Binary64.isZero (mhz cf crystal)

/-- Entry `c` of the table, with `m` the CPU frequency (40_timing.md R82). -/
def tableEntry (cf : ClockFactor) (m : F64) (c : Nat) : Entry :=
  { ticks := BitVec.ofNat 64 (conv cf c), us := Binary64.div (Binary64.ofNat c) m }

/-- The list `f k, f (k + 1), …` of `n` elements. -/
def tabulateFrom {α : Type} (f : Nat → α) : Nat → Nat → List α
  | 0, _ => []
  | n + 1, k => f k :: tabulateFrom f n (k + 1)

theorem tabulateFrom_length {α : Type} (f : Nat → α) (n k : Nat) : (tabulateFrom f n k).length = n := by
  induction n generalizing k with
  | zero => rfl
  | succ n ih => simp [tabulateFrom, ih]

/-- The vector whose element `i` is `f i`. -/
def tabulate {α : Type} (n : Nat) (f : Nat → α) : Vector α n :=
  ⟨(tabulateFrom f n 0).toArray, by simp [tabulateFrom_length]⟩

/-- `Build(cf, crystal)`: the frequency first, then each entry from it (40_timing.md R82). -/
def buildTable (cf : ClockFactor) (crystal : F64) : Vector Entry tableLen :=
  let m := mhz cf crystal
  tabulate tableLen (tableEntry cf m)

end Sys2Proof.Machine
end

