-- ==== Sys2Proof/Machine/Board.lean ====
section
/-! DEFINITION. One machine: its parameters (spec/00_scope.md R10) and its collaborators (spec/10_state.md R44). All of
them are fields of ONE opaque constant, `Config.board`, so nothing in Lean knows a value of any of them (log entries 1,
3 and 4). The operations of the machine take a `Board` as an argument; the instructions pass them `Config.board`. -/

namespace Sys2Proof

open Machine in
/-- `CF0` and `CRYSTAL0`, which pass the REBUILD checks: there is no machine with a clock that fails them
(70_reset_and_hazards.md R154). The values written here are no board's; they show that a clock exists (log entry 4). -/
structure PowerOnClock where
  cf : ClockFactor := ⟨.divisor, 1#32⟩
  crystal : F64 := Binary64.one
  passes : clockOk cf crystal = true := by decide +kernel
deriving DecidableEq, Repr, Inhabited

/-- `KB_UPDATE_US`, a binary64 value above 0, 5000.0 where a machine gives none (00_scope.md R10). -/
structure UpdatePeriod where
  us : F64 := Binary64.fiveThousand
  positive : Binary64.gt us Binary64.zero = true := by decide +kernel
deriving DecidableEq, Repr, Inhabited

/-- One machine's parameters (00_scope.md R10) and collaborators (10_state.md R44). A class of several devices has
its functions by device tag (00_scope.md R14, `Dev[t].f`). A video kind is the `type` field of its tag, 0..7. -/
structure Board where
  convSize : Fin 0x100001
  kbUpdateUs : UpdatePeriod
  clock : PowerOnClock
  pitHasCrystal : Bool
  supported : List InstallEntry → Bool
  videoKind : BitVec 3 → Bool
  videoUnit : BitVec 3 → TimeUnit
  videoTickMin : BitVec 3 → U64
  pit : PitFns
  pic : Tag → PicFns
  dma : Tag → DmaFns
  ppi : PpiFns
  kbd : KbdFns
  storage : Tag → StorageFns
  serial : SerialFns
  mouse : MouseFns
  video : Tag → VideoFns
deriving Inhabited

/-- The machine's parameters and collaborators, with no value (93_implementation_defined.md I5 to I16). -/
opaque Config.board : Board

open Machine in
/-- The power-on clock of `CF0` and `CRYSTAL0`, none where they fail the checks (70_reset_and_hazards.md R154). -/
def constructClock (cf : ClockFactor) (crystal : F64) : Option PowerOnClock :=
  if h : clockOk cf crystal = true then some ⟨cf, crystal, h⟩ else none

end Sys2Proof
end

