-- ==== Sys2Proof/Machine/State.lean ====
section
/-! DEFINITION. The state of the block (spec/10_state.md), as plain data, its response record, and its value at
power-on (spec/70_reset_and_hazards.md R153). -/

namespace Sys2Proof.Machine

/-- Memory bytes, and the port map, as a list of (address, byte) in one canonical form: addresses strictly rising,
no byte 0x00. An address not listed reads 0x00 (log entry 5). The operations are in Machine/Ops.lean. -/
abbrev Cells := List Host.Cell

/-- A registration of the authoritative list (10_state.md R35). -/
structure Registration where
  base : Addr
  size : Len
  wcost : Byte
  ro : Bool
  tag : Tag
deriving DecidableEq, Repr, Inhabited

/-- The device slots, each `Absent` (`none`) or `Present` (`some`) (10_state.md R39, R40). The slot of video tag
`0x80 + i` is `video[i]`. -/
structure Slots where
  pit : Option PitState
  pic1 : Option PicState
  pic2 : Option PicState
  dma1 : Option DmaState
  dma2 : Option DmaState
  ppi : Option PpiState
  kbd : Option KbdState
  fdc : Option StorageState
  hdc : Option StorageState
  serial : Option SerialState
  mouse : Option MouseState
  video : Vector (Option VideoState) 128
deriving DecidableEq, Repr

/-- The state of the refresh FSM, `ref_counting` (10_state.md R43). -/
inductive RefreshFsm where
  | idle
  | counting
deriving DecidableEq, Repr, Inhabited

/-- The cross-device event of a response (10_state.md R48). -/
inductive Event where
  | dramRefreshUpdate (reload elem : BitVec 16) (carry : Carry)
  | dramRefreshEnable (on : Bool)
  | turboToggle (on : Bool)
deriving DecidableEq, Repr, Inhabited

/-- The response record; a field a rule does not set is 0, +0.0 or `None` (10_state.md R48). -/
structure Response where
  status : Byte := 0#8
  data : BitVec 16 := 0#16
  wait : U64 := 0#64
  ticks : U64 := 0#64
  us : F64 := 0#64
  event : Option Event := none
deriving DecidableEq, Repr

/-- Why a command faults (60_exceptions.md R135). Each of these is a status of the block, reported in a next state;
none stops the model. `FaultCode.code` in Machine/Ops.lean gives the codes. -/
inductive FaultCode where
  | outOfBounds
  | mmioUnresolvable
  | mapSize
  | mapAlign
  | mapOverlap
  | installFail
  | alreadyInstalled
  | badClock
  | illegalOpcode
  | badOperand
  | portUnresolvable
deriving DecidableEq, Repr, Inhabited

/-- Reasons for which a step of the model stops with a fault: NONE. The block reports every fault of its own in its
response and its sticky register (60_exceptions.md R136), and that is a next state (log entry 8). -/
inductive Fault : Type
deriving DecidableEq, Repr

/-- Reasons for which the model refuses a step. -/
inductive Refusal where
  /-- Raised by an arm of `exec` whose instruction has no meaning yet; no arm raises it. Safe. -/
  | notModelled (mnemonic : String)
deriving DecidableEq, Repr

/-- The state of the block (10_state.md). `response` is the answer to the last command (R48), none before the first
(log entry 7). `pending` holds the transfers the host has issued and the block has not taken, oldest first
(log entry 6). -/
structure State where
  mem : Cells
  flags : FlagMap
  cf : ClockFactor
  crystal : F64
  convSize : Fin 0x100001
  installed : Bool
  table : Vector Entry 512
  maplist : List Registration
  fastmap : Vector Tag 128
  portmap : Cells
  slots : Slots
  kbAcc : F64
  phaseAdj : U64
  refresh : RefreshFsm
  refReload : BitVec 16
  vidAcc : Vector U64 128
  fault : Byte
  response : Option Response
  pending : List Transfer
deriving DecidableEq, Repr

/-- No device (10_state.md R39). -/
def Slots.absent : Slots where
  pit := none
  pic1 := none
  pic2 := none
  dma1 := none
  dma2 := none
  ppi := none
  kbd := none
  fdc := none
  hdc := none
  serial := none
  mouse := none
  video := tabulate 128 fun _ => none

/-- The state at power-on of a board whose ROM loader has written `mem0` and `flags0` (70_reset_and_hazards.md R153;
00_scope.md R10, `MEM0` and `FLAGS0`). The block has no bits 7:6 of a flags byte to load (10_state.md R29).
R24 asks for an image with the MMIO bit clear everywhere, and nothing says what becomes of another: it is loaded as it
stands, which is the model's choice (DESIGN CHOICE, log entry 17). -/
def State.powerOn (b : Board) (mem0 : Cells) (flags0 : FlagMap) : State where
  mem := mem0
  flags := mapFlags (· &&& flagBits) 0 memSize flags0
  cf := b.clock.cf
  crystal := b.clock.crystal
  convSize := b.convSize
  installed := false
  table := buildTable b.clock.cf b.clock.crystal
  maplist := []
  fastmap := tabulate 128 fun _ => 0#8
  portmap := []
  slots := Slots.absent
  kbAcc := 0#64
  phaseAdj := 0#64
  refresh := .idle
  refReload := 0#16
  vidAcc := tabulate 128 fun _ => 0#64
  fault := 0#8
  response := none
  pending := []

/-- Construction with `CF0`, `CRYSTAL0`, `MEM0` and `FLAGS0` (70_reset_and_hazards.md R153): refused where the clock fails
the REBUILD checks (R154), else the block at power-on. A flags image with an MMIO bit set, which R24 rules out, is not
refused: the model's choice (DESIGN CHOICE, log entry 17). -/
def State.construct (b : Board) (cf0 : ClockFactor) (crystal0 : F64) (mem0 : Cells) (flags0 : FlagMap) : Option State :=
  match constructClock cf0 crystal0 with
  | some c => some (State.powerOn { b with clock := c } mem0 flags0)
  | none => none

/-- The machine right after power-on, the reset from which everything starts (70_reset_and_hazards.md R153). The
RESET command is `execReset`. Memory and flags list nothing: `MEM0` and `FLAGS0` are all 0x00 (log entry 5). -/
def State.reset : State := State.powerOn Config.board [] []

end Sys2Proof.Machine
end

