-- ==== Sys2Proof/WellFormed.lean ====
section
/-! DEFINITION. Which commands carry only legal operand values: the checks of spec/30_encoding.md R67 and R73, and
those of spec/40_timing.md R85, spec/43_map_config.md R113 and spec/44_scheduler.md R116 that read the operands
alone. An ill-formed command decodes all the same, and its rule faults it (log entry 12). -/

namespace Sys2Proof

/-- A device can have this tag: neither 0x00 nor one of 0x0C..0x7F (10_state.md R40). -/
def Tag.assigned (t : Tag) : Bool := (0x01 ≤ t.toNat && t.toNat ≤ 0x0B) || 0x80 ≤ t.toNat

/-- A range length is at most 0x100000 (30_encoding.md R67). -/
def Len.legal (l : Len) : Bool := l.toNat ≤ memSize

/-- No tag stands twice in an install configuration (10_state.md R41, 43_map_config.md R113). -/
def distinctTags : List InstallEntry → Bool
  | [] => true
  | e :: g => g.all (fun e' => e'.tag != e.tag) && distinctTags g

/-- Every operand value is one that the spec calls legal for the command. -/
def Instr.WellFormed : Instr → Bool
  | .rebuild _ n _ => n != 0#32
  | .lookup _ => true
  | .rd8 _ _ => true
  | .rd16 a _ => a.toNat + 2 ≤ memSize
  | .wr8 _ _ _ => true
  | .wr16 a _ _ => a.toNat + 2 ≤ memSize
  | .peek8 _ => true
  | .rwait _ _ => true
  | .wwait _ _ => true
  | .iord8 _ _ => true
  | .iowr8 _ _ _ => true
  | .regmap a l t _ _ =>
    Tag.assigned t && Len.legal l && l.toNat % bucketSize == 0 && l.toNat != 0 && a.toNat % bucketSize == 0
      && a.toNat + l.toNat ≤ memSize
  | .mapq _ => true
  | .setflags a l _ => Len.legal l && a.toNat + l.toNat ≤ memSize
  | .clrflags a l _ => Len.legal l && a.toNat + l.toNat ≤ memSize
  | .testflags _ => true
  | .install g => g.all (fun e => Tag.assigned e.tag) && distinctTags g
  | .reset => true
  | .run u _ _ => u.toNat < 0x7FF0000000000000 || u == 0x8000000000000000#64
  | .phase _ => true

end Sys2Proof
end

