-- ==== Sys2Proof/Machine/Operands.lean ====
section
/-! DEFINITION. What a command makes of its operands (spec/30_encoding.md R69): bounds (spec/41_memory_access.md
R89), buckets (spec/00_scope.md R9), device tags (spec/10_state.md R40, R41), the cycle operand (spec/40_timing.md
R88). -/

namespace Sys2Proof.Machine

/-- `InBounds(a, n)` (41_memory_access.md R89). -/
def inBounds (a : Addr) (n : Nat) : Bool := a.toNat + n ≤ memSize

/-- The bucket of an address, `a[19:13]` (00_scope.md R9). -/
def bucketOf (a : Addr) : Fin 128 := ⟨a.toNat / bucketSize, by have := a.isLt; simp only [bucketSize]; omega⟩

/-- The tag names a video card (10_state.md R40). -/
def isVideoTag (t : Tag) : Bool := 0x80 ≤ t.toNat

/-- The place of a video tag among the 128: its `(type, index)` bits `tag[6:0]` (10_state.md R40). -/
def videoIndex (t : Tag) : Fin 128 := ⟨t.toNat % 128, by omega⟩

/-- `type = tag[6:4]`, the kind of a video card (10_state.md R40, R41). -/
def videoKindOf (t : Tag) : BitVec 3 := t.extractLsb' 4 3

/-- The video tags in ascending order (44_scheduler.md R127). -/
def videoTags : List Tag := tabulateFrom (fun i => BitVec.ofNat 8 (0x80 + i)) 128 0

/-- `table[C]`: every value of `C` names an entry (40_timing.md R87, R88). -/
def entryAt (s : State) (c : Cycles) : Entry := s.table.get c.toFin

/-- RUN's `U` is neither a NaN, nor infinite, nor below 0.0 (44_scheduler.md R116). -/
def elapsedOk (u : F64) : Bool := Binary64.isFinite u && Binary64.ge u Binary64.zero

/-- The sum does not fit in 64 bits (44_scheduler.md R116). -/
def ticksOverflow (x y : U64) : Bool := 2 ^ 64 ≤ x.toNat + y.toNat

end Sys2Proof.Machine
end

