-- ==== Sys2Proof/Machine/Ops.lean ====
section
/-! DEFINITION. The shared operations of the block: memory bytes and words, responses and faults
(spec/60_exceptions.md), routing (spec/41_memory_access.md), the device slots and the effects of a device call
(spec/10_state.md R39, R47), and the collaborator calls in the form of spec/10_state.md R44. -/

namespace Sys2Proof.Machine

/-! ## Cells: memory and the port map -/

/-- The byte at `a`; 0x00 where it is not listed (log entry 5). -/
def readCell : Cells → Nat → Byte
  | [], _ => 0#8
  | (p, v) :: rest, a => if p = a then v else readCell rest a

/-- List the byte `v` at `a`, in its place. -/
def insertCell (a : Nat) (v : Byte) : Cells → Cells
  | [] => [(a, v)]
  | (p, w) :: rest =>
    if a < p then (a, v) :: (p, w) :: rest else if a = p then (a, v) :: rest else (p, w) :: insertCell a v rest

/-- Write `v` at `a`; a 0x00 is not listed. -/
def writeCell (m : Cells) (a : Nat) (v : Byte) : Cells :=
  if v = 0#8 then m.filter (fun c => c.1 ≠ a) else insertCell a v m

/-- The addresses rise strictly. -/
def risingCells : List Host.Cell → Bool
  | [] => true
  | [_] => true
  | (p, _) :: (q, w) :: rest => p < q && risingCells ((q, w) :: rest)

/-- The canonical form of a list of cells over `size` addresses. -/
def Cells.wf (size : Nat) (m : Cells) : Bool :=
  risingCells m && m.all (fun c => c.1 < size) && m.all (fun c => c.2 != 0#8)

/-- The canonical form of memory. -/
def Memory.wf (m : Cells) : Bool := Cells.wf memSize m

/-- Each byte differs from the one that holds before it. -/
def flagsChange (cur : Byte) : FlagMap → Bool
  | [] => true
  | (_, v) :: rest => v != cur && flagsChange v rest

/-- The canonical form of the flags array. -/
def FlagMap.wf (fl : FlagMap) : Bool :=
  risingCells fl && fl.all (fun c => c.1 < memSize) && flagsChange 0#8 fl

/-- The raw array byte `mem[a]`, `MemRead(a, 1)` (00_scope.md R14). -/
def memByte (s : State) (a : Nat) : Byte := readCell s.mem a

/-- `MemRead(a, 2)`, little-endian: `{mem[a+1], mem[a]}` (20_memory.md R51). -/
def memWord (s : State) (a : Nat) : BitVec 16 := memByte s (a + 1) ++ memByte s a

/-- `RawWrite8(a, v)`: a ROM byte, and a byte at or above `conv_size`, keep their value (41_memory_access.md R92). -/
def rawWrite8 (s : State) (a : Nat) (v : Byte) : State :=
  if romAt s.flags a then s
  else if s.convSize.val ≤ a then s
  else { s with mem := writeCell s.mem a v }

/-! ## Responses and faults -/

/-- The status code of a fault (60_exceptions.md R135). -/
def FaultCode.code : FaultCode → Byte
  | .outOfBounds => 0x01#8
  | .mmioUnresolvable => 0x02#8
  | .mapSize => 0x03#8
  | .mapAlign => 0x04#8
  | .mapOverlap => 0x05#8
  | .installFail => 0x06#8
  | .alreadyInstalled => 0x07#8
  | .badClock => 0x08#8
  | .illegalOpcode => 0x09#8
  | .badOperand => 0x0A#8
  | .portUnresolvable => 0x0B#8

/-- The status `FAULTED` (60_exceptions.md R135). -/
abbrev statusFaulted : Byte := 0xFF#8

/-- What a command does when the block has not faulted: its effects with the response, or the fault it raises
(00_scope.md R15). -/
abbrev CmdResult := Except FaultCode (State × Response)

/-- `raise Fault(code)`: the sticky register and the response status, and no other state (00_scope.md R14,
60_exceptions.md R136, R140). -/
def raiseFault (f : FaultCode) (s : State) : State :=
  { s with fault := f.code, response := some { status := f.code } }

/-- The end of every command: FAULTED, with nothing changed, if the block has faulted before (60_exceptions.md R136);
else the command's effects and its response, or its fault. There is no return from a fault (60_exceptions.md R141):
only power-on clears it. -/
def settle (s : State) (r : CmdResult) : State :=
  if s.fault = 0#8 then
    match r with
    | .ok (s', rsp) => { s' with response := some rsp }
    | .error f => raiseFault f s
  else { s with response := some { status := statusFaulted } }

/-- A command always ends in a next state. -/
def finish (s : State) (r : CmdResult) : Host.Outcome State Fault Refusal := .next (settle s r)

/-! ## Slots and effects -/

/-- `slot[t]` of a video tag. -/
def videoSlot (sl : Slots) (t : Tag) : Option VideoState := sl.video.get (videoIndex t)

/-- `slot[t] <- Present(v)` of a video tag. -/
def setVideoSlot (sl : Slots) (t : Tag) (v : VideoState) : Slots :=
  { sl with video := sl.video.set (videoIndex t).val (some v) (videoIndex t).isLt }

/-- `slot[t] <- Present(v)` of a video tag, in the state. -/
def setVideo (s : State) (t : Tag) (v : VideoState) : State := { s with slots := setVideoSlot s.slots t v }

/-- One effect: a pulse of the primary PIC, dropped where it is absent (10_state.md R47). -/
def applyEffect (b : Board) (sl : Slots) : Effect → Slots
  | .pulse line =>
    match sl.pic1 with
    | some p => { sl with pic1 := some ((b.pic 0x02#8).pulse p line) }
    | none => sl

/-- `ApplyEffects(eff)`, in list order (10_state.md R47). -/
def applyEffects (b : Board) (sl : Slots) (eff : List Effect) : Slots := eff.foldl (applyEffect b) sl

/-! ## Collaborator calls put together from their parts (log entry 2) -/

/-- `VIDEO.mread8(s, a, ticks)` (10_state.md R44, R45). -/
def mread8 (f : VideoFns) (v : VideoState) (a : Addr) (ticks : U64) : Byte × BitVec 32 × VideoState :=
  (f.mpeek8 v a, f.mrwait v a ticks, f.readNext8 v a ticks)

/-- `VIDEO.mwrite8(s, a, d, ticks)` (10_state.md R44, R45). -/
def mwrite8 (f : VideoFns) (v : VideoState) (a : Addr) (d : Byte) (ticks : U64) : BitVec 32 × VideoState :=
  (f.mwwait v a ticks, f.writeNext8 v a d ticks)

/-- `STORAGE.advance(s, dma, te)` (10_state.md R44, 44_scheduler.md R125). -/
def storageAdvance (f : StorageFns) (c : StorageState) (dma : Option DmaState) (te : Entry) :
    StorageState × Option DmaState × List Effect :=
  ((f.step c dma te).1, dma.map fun d => f.dmaAfter c d te, (f.step c dma te).2)

/-! ## Memory routing -/

/-- Where a memory access goes (41_memory_access.md R90). -/
inductive Target where
  | raw
  | dev (t : Tag) (v : VideoState)
deriving DecidableEq, Repr

/-- `Route(a)` (41_memory_access.md R90). -/
def route (s : State) (a : Addr) : Except FaultCode Target :=
  if mmioAt s.flags a.toNat then
    let t := s.fastmap.get (bucketOf a)
    if t = 0x00#8 then .ok .raw
    else if isVideoTag t then
      match videoSlot s.slots t with
      | some v => .ok (.dev t v)
      | none => .error .mmioUnresolvable
    else .error .mmioUnresolvable
  else .ok .raw

/-- A memory command of `n` bytes: the bounds check, then the route, then the command's part for it
(41_memory_access.md R89, R90; 20_memory.md R54). -/
def access (s : State) (a : Addr) (n : Nat) (raw : State × Response) (dev : Tag → VideoState → State × Response) :
    CmdResult :=
  if inBounds a n then
    match route s a with
    | .error f => .error f
    | .ok .raw => .ok raw
    | .ok (.dev t v) => .ok (dev t v)
  else .error .outOfBounds

end Sys2Proof.Machine
end

