-- ==== Sys2Proof/Machine/Accept.lean ====
section
/-! DEFINITION. The host's side of the command port (spec/10_state.md R21, R22; spec/30_encoding.md R66): issuing a
transfer, taking the oldest one, and rejecting an illegal opcode. -/

namespace Sys2Proof.Machine

/-- The host issues a transfer before all others it has issued. -/
def issueNext (t : Transfer) (s : State) : State := { s with pending := t :: s.pending }

/-- The block takes the oldest transfer: it, and the state without it. -/
def takeTransfer (s : State) : Option (Transfer × State) :=
  match s.pending with
  | [] => none
  | t :: rest => some (t, { s with pending := rest })

/-- An opcode outside the map faults `ILLEGAL_OPCODE`, or answers FAULTED after a fault (30_encoding.md R72,
60_exceptions.md R136, R139). -/
def rejectOpcode (s : State) : Host.Outcome State Fault Refusal := finish s (.error .illegalOpcode)

end Sys2Proof.Machine
end

