-- ==== Sys2Proof/Machine/Map.lean ====
section
/-! DEFINITION. The map and configuration family (spec/43_map_config.md): REGMAP, MAPQ, SETFLAGS, CLRFLAGS,
TESTFLAGS, INSTALL, RESET. -/

namespace Sys2Proof.Machine

/-! ## Registration -/

/-- The tag of bucket `k`. -/
def bucketTag (fm : Vector Tag 128) (k : Nat) : Tag := if h : k < 128 then fm[k] else 0x00#8

/-- `fastmap[k] <- t` for every bucket `k` with `lo <= k < hi`. -/
def setBuckets (fm : Vector Tag 128) (lo hi : Nat) (t : Tag) : Vector Tag 128 :=
  tabulate 128 fun k => if lo ≤ k ∧ k < hi then t else bucketTag fm k

/-- Some bucket `k` with `lo <= k < hi` is taken. -/
def bucketsTaken (fm : Vector Tag 128) (lo hi : Nat) : Bool :=
  (tabulateFrom (fun k => k) (hi - lo) lo).any fun k => bucketTag fm k != 0x00#8

/-- The checks of REGMAP, in the order written (43_map_config.md R106). -/
def regmapCheck (fm : Vector Tag 128) (a : Addr) (l : Len) (t : Tag) : Option FaultCode :=
  if !Tag.assigned t then some .badOperand
  else if !Len.legal l then some .badOperand
  else if l.toNat % bucketSize ≠ 0 then some .mapSize
  else if l = 0#21 ∨ a.toNat % bucketSize ≠ 0 ∨ memSize < a.toNat + l.toNat then some .mapAlign
  else if bucketsTaken fm (a.toNat / bucketSize) ((a.toNat + l.toNat) / bucketSize) then some .mapOverlap
  else none

/-- The effects of REGMAP on the three map structures (43_map_config.md R106). -/
def addRange (a : Addr) (l : Len) (t : Tag) (w : Byte) (o : Bool) (s : State) : State :=
  { s with
    fastmap := setBuckets s.fastmap (a.toNat / bucketSize) ((a.toNat + l.toNat) / bucketSize) t
    flags := mapFlags (· ||| flagMmio) a.toNat (a.toNat + l.toNat) s.flags
    maplist := s.maplist ++ [⟨a, l, w, o, t⟩] }

/-- Register a range, or the first check that fails (43_map_config.md R106). -/
def registerMap (a : Addr) (l : Len) (t : Tag) (w : Byte) (o : Bool) (s : State) : Except FaultCode State :=
  match regmapCheck s.fastmap a l t with
  | some f => .error f
  | none => .ok (addRange a l t w o s)

/-- REGMAP (43_map_config.md R106). -/
def regmap (a : Addr) (l : Len) (t : Tag) (w : Byte) (o : Bool) (s : State) : CmdResult :=
  match registerMap a l t w o s with
  | .error f => .error f
  | .ok s' => .ok (s', {})

/-- The registration covers `a` (10_state.md R35). -/
def Registration.covers (r : Registration) (a : Nat) : Bool := r.base.toNat ≤ a && a < r.base.toNat + r.size.toNat

/-- MAPQ: the first registration that covers `A`, as `{wcost, tag}` and `ro` (43_map_config.md R108). -/
def mapQuery (a : Addr) (s : State) : CmdResult :=
  match s.maplist.find? (fun r => r.covers a.toNat) with
  | some r => .ok (s, { data := r.wcost ++ r.tag, ticks := (BitVec.ofBool r.ro).setWidth 64 })
  | none => .ok (s, {})

/-! ## Flag hook -/

/-- SETFLAGS and CLRFLAGS: the checks, then `f` on every flags byte of the range (43_map_config.md R109, R110). -/
def changeFlags (f : Byte → Byte) (a : Addr) (l : Len) (s : State) : CmdResult :=
  if !Len.legal l then .error .badOperand
  else if memSize < a.toNat + l.toNat then .error .outOfBounds
  else .ok ({ s with flags := mapFlags f a.toNat (a.toNat + l.toNat) s.flags }, {})

/-- SETFLAGS (43_map_config.md R109). -/
def setFlags (a : Addr) (l : Len) (m : Byte) (s : State) : CmdResult :=
  changeFlags (· ||| (m &&& setMask)) a l s

/-- CLRFLAGS (43_map_config.md R110). -/
def clearFlags (a : Addr) (l : Len) (m : Byte) (s : State) : CmdResult :=
  changeFlags (· &&& ~~~(m &&& clearMask)) a l s

/-- TESTFLAGS (43_map_config.md R111); bits 7:6 read as 0 (10_state.md R29). -/
def testFlags (a : Addr) (s : State) : CmdResult :=
  .ok (s, { data := (flagAt s.flags a.toNat &&& flagBits).setWidth 16 })

/-! ## Installation -/

/-- The entries of an install configuration by ascending tag (43_map_config.md R113). -/
def byAscendingTag (g : List InstallEntry) : List InstallEntry :=
  (tabulateFrom (fun k => k) 256 0).filterMap fun k => g.find? fun e => e.tag.toNat == k

/-- `slot[t] <- Present(s0)` (43_map_config.md R113; 10_state.md R40). -/
def putDevice (sl : Slots) (e : InstallEntry) : Slots :=
  match e.tag.toNat with
  | 0x01 => { sl with pit := some ⟨e.init⟩ }
  | 0x02 => { sl with pic1 := some ⟨e.init⟩ }
  | 0x03 => { sl with pic2 := some ⟨e.init⟩ }
  | 0x04 => { sl with dma1 := some ⟨e.init⟩ }
  | 0x05 => { sl with dma2 := some ⟨e.init⟩ }
  | 0x06 => { sl with ppi := some ⟨e.init⟩ }
  | 0x07 => { sl with kbd := some ⟨e.init⟩ }
  | 0x08 => { sl with fdc := some ⟨e.init⟩ }
  | 0x09 => { sl with hdc := some ⟨e.init⟩ }
  | 0x0A => { sl with serial := some ⟨e.init⟩ }
  | 0x0B => { sl with mouse := some ⟨e.init⟩ }
  | _ => if isVideoTag e.tag then setVideoSlot sl e.tag ⟨e.init⟩ else sl

/-- `ports(s0)`: none for KBD and MOUSE, which have no byte I/O (10_state.md R44). -/
def portsOf (b : Board) (e : InstallEntry) : List Port :=
  match e.tag.toNat with
  | 0x01 => b.pit.io.ports ⟨e.init⟩
  | 0x02 => (b.pic e.tag).io.ports ⟨e.init⟩
  | 0x03 => (b.pic e.tag).io.ports ⟨e.init⟩
  | 0x04 => (b.dma e.tag).io.ports ⟨e.init⟩
  | 0x05 => (b.dma e.tag).io.ports ⟨e.init⟩
  | 0x06 => b.ppi.io.ports ⟨e.init⟩
  | 0x08 => (b.storage e.tag).io.ports ⟨e.init⟩
  | 0x09 => (b.storage e.tag).io.ports ⟨e.init⟩
  | 0x0A => b.serial.io.ports ⟨e.init⟩
  | _ => if isVideoTag e.tag then (b.video e.tag).io.ports ⟨e.init⟩ else []

/-- `apertures(s0)`, of video cards only (10_state.md R44). -/
def aperturesOf (b : Board) (e : InstallEntry) : List (Addr × Len) :=
  if isVideoTag e.tag then (b.video e.tag).apertures ⟨e.init⟩ else []

/-- `portmap'[p] <- t`, none where another device has the port (43_map_config.md R113). -/
def claimPort (t : Tag) (pm : Cells) (p : Port) : Option Cells :=
  if readCell pm p.toNat ≠ 0x00#8 ∧ readCell pm p.toNat ≠ t then none else some (writeCell pm p.toNat t)

/-- Claim the ports of one device, in list order. -/
def claimPorts (t : Tag) : List Port → Cells → Option Cells
  | [], pm => some pm
  | p :: ps, pm =>
    match claimPort t pm p with
    | some pm' => claimPorts t ps pm'
    | none => none

/-- Claim the ports of every device. -/
def claimAllPorts (b : Board) : List InstallEntry → Cells → Option Cells
  | [], pm => some pm
  | e :: g, pm =>
    match claimPorts e.tag (portsOf b e) pm with
    | some pm' => claimAllPorts b g pm'
    | none => none

/-- Register the apertures of one device, in list order, with `W = 0` and `O = 0`. -/
def registerApertures (t : Tag) : List (Addr × Len) → State → Option State
  | [], s => some s
  | (a, l) :: rest, s =>
    match registerMap a l t 0x00#8 false s with
    | .ok s' => registerApertures t rest s'
    | .error _ => none

/-- Register the apertures of every device. -/
def registerAllApertures (b : Board) : List InstallEntry → State → Option State
  | [], s => some s
  | e :: g, s =>
    match registerApertures e.tag (aperturesOf b e) s with
    | some s' => registerAllApertures b g s'
    | none => none

/-- The checks of an install configuration before any copy is made (43_map_config.md R113). -/
def installAccepts (b : Board) (g : List InstallEntry) : Bool :=
  g.all (fun e => Tag.assigned e.tag) && distinctTags g
    && g.all (fun e => !isVideoTag e.tag || b.videoKind (videoKindOf e.tag)) && b.supported g

/-- The work of INSTALL on copies (43_map_config.md R113): slots, ports, apertures, in this order. -/
def installDevices (b : Board) (g : List InstallEntry) (s : State) : Option State :=
  match claimAllPorts b (byAscendingTag g) s.portmap with
  | some pm =>
    registerAllApertures b (byAscendingTag g)
      { s with slots := (byAscendingTag g).foldl putDevice s.slots, portmap := pm, installed := true }
  | none => none

/-- INSTALL (43_map_config.md R113). -/
def install (b : Board) (g : List InstallEntry) (s : State) : CmdResult :=
  if s.installed then .error .alreadyInstalled
  else if installAccepts b g then
    match installDevices b g s with
    | some s' => .ok (s', {})
    | none => .error .installFail
  else .error .installFail

/-! ## Reset -/

/-- `mem` after RESET: a byte with neither ROM nor MMIO set becomes 0x00 (43_map_config.md R115). -/
def clearRam (fl : FlagMap) (m : Cells) : Cells := m.filter fun c => romAt fl c.1 || mmioAt fl c.1

/-- RESET (43_map_config.md R115). -/
def busReset (s : State) : CmdResult :=
  .ok ({ s with
    mem := clearRam s.flags s.mem
    flags := mapFlags (· &&& resetKeepMask) 0 memSize s.flags
    kbAcc := Binary64.zero
    phaseAdj := 0#64
    refresh := .idle
    refReload := 0#16
    vidAcc := tabulate 128 fun _ => 0#64 }, {})

/-! ## The instructions -/

def execRegmap (a : Addr) (l : Len) (t : Tag) (w : Byte) (o : Bool) (s : State) : Host.Outcome State Fault Refusal :=
  finish s (regmap a l t w o s)

def execMapq (a : Addr) (s : State) : Host.Outcome State Fault Refusal :=
  finish s (mapQuery a s)

def execSetflags (a : Addr) (l : Len) (m : Byte) (s : State) : Host.Outcome State Fault Refusal :=
  finish s (setFlags a l m s)

def execClrflags (a : Addr) (l : Len) (m : Byte) (s : State) : Host.Outcome State Fault Refusal :=
  finish s (clearFlags a l m s)

def execTestflags (a : Addr) (s : State) : Host.Outcome State Fault Refusal :=
  finish s (testFlags a s)

def execInstall (g : List InstallEntry) (s : State) : Host.Outcome State Fault Refusal :=
  finish s (install Config.board g s)

def execReset (s : State) : Host.Outcome State Fault Refusal :=
  finish s (busReset s)

end Sys2Proof.Machine
end

