-- ==== Sys2Proof/Machine/Memory.lean ====
section
/-! DEFINITION. The memory family (spec/41_memory_access.md): RD8, RD16, WR8, WR16, PEEK8, RWAIT, WWAIT. Each
operation is written over a board, and the instruction runs it on `Config.board`. -/

namespace Sys2Proof.Machine

/-- RD8 (41_memory_access.md R93). -/
def read8 (b : Board) (a : Addr) (c : Cycles) (s : State) : CmdResult :=
  access s a 1 (s, { data := (memByte s a.toNat).setWidth 16 }) fun t v =>
    let r := mread8 (b.video t) v a (entryAt s c).ticks
    (setVideo s t r.2.2, { data := r.1.setWidth 16, wait := waitCycles s.cf r.2.1 })

/-- RD16 (41_memory_access.md R94). -/
def read16 (b : Board) (a : Addr) (c : Cycles) (s : State) : CmdResult :=
  access s a 2 (s, { data := memWord s a.toNat }) fun t v =>
    let r := (b.video t).mread16 v a (entryAt s c).ticks
    (setVideo s t r.2.2, { data := r.1, wait := waitCycles s.cf r.2.1 })

/-- WR8 (41_memory_access.md R95). -/
def write8 (b : Board) (a : Addr) (d : Byte) (c : Cycles) (s : State) : CmdResult :=
  access s a 1 (rawWrite8 s a.toNat d, {}) fun t v =>
    let r := mwrite8 (b.video t) v a d (entryAt s c).ticks
    (setVideo s t r.2, { wait := waitCycles s.cf r.1 })

/-- WR16 (41_memory_access.md R96): on the raw path each byte is checked on its own. -/
def write16 (b : Board) (a : Addr) (d : BitVec 16) (c : Cycles) (s : State) : CmdResult :=
  access s a 2
    (rawWrite8 (rawWrite8 s a.toNat (d.extractLsb' 0 8)) (a.toNat + 1) (d.extractLsb' 8 8), {}) fun t v =>
    let r := (b.video t).mwrite16 v a d (entryAt s c).ticks
    (setVideo s t r.2, { wait := waitCycles s.cf r.1 })

/-- PEEK8 (41_memory_access.md R97). -/
def peek8 (b : Board) (a : Addr) (s : State) : CmdResult :=
  access s a 1 (s, { data := (memByte s a.toNat).setWidth 16 }) fun t v =>
    (s, { data := ((b.video t).mpeek8 v a).setWidth 16 })

/-- RWAIT (41_memory_access.md R98). -/
def readWait (b : Board) (a : Addr) (c : Cycles) (s : State) : CmdResult :=
  access s a 1 (s, {}) fun t v =>
    (s, { wait := waitCycles s.cf ((b.video t).mrwait v a (entryAt s c).ticks) })

/-- WWAIT (41_memory_access.md R99). -/
def writeWait (b : Board) (a : Addr) (c : Cycles) (s : State) : CmdResult :=
  access s a 1 (s, {}) fun t v =>
    (s, { wait := waitCycles s.cf ((b.video t).mwwait v a (entryAt s c).ticks) })

def execRd8 (a : Addr) (c : Cycles) (s : State) : Host.Outcome State Fault Refusal :=
  finish s (read8 Config.board a c s)

def execRd16 (a : Addr) (c : Cycles) (s : State) : Host.Outcome State Fault Refusal :=
  finish s (read16 Config.board a c s)

def execWr8 (a : Addr) (d : Byte) (c : Cycles) (s : State) : Host.Outcome State Fault Refusal :=
  finish s (write8 Config.board a d c s)

def execWr16 (a : Addr) (d : BitVec 16) (c : Cycles) (s : State) : Host.Outcome State Fault Refusal :=
  finish s (write16 Config.board a d c s)

def execPeek8 (a : Addr) (s : State) : Host.Outcome State Fault Refusal :=
  finish s (peek8 Config.board a s)

def execRwait (a : Addr) (c : Cycles) (s : State) : Host.Outcome State Fault Refusal :=
  finish s (readWait Config.board a c s)

def execWwait (a : Addr) (c : Cycles) (s : State) : Host.Outcome State Fault Refusal :=
  finish s (writeWait Config.board a c s)

end Sys2Proof.Machine
end

