-- ==== Sys2Proof/Machine/Port.lean ====
section
/-! DEFINITION. The port family (spec/42_port_io.md): IORD8 and IOWR8. -/

namespace Sys2Proof.Machine

/-- A byte-I/O call to the device in `slot`, with `put` writing its next state back to the slot. None where the slot
is absent. -/
def callSlot {σ α : Type} (slot : Option σ) (call : σ → α × σ) (put : σ → Slots) : Option (α × Slots) :=
  slot.map fun d => ((call d).1, put (call d).2)

/-- `class(t).io_read(slot[t], P, te)` with the slot written back; none where no live device with byte I/O has the
tag: KBD and MOUSE have no byte I/O (42_port_io.md R101, R103; 10_state.md R44). -/
def portRead (b : Board) (sl : Slots) (t : Tag) (p : Port) (te : Entry) : Option (Byte × Slots) :=
  match t.toNat with
  | 0x01 => callSlot sl.pit (fun d => b.pit.io.read d p te) fun d => { sl with pit := some d }
  | 0x02 => callSlot sl.pic1 (fun d => (b.pic t).io.read d p te) fun d => { sl with pic1 := some d }
  | 0x03 => callSlot sl.pic2 (fun d => (b.pic t).io.read d p te) fun d => { sl with pic2 := some d }
  | 0x04 => callSlot sl.dma1 (fun d => (b.dma t).io.read d p te) fun d => { sl with dma1 := some d }
  | 0x05 => callSlot sl.dma2 (fun d => (b.dma t).io.read d p te) fun d => { sl with dma2 := some d }
  | 0x06 => callSlot sl.ppi (fun d => b.ppi.io.read d p te) fun d => { sl with ppi := some d }
  | 0x08 => callSlot sl.fdc (fun d => (b.storage t).io.read d p te) fun d => { sl with fdc := some d }
  | 0x09 => callSlot sl.hdc (fun d => (b.storage t).io.read d p te) fun d => { sl with hdc := some d }
  | 0x0A => callSlot sl.serial (fun d => b.serial.io.read d p te) fun d => { sl with serial := some d }
  | _ =>
    if isVideoTag t then
      callSlot (videoSlot sl t) (fun d => (b.video t).io.read d p te) fun d => setVideoSlot sl t d
    else none

/-- The answer of `io_write`, its effects first. -/
def writeCall {σ : Type} (io : ByteIo σ) (p : Port) (v : Byte) (te : Entry) (d : σ) : List Effect × σ :=
  ((io.write d p v te).2, (io.write d p v te).1)

/-- `class(t).io_write(slot[t], P, v, te)` with the slot written back, and its effects; none as in `portRead`
(42_port_io.md R101, R102, R104). -/
def portWrite (b : Board) (sl : Slots) (t : Tag) (p : Port) (v : Byte) (te : Entry) : Option (List Effect × Slots) :=
  match t.toNat with
  | 0x01 => callSlot sl.pit (writeCall b.pit.io p v te) fun d => { sl with pit := some d }
  | 0x02 => callSlot sl.pic1 (writeCall (b.pic t).io p v te) fun d => { sl with pic1 := some d }
  | 0x03 => callSlot sl.pic2 (writeCall (b.pic t).io p v te) fun d => { sl with pic2 := some d }
  | 0x04 => callSlot sl.dma1 (writeCall (b.dma t).io p v te) fun d => { sl with dma1 := some d }
  | 0x05 => callSlot sl.dma2 (writeCall (b.dma t).io p v te) fun d => { sl with dma2 := some d }
  | 0x06 => callSlot sl.ppi (writeCall b.ppi.io p v te) fun d => { sl with ppi := some d }
  | 0x08 => callSlot sl.fdc (writeCall (b.storage t).io p v te) fun d => { sl with fdc := some d }
  | 0x09 => callSlot sl.hdc (writeCall (b.storage t).io p v te) fun d => { sl with hdc := some d }
  | 0x0A => callSlot sl.serial (writeCall b.serial.io p v te) fun d => { sl with serial := some d }
  | _ =>
    if isVideoTag t then
      callSlot (videoSlot sl t) (writeCall (b.video t).io p v te) fun d => setVideoSlot sl t d
    else none

/-- `portmap[p]` (10_state.md R37). -/
def portTag (s : State) (p : Port) : Tag := readCell s.portmap p.toNat

/-- IORD8 (42_port_io.md R103). -/
def ioRead8 (b : Board) (p : Port) (c : Cycles) (s : State) : CmdResult :=
  if portTag s p = 0x00#8 then .ok (s, { data := openBus.setWidth 16 })
  else
    match portRead b s.slots (portTag s p) p (entryAt s c) with
    | some (v, sl) => .ok ({ s with slots := sl }, { data := v.setWidth 16 })
    | none => .error .portUnresolvable

/-- IOWR8 (42_port_io.md R104): the effects apply after the device is back in its slot. -/
def ioWrite8 (b : Board) (p : Port) (d : Byte) (c : Cycles) (s : State) : CmdResult :=
  if portTag s p = 0x00#8 then .ok (s, {})
  else
    match portWrite b s.slots (portTag s p) p d (entryAt s c) with
    | some (eff, sl) => .ok ({ s with slots := applyEffects b sl eff }, {})
    | none => .error .portUnresolvable

def execIord8 (p : Port) (c : Cycles) (s : State) : Host.Outcome State Fault Refusal :=
  finish s (ioRead8 Config.board p c s)

def execIowr8 (p : Port) (d : Byte) (c : Cycles) (s : State) : Host.Outcome State Fault Refusal :=
  finish s (ioWrite8 Config.board p d c s)

end Sys2Proof.Machine
end

