-- ==== Sys2Proof/Machine/Scheduler.lean ====
section
/-! DEFINITION. The scheduler family (spec/44_scheduler.md): RUN, its eight steps in their fixed order (R130), and
PHASE. -/

namespace Sys2Proof.Machine

/-- The checks of RUN, before any step (44_scheduler.md R116). -/
def runCheck (b : Board) (u : F64) (q : U64) (s : State) : Option FaultCode :=
  if !elapsedOk u then some .badOperand
  else if s.slots.pit.isSome && !b.pitHasCrystal && ticksOverflow q s.phaseAdj then some .badOperand
  else if videoTags.any fun t =>
      (videoSlot s.slots t).isSome && b.videoUnit (videoKindOf t) == .ticks
        && ticksOverflow (s.vidAcc.get (videoIndex t)) q then some .badOperand
  else none

/-! ## Step 1: keyboard, scancode latch, IRQ1 pulse -/

/-- The scancode latch: the PPI latches, and pulses line 1 if it reports keyboard interrupts enabled; with no PPI
the scancode is discarded (44_scheduler.md R118). -/
def scancodeLatch (b : Board) (sl : Slots) (x : Byte) : Slots :=
  match sl.ppi with
  | none => sl
  | some p =>
    let r := b.ppi.latch p x
    let sl' := { sl with ppi := some r.1 }
    if r.2 then applyEffects b sl' [.pulse 1] else sl'

/-- What step 1 makes of a keyboard state and the accumulator (44_scheduler.md R117). -/
structure KeyboardSlice where
  kbd : KbdState
  acc : F64
  scancodes : List Byte
  overflow : Bool
deriving DecidableEq, Repr

/-- The event, then at most one tick; the threshold is subtracted (44_scheduler.md R117). -/
def keyboardSlice (b : Board) (u : F64) (e : Option KeyEvent) (k : KbdState) (acc : F64) : KeyboardSlice :=
  let applied : KbdState × Option Byte :=
    match e with
    | some ev => b.kbd.apply k ev
    | none => (k, none)
  let acc' := Binary64.add acc u
  if Binary64.ge acc' b.kbUpdateUs.us then
    let ticked := b.kbd.tick applied.1
    { kbd := ticked.1
      acc := Binary64.sub acc' b.kbUpdateUs.us
      scancodes := applied.2.toList ++ ticked.2.1.toList
      overflow := ticked.2.2 }
  else { kbd := applied.1, acc := acc', scancodes := applied.2.toList, overflow := false }

/-- Step 1: the state after it, and the overflow flag (44_scheduler.md R117). -/
def stepKeyboard (b : Board) (u : F64) (e : Option KeyEvent) (s : State) : State × Bool :=
  match s.slots.kbd with
  | none => (s, false)
  | some k =>
    let r := keyboardSlice b u e k s.kbAcc
    ({ s with
      kbAcc := r.acc
      slots := r.scancodes.foldl (scancodeLatch b) { s.slots with kbd := some r.kbd } }, r.overflow)

/-! ## Steps 2 to 5: PIC, PPI, timer, refresh FSM -/

/-- Step 2 (44_scheduler.md R119). -/
def stepPic (b : Board) (q : U64) (s : State) : State :=
  match s.slots.pic1 with
  | some p => { s with slots := { s.slots with pic1 := some ((b.pic 0x02#8).advance p q) } }
  | none => s

/-- Step 3: the state after it, and the turbo request (44_scheduler.md R120). -/
def stepPpi (b : Board) (u : F64) (s : State) : State × Option Bool :=
  match s.slots.ppi with
  | some p =>
    let r := b.ppi.advance p s.slots.pic1 u
    ({ s with slots := { s.slots with ppi := some r.1 } }, r.2)
  | none => (s, none)

/-- The timer's advance: by microseconds with a crystal of its own, else by ticks with the phase adjustment
(44_scheduler.md R121). -/
def timerAdvance (b : Board) (u : F64) (q phase : U64) (p : PitState) : PitState × List Effect :=
  if b.pitHasCrystal then b.pit.advanceUs p u else b.pit.advanceTicks p (q + phase)

/-- Step 4: the phase adjustment is consumed by a tick-driven advance only (44_scheduler.md R121). -/
def stepTimer (b : Board) (u : F64) (q : U64) (s : State) : State :=
  match s.slots.pit with
  | some p =>
    let r := timerAdvance b u q s.phaseAdj p
    { s with
      slots := applyEffects b { s.slots with pit := some r.1 } r.2
      phaseAdj := if b.pitHasCrystal then s.phaseAdj else 0#64 }
  | none => s

/-- The event of the refresh FSM on an inspection (44_scheduler.md R122, R123). -/
def refreshEvent (fsm : RefreshFsm) (reload : BitVec 16) (c : Channel1) : Option Event :=
  match fsm, c.counting with
  | .idle, true => some (.dramRefreshUpdate c.reload c.elem c.carry)
  | .idle, false => none
  | .counting, true => if c.reload = reload then none else some (.dramRefreshUpdate c.reload c.elem c.carry)
  | .counting, false => some (.dramRefreshEnable false)

/-- The state of the refresh FSM after an inspection (44_scheduler.md R122, R123). -/
def refreshNext (c : Channel1) : RefreshFsm := if c.counting then .counting else .idle

/-- Step 5: the state after it, and the refresh event (44_scheduler.md R122). -/
def stepRefresh (b : Board) (s : State) : State × Option Event :=
  match s.slots.pit with
  | some p =>
    let c := b.pit.ch1 p
    ({ s with refresh := refreshNext c, refReload := c.reload }, refreshEvent s.refresh s.refReload c)
  | none => (s, none)

/-! ## Steps 6 to 8: storage and DMA, serial and mouse, video -/

/-- One storage controller with the DMA state lent to it: what comes back of the two, and its effects
(44_scheduler.md R125). An absent controller changes nothing. -/
def storageSlice (b : Board) (t : Tag) (c : Option StorageState) (d : Option DmaState) (te : Entry) :
    Option StorageState × Option DmaState × List Effect :=
  match c with
  | some x =>
    let r := storageAdvance (b.storage t) x d te
    (some r.1, r.2.1, r.2.2)
  | none => (none, d, [])

/-- Step 6: FDC, then HDC, each with the primary DMA controller lent to it, then DMA last (44_scheduler.md R125). -/
def stepStorage (b : Board) (u : F64) (q : U64) (s : State) : State :=
  let te : Entry := ⟨q, u⟩
  let f := storageSlice b 0x08#8 s.slots.fdc s.slots.dma1 te
  let sl1 := applyEffects b { s.slots with fdc := f.1 } f.2.2
  let h := storageSlice b 0x09#8 sl1.hdc f.2.1 te
  let sl2 := applyEffects b { sl1 with hdc := h.1 } h.2.2
  { s with slots := { sl2 with dma1 := h.2.1.map fun x => (b.dma 0x04#8).advance x te } }

/-- Step 7: the serial controller, then the mouse where both are present (44_scheduler.md R126). -/
def stepSerial (b : Board) (u : F64) (s : State) : State :=
  match s.slots.serial with
  | some c =>
    let r := b.serial.advance c u
    let sl := applyEffects b { s.slots with serial := some r.1 } r.2
    match s.slots.mouse with
    | some m =>
      let mr := b.mouse.advance m r.1 u
      { s with slots := { sl with mouse := some mr.1, serial := some mr.2 } }
    | none => { s with slots := sl }
  | none => s

/-- One video adapter: by microseconds, or by accumulated ticks once they reach the kind's minimum
(44_scheduler.md R127). Its PIC view is the primary PIC as every earlier step and every card of a lower tag left it
(R130), where R120 defines the term for the PPI as the PIC after step 2: the model's choice (DEDUCED, log entry 16). -/
def stepVideoCard (b : Board) (u : F64) (q : U64) (s : State) (t : Tag) : State :=
  match videoSlot s.slots t with
  | none => s
  | some v =>
    let i := videoIndex t
    match b.videoUnit (videoKindOf t) with
    | .us =>
      let r := (b.video t).vadvanceUs v u s.slots.pic1
      { s with slots := applyEffects b (setVideoSlot s.slots t r.1) r.2 }
    | .ticks =>
      let acc := s.vidAcc.get i + q
      if b.videoTickMin (videoKindOf t) ≤ acc then
        let r := (b.video t).vadvanceTicks v acc s.slots.pic1
        { s with
          slots := applyEffects b (setVideoSlot s.slots t r.1) r.2
          vidAcc := s.vidAcc.set i.val 0#64 i.isLt }
      else { s with vidAcc := s.vidAcc.set i.val acc i.isLt }

/-- Step 8: the video adapters by ascending tag (44_scheduler.md R127). -/
def stepVideo (b : Board) (u : F64) (q : U64) (s : State) : State :=
  videoTags.foldl (stepVideoCard b u q) s

/-! ## The slice -/

/-- The event latch: one event, a refresh event before a turbo toggle (44_scheduler.md R128). -/
def eventLatch (refresh : Option Event) (turbo : Option Bool) : Option Event :=
  match refresh, turbo with
  | some e, _ => some e
  | none, some on => some (.turboToggle on)
  | none, none => none

/-- The eight steps of RUN in their fixed order, and the response (44_scheduler.md R116, R130). -/
def runSlice (b : Board) (u : F64) (q : U64) (e : Option KeyEvent) (s : State) : State × Response :=
  let k := stepKeyboard b u e s
  let p := stepPpi b u (stepPic b q k.1)
  let r := stepRefresh b (stepTimer b u q p.1)
  let s' := stepVideo b u q (stepSerial b u (stepStorage b u q r.1))
  (s', { data := (BitVec.ofBool k.2).setWidth 16, event := eventLatch r.2 p.2 })

/-- RUN (44_scheduler.md R116). -/
def runDevices (b : Board) (u : F64) (q : U64) (e : Option KeyEvent) (s : State) : CmdResult :=
  match runCheck b u q s with
  | some f => .error f
  | none => .ok (runSlice b u q e s)

/-- PHASE (44_scheduler.md R134). -/
def setPhase (q : U64) (s : State) : CmdResult := .ok ({ s with phaseAdj := q }, {})

def execRun (u : F64) (q : U64) (e : Option KeyEvent) (s : State) : Host.Outcome State Fault Refusal :=
  finish s (runDevices Config.board u q e s)

def execPhase (q : U64) (s : State) : Host.Outcome State Fault Refusal :=
  finish s (setPhase q s)

end Sys2Proof.Machine
end

