-- ==== Sys2Proof/Machine/Timing.lean ====
section
/-! DEFINITION. The timing family (spec/40_timing.md): REBUILD and LOOKUP. -/

namespace Sys2Proof.Machine

/-- REBUILD (40_timing.md R85, R86). -/
def rebuild (k : ClockKind) (n : BitVec 32) (x : F64) (s : State) : CmdResult :=
  let cf : ClockFactor := ⟨k, n⟩
  if clockOk cf x then .ok ({ s with cf := cf, crystal := x, table := buildTable cf x }, {})
  else .error .badClock

def execRebuild (k : ClockKind) (n : BitVec 32) (x : F64) (s : State) : Host.Outcome State Fault Refusal :=
  finish s (rebuild k n x s)

/-- LOOKUP (40_timing.md R87). -/
def execLookup (c : Cycles) (s : State) : Host.Outcome State Fault Refusal :=
  finish s (.ok (s, { ticks := (entryAt s c).ticks, us := (entryAt s c).us }))

end Sys2Proof.Machine
end

