-- ==== Sys2Proof/Machine/Dispatch.lean ====
section
/-! DEFINITION. One arm for each command of spec/30_encoding.md R70. -/

namespace Sys2Proof.Machine

def exec (i : Instr) (s : State) : Host.Outcome State Fault Refusal :=
  match i with
  -- timing (spec/40_timing.md)
  | .rebuild k n x => Sys2Proof.Machine.execRebuild k n x s
  | .lookup c => Sys2Proof.Machine.execLookup c s
  -- memory (spec/41_memory_access.md)
  | .rd8 a c => Sys2Proof.Machine.execRd8 a c s
  | .rd16 a c => Sys2Proof.Machine.execRd16 a c s
  | .wr8 a d c => Sys2Proof.Machine.execWr8 a d c s
  | .wr16 a d c => Sys2Proof.Machine.execWr16 a d c s
  | .peek8 a => Sys2Proof.Machine.execPeek8 a s
  | .rwait a c => Sys2Proof.Machine.execRwait a c s
  | .wwait a c => Sys2Proof.Machine.execWwait a c s
  -- port (spec/42_port_io.md)
  | .iord8 p c => Sys2Proof.Machine.execIord8 p c s
  | .iowr8 p d c => Sys2Proof.Machine.execIowr8 p d c s
  -- map and configuration (spec/43_map_config.md)
  | .regmap a l t w o => Sys2Proof.Machine.execRegmap a l t w o s
  | .mapq a => Sys2Proof.Machine.execMapq a s
  | .setflags a l m => Sys2Proof.Machine.execSetflags a l m s
  | .clrflags a l m => Sys2Proof.Machine.execClrflags a l m s
  | .testflags a => Sys2Proof.Machine.execTestflags a s
  | .install g => Sys2Proof.Machine.execInstall g s
  | .reset => Sys2Proof.Machine.execReset s
  -- scheduler (spec/44_scheduler.md)
  | .run u q e => Sys2Proof.Machine.execRun u q e s
  | .phase q => Sys2Proof.Machine.execPhase q s

end Sys2Proof.Machine
end

