-- ==== Sys2Proof/Machine/Step.lean ====
section
/-! DEFINITION. One step of the block: it takes the oldest command the host has issued, decodes it and runs it to its
end (spec/10_state.md R21, R22). -/

namespace Sys2Proof.Machine

/-- One command. With none pending the block does nothing (60_exceptions.md R152). -/
def step (s : State) : Host.Outcome State Fault Refusal :=
  match takeTransfer s with
  | none => .next s
  | some (t, s') =>
    match decode t with
    | .ok i => exec i s'
    | .error _ => rejectOpcode s'

/-- `s` with the command of a table word issued as the next one; the operand buses are 0 (log entries 6, 10). -/
def State.withFetchWord (s : State) (_nbits w : Nat) : State := issueNext (tableTransfer w) s

end Sys2Proof.Machine
end

