-- ==== Sys2Proof/Safety.lean ====
section
/-! DEFINITION. What claims about runs are stated in: a block that has not faulted, a command that completes or
faults, and the invariant of the block. -/

namespace Sys2Proof

/-- The command does not name the byte at `a` as one it stores to, and is not RESET. -/
def Instr.SparesByte (a : Addr) : Instr → Prop
  | .wr8 b _ _ => b ≠ a
  | .wr16 b _ _ => b ≠ a ∧ b.toNat + 1 ≠ a.toNat
  | .reset => False
  | _ => True

/-- Two transfers carry the same operand on a bus. Of bus `D` only WR16 uses the high byte, and of bus `E` the event
counts only where the valid bit is set (30_encoding.md R67). -/
def Transfer.Agrees (x y : Transfer) : Bus → Prop
  | .a => x.a = y.a
  | .p => x.p = y.p
  | .d => lowByte x.d = lowByte y.d ∧ (x.op = 0x13#8 → x.d = y.d)
  | .c => x.c = y.c
  | .l => x.l = y.l
  | .m => x.m = y.m
  | .t => x.t = y.t
  | .w => x.w = y.w
  | .o => x.o = y.o
  | .k => x.k = y.k
  | .n => x.n = y.n
  | .x => x.x = y.x
  | .u => x.u = y.u
  | .q => x.q = y.q
  | .e => eventOfBus x.eValid x.eEv = eventOfBus y.eValid y.eEv
  | .g => x.g = y.g

end Sys2Proof

namespace Sys2Proof.Machine

/-- The command completed with the response `r`. -/
def State.respondWith (s : State) (r : Response) : State := { s with response := some r }

/-- The command raised the fault of code `c`: the sticky register and the response hold it, and nothing else has
changed (60_exceptions.md R136, R137). -/
def State.faultedWith (s : State) (c : Byte) : State := { s with fault := c, response := some { status := c } }

/-- The commands in order, each on the state the one before it left (10_state.md R22). -/
def execAll : List Instr → State → Host.Outcome State Fault Refusal
  | [], s => .next s
  | i :: is, s =>
    match exec i s with
    | .next t => execAll is t
    | .fault f => .fault f
    | .refused r => .refused r

/-- A raw-path write of the byte at `a` takes effect: neither ROM nor at or above `conv_size` (41_memory_access.md
R92). -/
def State.Writable (s : State) (a : Nat) : Prop := flagAt s.flags a &&& 0x01#8 = 0#8 ∧ a < s.convSize.val

/-! ## Devices -/

/-- The state in `slot[t]` as its numbers; none for an absent device and for a tag that names none (10_state.md R39,
R40). -/
def Slots.codeAt (sl : Slots) (t : Tag) : Option (List Nat) :=
  match t.toNat with
  | 0x01 => sl.pit.map (·.code)
  | 0x02 => sl.pic1.map (·.code)
  | 0x03 => sl.pic2.map (·.code)
  | 0x04 => sl.dma1.map (·.code)
  | 0x05 => sl.dma2.map (·.code)
  | 0x06 => sl.ppi.map (·.code)
  | 0x07 => sl.kbd.map (·.code)
  | 0x08 => sl.fdc.map (·.code)
  | 0x09 => sl.hdc.map (·.code)
  | 0x0A => sl.serial.map (·.code)
  | 0x0B => sl.mouse.map (·.code)
  | _ => if isVideoTag t then (videoSlot sl t).map (·.code) else none

/-- `u` is `s` with the state `v` in the slot of the video card `t`, and with the response `r`: no other card, and
nothing else, differs. -/
def State.CardReplaced (s : State) (t : Tag) (v : VideoState) (r : Response) (u : State) : Prop :=
  u = { s with slots := { s.slots with video := u.slots.video }, response := some r } ∧
    videoSlot u.slots t = some v ∧
    ∀ t' : Tag, 0x80 ≤ t'.toNat → t' ≠ t → videoSlot u.slots t' = videoSlot s.slots t'

/-- An aperture of an installed card with the card's tag, as `(tag, base, size)`. -/
abbrev Aperture := Tag × Addr × Len

/-- The apertures that INSTALL registers, in its order: the cards by ascending tag, each card's in list order
(43_map_config.md R113). -/
def aperturesInOrder (b : Board) (g : List InstallEntry) : List Aperture :=
  (byAscendingTag g).flatMap fun e => (aperturesOf b e).map fun x => (e.tag, x.1, x.2)

/-- The aperture covers the address. -/
def Aperture.Covers (x : Aperture) (a : Nat) : Prop := x.2.1.toNat ≤ a ∧ a < x.2.1.toNat + x.2.2.toNat

/-- The aperture is a whole number of buckets, not none, on a bucket boundary and within the space, and every bucket
of it is free (43_map_config.md R106). -/
def State.Admits (s : State) (x : Aperture) : Prop :=
  x.2.2.toNat % 0x2000 = 0 ∧ x.2.2 ≠ 0#21 ∧ x.2.1.toNat % 0x2000 = 0 ∧ x.2.1.toNat + x.2.2.toNat ≤ 0x100000 ∧
    ∀ k : Fin 128, x.2.1.toNat / 0x2000 ≤ k.val → k.val < (x.2.1.toNat + x.2.2.toNat) / 0x2000 → s.fastmap.get k = 0x00#8

/-- INSTALL raises no `INSTALL_FAIL` for `g` (43_map_config.md R113). -/
def State.InstallAdmits (s : State) (b : Board) (g : List InstallEntry) : Prop :=
  (∀ e ∈ g, ¬(e.tag = 0x00#8 ∨ (0x0C ≤ e.tag.toNat ∧ e.tag.toNat ≤ 0x7F))) ∧
    g.Pairwise (fun e e' => e.tag ≠ e'.tag) ∧
    (∀ e ∈ g, 0x80 ≤ e.tag.toNat → b.videoKind (e.tag.extractLsb' 4 3) = true) ∧
    b.supported g = true ∧
    (∀ e ∈ g, ∀ e' ∈ g, ∀ p, p ∈ portsOf b e → p ∈ portsOf b e' → e.tag = e'.tag) ∧
    (∀ x ∈ aperturesInOrder b g, s.Admits x) ∧
    (aperturesInOrder b g).Pairwise fun x y => ∀ a, ¬(x.Covers a ∧ y.Covers a)

/-! ## A slice, as the rules of 44_scheduler.md say it -/

/-- RUN faults on no check (44_scheduler.md R116). -/
def State.RunAccepted (s : State) (u : F64) (q : U64) : Prop :=
  Binary64.isNaN u = false ∧ Binary64.isInf u = false ∧ Binary64.gt Binary64.zero u = false ∧
    (s.slots.pit ≠ none → Config.board.pitHasCrystal = false → q.toNat + s.phaseAdj.toNat < 2 ^ 64) ∧
    ∀ t : Tag, 0x80 ≤ t.toNat → videoSlot s.slots t ≠ none → Config.board.videoUnit (t.extractLsb' 4 3) = .ticks →
      (s.vidAcc.get (videoIndex t)).toNat + q.toNat < 2 ^ 64

/-- Step 1's keyboard after the key event, and the scancode of the event (R117). -/
def keyApplied (b : Board) (e : Option KeyEvent) (k : KbdState) : KbdState × Option Byte :=
  match e with
  | some ev => b.kbd.apply k ev
  | none => (k, none)

/-- Step 1's accumulator has crossed the threshold (R117). -/
def keyTicks (b : Board) (u : F64) (acc : F64) : Bool := Binary64.ge (Binary64.add acc u) b.kbUpdateUs.us

/-- The scancodes of a slice: the event's, then the tick's (R117). -/
def scancodesOf (b : Board) (u : F64) (e : Option KeyEvent) (s : State) : List Byte :=
  match s.slots.kbd with
  | none => []
  | some k =>
    (keyApplied b e k).2.toList ++
      if keyTicks b u s.kbAcc then (b.kbd.tick (keyApplied b e k).1).2.1.toList else []

/-- The PPI after it has latched scancodes (R118). -/
def latchAll (b : Board) : List Byte → PpiState → PpiState
  | [], p => p
  | x :: xs, p => latchAll b xs (b.ppi.latch p x).1

/-- The pulses those latches ask for: line 1, once for each scancode latched with keyboard interrupts enabled
(R118). -/
def latchPulses (b : Board) : List Byte → PpiState → List Effect
  | [], _ => []
  | x :: xs, p => (if (b.ppi.latch p x).2 then [.pulse 1] else []) ++ latchPulses b xs (b.ppi.latch p x).1

/-- Pulses of the primary PIC in order, dropped where it is absent (10_state.md R47). -/
def pulseAll (b : Board) (es : List Effect) (c : Option PicState) : Option PicState :=
  c.map fun p => es.foldl (fun p e => match e with | .pulse l => (b.pic 0x02#8).pulse p l) p

/-- The primary PIC after step 2: step 1's pulses, then the advance (R118, R119). -/
def picAfterStep2 (b : Board) (u : F64) (q : U64) (e : Option KeyEvent) (s : State) : Option PicState :=
  let pulses := match s.slots.ppi with
    | some p => latchPulses b (scancodesOf b u e s) p
    | none => []
  (pulseAll b pulses s.slots.pic1).map fun c => (b.pic 0x02#8).advance c q

/-- Step 3's call of the PPI, on the PPI that has latched (R120). -/
def ppiAdvanced (b : Board) (u : F64) (q : U64) (e : Option KeyEvent) (s : State) (p : PpiState) :
    PpiState × Option Bool :=
  b.ppi.advance (latchAll b (scancodesOf b u e s) p) (picAfterStep2 b u q e s) u

/-- The turbo request of step 3 (R120). -/
def turboOf (b : Board) (u : F64) (q : U64) (e : Option KeyEvent) (s : State) : Option Bool :=
  match s.slots.ppi with
  | some p => (ppiAdvanced b u q e s p).2
  | none => none

/-- Step 4's call of the timer (R121). -/
def pitAdvanced (b : Board) (u : F64) (q : U64) (s : State) (d : PitState) : PitState × List Effect :=
  if b.pitHasCrystal then b.pit.advanceUs d u else b.pit.advanceTicks d (q + s.phaseAdj)

/-- The call of a storage controller with the DMA state lent to it, none where it is absent: its next state, the DMA
state handed back, its effects (R125). -/
def storageCall (b : Board) (t : Tag) (c : Option StorageState) (d : Option DmaState) (te : Entry) :
    Option StorageState × Option DmaState × List Effect :=
  match c with
  | none => (none, d, [])
  | some x => (some (storageAdvance (b.storage t) x d te).1, (storageAdvance (b.storage t) x d te).2)

/-- Step 6's call of the FDC (R125). -/
def fdcCall (b : Board) (u : F64) (q : U64) (s : State) : Option StorageState × Option DmaState × List Effect :=
  storageCall b 0x08#8 s.slots.fdc s.slots.dma1 ⟨q, u⟩

/-- Step 6's call of the HDC, with the DMA state the FDC handed back (R125). -/
def hdcCall (b : Board) (u : F64) (q : U64) (s : State) : Option StorageState × Option DmaState × List Effect :=
  storageCall b 0x09#8 s.slots.hdc (fdcCall b u q s).2.1 ⟨q, u⟩

/-- The primary PIC before step 8: after step 2, the pulses of the timer, the FDC, the HDC and the serial controller,
in this order (R121, R125, R126, R130). -/
def picBeforeVideo (b : Board) (u : F64) (q : U64) (e : Option KeyEvent) (s : State) : Option PicState :=
  let timer := match s.slots.pit with
    | some d => (pitAdvanced b u q s d).2
    | none => []
  let serial := match s.slots.serial with
    | some c => (b.serial.advance c u).2
    | none => []
  pulseAll b (timer ++ (fdcCall b u q s).2.2 ++ (hdcCall b u q s).2.2 ++ serial) (picAfterStep2 b u q e s)

/-- The call of a video card, where it is called: by microseconds, or with the accumulated ticks once they reach the
kind's minimum (R127). -/
def cardCall (b : Board) (u : F64) (q : U64) (s : State) (t : Tag) (v : VideoState) (c : Option PicState) :
    Option (VideoState × List Effect) :=
  match b.videoUnit (t.extractLsb' 4 3) with
  | .us => some ((b.video t).vadvanceUs v u c)
  | .ticks =>
    let acc := s.vidAcc.get (videoIndex t) + q
    if b.videoTickMin (t.extractLsb' 4 3) ≤ acc then some ((b.video t).vadvanceTicks v acc c) else none

/-- What the card `t` makes of the primary PIC in step 8 (R127). -/
def cardPulses (b : Board) (u : F64) (q : U64) (s : State) (c : Option PicState) (t : Tag) : Option PicState :=
  match videoSlot s.slots t with
  | none => c
  | some v =>
    match cardCall b u q s t v c with
    | none => c
    | some r => pulseAll b r.2 c

/-- The primary PIC when step 8 comes to the card `t`: the cards with lower tags have had their turn (R127,
R130; log entry 16). -/
def picBeforeCard (b : Board) (u : F64) (q : U64) (e : Option KeyEvent) (s : State) (t : Tag) : Option PicState :=
  (videoTags.takeWhile (· ≠ t)).foldl (cardPulses b u q s) (picBeforeVideo b u q e s)

/-- A live device with byte I/O has the tag `t`: not KBD (0x07), not MOUSE (0x0B) (10_state.md R44, R114). -/
def Slots.PortLive (sl : Slots) (t : Tag) : Prop :=
  match t.toNat with
  | 0x01 => sl.pit ≠ none
  | 0x02 => sl.pic1 ≠ none
  | 0x03 => sl.pic2 ≠ none
  | 0x04 => sl.dma1 ≠ none
  | 0x05 => sl.dma2 ≠ none
  | 0x06 => sl.ppi ≠ none
  | 0x08 => sl.fdc ≠ none
  | 0x09 => sl.hdc ≠ none
  | 0x0A => sl.serial ≠ none
  | _ => isVideoTag t = true ∧ videoSlot sl t ≠ none

/-- A registration is as REGMAP admits it: an assigned tag, a base on a bucket boundary, a whole number of buckets
but not none, within the space (43_map_config.md R106). -/
def Registration.Admitted (r : Registration) : Prop :=
  Tag.assigned r.tag = true ∧ r.base.toNat % bucketSize = 0 ∧ r.size.toNat % bucketSize = 0 ∧ 0 < r.size.toNat ∧
    r.base.toNat + r.size.toNat ≤ memSize

/-- The tag of the first registration that covers `a`, 0x00 where none does (10_state.md R38). -/
def listTag (l : List Registration) (a : Nat) : Tag :=
  match l.find? (fun r => r.covers a) with
  | some r => r.tag
  | none => 0x00#8

/-- The invariant of the block, which power-on establishes and every command keeps. -/
structure State.Inv (s : State) : Prop where
  /-- Memory is in its canonical form. -/
  mem : Memory.wf s.mem = true
  /-- The flags array is in its canonical form. -/
  flags : FlagMap.wf s.flags = true
  /-- The port map is in its canonical form. -/
  portmap : Cells.wf 0x10000 s.portmap = true
  /-- Bits 7:6 of every flags byte are 0 (10_state.md R29). -/
  reserved : ∀ a, a < memSize → flagAt s.flags a &&& 0xC0#8 = 0#8
  /-- The clock factor and the crystal pass the REBUILD checks; so `n >= 1` (10_state.md R30, R31). -/
  clock : clockOk s.cf s.crystal = true
  /-- The table is the one of the clock (10_state.md R34). -/
  table : s.table = buildTable s.cf s.crystal
  /-- The MMIO bit marks exactly the addresses a registration covers (10_state.md R27). -/
  mmio : ∀ a, a < memSize → (mmioAt s.flags a = true ↔ ∃ r ∈ s.maplist, r.covers a = true)
  /-- The fast map and the list agree (10_state.md R38). -/
  fast : ∀ a, a < memSize → bucketTag s.fastmap (a / bucketSize) = listTag s.maplist a
  /-- Every registration is as REGMAP admits it (43_map_config.md R106). -/
  admitted : ∀ r ∈ s.maplist, r.Admitted
  /-- No two registrations share an address (10_state.md R38). -/
  disjoint : s.maplist.Pairwise fun r r' => ∀ a, ¬(r.covers a = true ∧ r'.covers a = true)
  /-- A port-map entry names a live device with byte I/O (43_map_config.md R114). -/
  ports : ∀ p, readCell s.portmap p ≠ 0x00#8 → s.slots.PortLive (readCell s.portmap p)
  /-- Before INSTALL no device is live and no port is mapped (10_state.md R33, R37, R39). -/
  installed : s.installed = false → s.slots = Slots.absent ∧ s.portmap = []
  /-- `fault` holds 0x00 or the code of a fault, never FAULTED (10_state.md R46). -/
  fault : s.fault.toNat ≤ 0x0B

end Sys2Proof.Machine
end

