-- ==== Sys2Proof/Certificates/Slice0/Obligations.lean ====
section
/-! DEFINITION. The statements for the provers, in the order of OBLIGATIONS.json. Each docstring says which rule of
spec/ the statement formalises. -/

open Sys2Proof Sys2Proof.Machine

/-! ## Encoding (30_encoding.md) -/

/-- Sanity: words written out from the programs of 95_test_vectors.md Part 3 and the examples of 30_encoding.md R75,
one or more of each family, decode to the commands they stand for. -/
def Obligations.WrittenOutWordsDecode : Prop :=
  decode { op := 0x01#8, k := false, n := 0x00000003#32, x := 0x402CA2E87D2C7B89#64 }
      = .ok (.rebuild .divisor 3#32 0x402CA2E87D2C7B89#64) ∧
    decode { op := 0x02#8, c := 0x004#9 } = .ok (.lookup 4#9) ∧
    decode { op := 0x13#8, a := 0x9FFFF#20, d := 0xBEEF#16, c := 0x004#9 } = .ok (.wr16 0x9FFFF#20 0xBEEF#16 4#9) ∧
    decode { op := 0x14#8, a := 0xB8003#20 } = .ok (.peek8 0xB8003#20) ∧
    decode { op := 0x21#8, p := 0x0041#16, d := 0x0012#16, c := 0x004#9 } = .ok (.iowr8 0x41#16 18#8 4#9) ∧
    decode { op := 0x30#8, a := 0xA0000#20, l := 0x002000#21, t := 0x81#8 }
      = .ok (.regmap 0xA0000#20 0x2000#21 0x81#8 0#8 false) ∧
    decode { op := 0x32#8, a := 0xF0000#20, l := 0x010000#21, m := 0x01#8 }
      = .ok (.setflags 0xF0000#20 0x10000#21 0x01#8) ∧
    decode { op := 0x40#8, u := 0x408F400000000000#64, q := 3#64, eValid := true, eEv := ⟨0x1E⟩ }
      = .ok (.run 0x408F400000000000#64 3#64 (some ⟨0x1E⟩)) ∧
    decode { op := 0x41#8, q := 2#64 } = .ok (.phase 2#64)

/-- Every command decodes from its encoding with every operand, and the encoding of what a transfer decodes to has
its opcode and carries its operand on every bus of its format (R66 to R70). -/
def Obligations.DecodeAndEncodeAgree : Prop :=
  (∀ i : Instr, decode (encode i) = .ok i) ∧
    ∀ (x : Transfer) (i : Instr), decode x = .ok i →
      (encode i).op = x.op ∧ ∀ b ∈ formatBuses x.op, x.Agrees (encode i) b

/-- A bus that the format does not list is ignored (R66): two transfers with one opcode that carry the same operands
on the buses of its format decode alike. -/
def Obligations.OnlyBusesOfTheFormatCount : Prop :=
  ∀ x y : Transfer, x.op = y.op → (∀ b ∈ formatBuses x.op, x.Agrees y b) → decode x = decode y

/-- The opcode values of R72 fault `ILLEGAL_OPCODE` and change nothing else; every other value decodes to the command
of that opcode (R70, R72). -/
def Obligations.UnassignedOpcodesFault : Prop :=
  ∀ (x : Transfer) (rest : List Transfer) (s : State), s.pending = x :: rest → s.fault = 0#8 →
    let o := x.op.toNat
    let unassigned := o = 0x00 ∨ (0x03 ≤ o ∧ o ≤ 0x0F) ∨ (0x17 ≤ o ∧ o ≤ 0x1F) ∨ (0x22 ≤ o ∧ o ≤ 0x2F) ∨
      (0x35 ≤ o ∧ o ≤ 0x37) ∨ (0x39 ≤ o ∧ o ≤ 0x3E) ∨ 0x42 ≤ o
    (unassigned → step s = .next ({ s with pending := rest }.faultedWith 0x09#8)) ∧
      (¬unassigned → ∃ i, decode x = .ok i ∧ i.opcode = x.op)

/-! ## Steps, faults and the invariant (10_state.md, 60_exceptions.md, 70_reset_and_hazards.md) -/

/-- A step runs the decoded command on the state without its transfer, and does nothing with none pending; a table
word issued by `withFetchWord` is the next command (R22, R152; log entries 6 and 10). -/
def Obligations.StepRunsTheDecodedCommand : Prop :=
  (∀ (s : State) (x : Transfer) (rest : List Transfer) (i : Instr), s.pending = x :: rest → decode x = .ok i →
      step s = exec i { s with pending := rest }) ∧
    (∀ s : State, s.pending = [] → step s = .next s) ∧
    ∀ (s : State) (nbits w : Nat) (i : Instr), decodeTableWord nbits w = some i →
      step (s.withFetchWord nbits w) = exec i s

/-- Every command answers with a next state and a response of a code of R135. It completes with status 0x00 on a block
that has not faulted and leaves `fault` at 0x00, or it changes nothing but the response and, on the first fault, the
sticky register (R15, R48, R136, R137). -/
def Obligations.CommandsCompleteOrFaultPrecisely : Prop :=
  ∀ (i : Instr) (s : State), ∃ (t : State) (r : Response), exec i s = .next t ∧ t.response = some r ∧
    t.pending = s.pending ∧ (r.status.toNat ≤ 0x0B ∨ r.status = 0xFF#8) ∧
    ((r.status = 0x00#8 ∧ s.fault = 0x00#8 ∧ t.fault = 0x00#8) ∨
      (r.status ≠ 0x00#8 ∧
        t = { s with
              fault := if s.fault = 0x00#8 then r.status else s.fault
              response := some { status := r.status } } ∧
        (r.status = 0xFF#8 ↔ s.fault ≠ 0x00#8)))

/-- Faults are sticky (R136): a command that faults, of whatever opcode, writes its code to `fault` if that was 0x00; and
from a block that has faulted, any number of steps takes one pending transfer each, of whatever opcode, answers FAULTED,
and changes nothing else. -/
def Obligations.FaultsAreSticky : Prop :=
  (∀ (s t : State) (r : Response), s.pending ≠ [] → step s = .next t → t.response = some r → r.status ≠ 0x00#8 →
      t.fault = if s.fault = 0x00#8 then r.status else s.fault) ∧
    ∀ (n : Nat) (s : State), s.fault ≠ 0x00#8 →
      Host.Core.run Sys2Proof.core n s = .next { s with
        pending := s.pending.drop n
        response := if n = 0 ∨ s.pending = [] then s.response else some { status := 0xFF#8 } }

/-- The state at power-on (R153), for every board, memory image and flags image; bits 7:6 of a flags image are not
there to load (R29). That an image with an MMIO bit set, which R24 rules out, is loaded too is the model's choice (log
entry 17). -/
def Obligations.PowerOnState : Prop :=
  ∀ (b : Board) (mem0 : Cells) (flags0 : FlagMap),
    let s := State.powerOn b mem0 flags0
    s.mem = mem0 ∧ (∀ a : Addr, flagAt s.flags a.toNat = flagAt flags0 a.toNat &&& 0x3F#8) ∧ s.convSize = b.convSize ∧ s.installed = false ∧ s.maplist = [] ∧
      (∀ k : Fin 128, s.fastmap.get k = 0x00#8) ∧ (∀ p : Port, readCell s.portmap p.toNat = 0x00#8) ∧
      (∀ t : Tag, s.slots.codeAt t = none) ∧ s.kbAcc = 0#64 ∧ s.phaseAdj = 0#64 ∧ s.refresh = .idle ∧
      s.refReload = 0#16 ∧ (∀ i : Fin 128, s.vidAcc.get i = 0#64) ∧ s.fault = 0x00#8 ∧
      s.cf = b.clock.cf ∧ s.crystal = b.clock.crystal ∧ s.table = buildTable b.clock.cf b.clock.crystal

/-- Power-on establishes the invariant, for every board, a memory image in canonical form and any flags image with the
MMIO bit clear everywhere (R24, R27, R29, R38, R153); so does `State.reset`, whose images are the model's choice (log
entry 5). Every board's clock passes the REBUILD checks, since no board is built with one that fails (R154, log entry
4). -/
def Obligations.PowerOnEstablishesInv : Prop :=
  State.reset.Inv ∧
    ∀ (b : Board) (mem0 : Cells) (flags0 : FlagMap), Memory.wf mem0 = true →
      (∀ a : Addr, flagAt flags0 a.toNat &&& 0x20#8 = 0#8) → (State.powerOn b mem0 flags0).Inv

/-- Every step keeps the invariant: the canonical forms, bits 7:6 of the flags (R29), the table of the clock (R34),
the MMIO bit and the fast map against the registered ranges (R27, R38), and live devices behind the port map (R114). -/
def Obligations.StepsKeepInv : Prop :=
  ∀ s t : State, s.Inv → step s = .next t → t.Inv

/-! ## What commands may write (10_state.md) -/

/-- Only REBUILD writes the clock factor, the crystal and the table (R30, R31, R34). -/
def Obligations.OnlyRebuildWritesTheClock : Prop :=
  ∀ (i : Instr) (s t : State), exec i s = .next t → (∀ k n x, i ≠ .rebuild k n x) →
    t.cf = s.cf ∧ t.crystal = s.crystal ∧ t.table = s.table

/-- Only INSTALL writes the port map and the `installed` bit, and it never clears that bit (R33, R37). -/
def Obligations.OnlyInstallWritesThePortMap : Prop :=
  ∀ (i : Instr) (s t : State), exec i s = .next t →
    ((∀ g, i ≠ .install g) → t.portmap = s.portmap ∧ t.installed = s.installed) ∧
      (s.installed = true → t.installed = true ∧ t.portmap = s.portmap)

/-- No command clears a ROM bit once set, and no command changes the byte of memory behind it, RESET included (R26,
R92, R115). -/
def Obligations.RomIsPermanent : Prop :=
  ∀ (i : Instr) (s t : State) (a : Addr), exec i s = .next t → flagAt s.flags a.toNat &&& 0x01#8 ≠ 0#8 →
    flagAt t.flags a.toNat &&& 0x01#8 ≠ 0#8 ∧ readCell t.mem a.toNat = readCell s.mem a.toNat

/-- No command writes `conv_size`, and no command but RESET changes a byte at or above it (R32, R92). -/
def Obligations.ConventionalSizeBoundsWrites : Prop :=
  ∀ (i : Instr) (s t : State), exec i s = .next t →
    t.convSize = s.convSize ∧
      (i ≠ .reset → ∀ a : Nat, s.convSize.val ≤ a → readCell t.mem a = readCell s.mem a)

/-- The registered ranges only grow, at the end of the list; a taken bucket keeps its tag and an MMIO bit stays set;
and only REGMAP and INSTALL change any of the three (R27, R35, R36). -/
def Obligations.MapsOnlyGrow : Prop :=
  ∀ (i : Instr) (s t : State), exec i s = .next t →
    (∃ l, t.maplist = s.maplist ++ l) ∧
      (∀ k : Fin 128, s.fastmap.get k ≠ 0x00#8 → t.fastmap.get k = s.fastmap.get k) ∧
      (∀ a : Addr, flagAt s.flags a.toNat &&& 0x20#8 ≠ 0#8 → flagAt t.flags a.toNat &&& 0x20#8 ≠ 0#8) ∧
      ((∀ a l tg w o, i ≠ .regmap a l tg w o) → (∀ g, i ≠ .install g) →
        t.maplist = s.maplist ∧ t.fastmap = s.fastmap ∧
          ∀ a : Addr, flagAt t.flags a.toNat &&& 0x20#8 = flagAt s.flags a.toNat &&& 0x20#8)

/-- No command empties a slot, and only INSTALL fills one (R39, R114). -/
def Obligations.SlotsAreNeverEmptied : Prop :=
  ∀ (i : Instr) (s t : State) (tag : Tag), s.Inv → exec i s = .next t →
    (s.slots.codeAt tag ≠ none → t.slots.codeAt tag ≠ none) ∧
      ((∀ g, i ≠ .install g) → s.slots.codeAt tag = none → t.slots.codeAt tag = none)

/-- Memory bytes are written by WR8, WR16 and RESET alone, and flags by SETFLAGS, CLRFLAGS, REGMAP, INSTALL and RESET
alone (R23, R25, R49). -/
def Obligations.MemoryAndFlagsWriters : Prop :=
  ∀ (i : Instr) (s t : State), exec i s = .next t →
    (match i with
      | .wr8 _ _ _ | .wr16 _ _ _ | .reset => True
      | _ => t.mem = s.mem) ∧
    (match i with
      | .setflags _ _ _ | .clrflags _ _ _ | .regmap _ _ _ _ _ | .install _ | .reset => True
      | _ => t.flags = s.flags)

/-- The scheduler registers are written by RUN and RESET alone, and the phase adjustment by PHASE too (R43, R86,
R134). -/
def Obligations.SchedulerRegisterWriters : Prop :=
  ∀ (i : Instr) (s t : State), exec i s = .next t →
    (match i with
      | .run _ _ _ | .reset => True
      | _ => t.kbAcc = s.kbAcc ∧ t.refresh = s.refresh ∧ t.refReload = s.refReload ∧ t.vidAcc = s.vidAcc) ∧
    (match i with
      | .run _ _ _ | .reset | .phase _ => True
      | _ => t.phaseAdj = s.phaseAdj)

/-! ## Timing (40_timing.md) -/

/-- REBUILD (R85, R86): the checks, and otherwise the new clock with the table of R82; nothing else changes. -/
def Obligations.RebuildSetsTheClockOrFaults : Prop :=
  ∀ (k : ClockKind) (n : BitVec 32) (x : F64) (s : State), s.fault = 0x00#8 →
    let m := match k with
      | .divisor => Binary64.div x (Binary64.ofNat n.toNat)
      | .multiplier => Binary64.mul x (Binary64.ofNat n.toNat)
    ((n = 0#32 ∨ Binary64.isNaN x = true ∨ Binary64.isInf x = true ∨ Binary64.ge Binary64.zero x = true ∨
        Binary64.isInf m = true ∨ Binary64.isZero m = true) →
      exec (.rebuild k n x) s = .next (s.faultedWith 0x08#8)) ∧
    (n ≠ 0#32 → Binary64.isNaN x = false → Binary64.isInf x = false → Binary64.ge Binary64.zero x = false →
        Binary64.isInf m = false → Binary64.isZero m = false →
      ∃ tab : Vector Entry 512,
        (∀ c : Fin 512, tab.get c =
          { ticks := BitVec.ofNat 64 (match k with
              | .divisor => (c.val + n.toNat - 1) / n.toNat
              | .multiplier => c.val * n.toNat)
            us := Binary64.div (Binary64.ofNat c.val) m }) ∧
        exec (.rebuild k n x) s = .next ({ s with cf := ⟨k, n⟩, crystal := x, table := tab }.respondWith {}))

/-- LOOKUP answers the entry of its cycle count (R87), and under the invariant that entry is the closed form of the
clock, exactly (R79, R82), with `(0, +0.0)` at no cycles. -/
def Obligations.LookupAnswersTheClosedForm : Prop :=
  ∀ (c : Cycles) (s : State), s.fault = 0x00#8 →
    exec (.lookup c) s =
        .next (s.respondWith { ticks := (s.table.get c.toFin).ticks, us := (s.table.get c.toFin).us }) ∧
      (s.Inv →
        (s.table.get c.toFin).ticks.toNat = (match s.cf.kind with
          | .divisor => (c.toNat + s.cf.n.toNat - 1) / s.cf.n.toNat
          | .multiplier => c.toNat * s.cf.n.toNat) ∧
        (s.table.get c.toFin).us = Binary64.div (Binary64.ofNat c.toNat) (match s.cf.kind with
          | .divisor => Binary64.div s.crystal (Binary64.ofNat s.cf.n.toNat)
          | .multiplier => Binary64.mul s.crystal (Binary64.ofNat s.cf.n.toNat)) ∧
        (c = 0#9 → (s.table.get c.toFin).ticks = 0#64 ∧ (s.table.get c.toFin).us = Binary64.zero))

/-- No conversion wraps (R80, R83): the bounds of R83, and the exact wait and tick counts in their 64-bit fields, the
ticks of every entry of the table among them. -/
def Obligations.ConversionsNeverWrap : Prop :=
  ∀ cf : ClockFactor, 1 ≤ cf.n.toNat →
    (∀ (x : F64) (c : Fin 512), ((buildTable cf x).get c).ticks.toNat = conv cf c.val) ∧
      (∀ c : Nat, c ≤ 511 → conv cf c ≤ 511 * (2 ^ 32 - 1)) ∧ 511 * (2 ^ 32 - 1) < 2 ^ 41 ∧
      (∀ w : BitVec 32, conv cf w.toNat ≤ (2 ^ 32 - 1) ^ 2 ∧
        (waitCycles cf w).toNat = (match cf.kind with
          | .divisor => (w.toNat + cf.n.toNat - 1) / cf.n.toNat
          | .multiplier => w.toNat * cf.n.toNat)) ∧ (2 ^ 32 - 1) ^ 2 < 2 ^ 64 ∧
      (∀ x : Nat, (cf.kind = .divisor → conv cf x ≤ x) ∧ (cf.kind = .multiplier → 1 ≤ x → x ≤ conv cf x))

/-- The corner cases of the conversion (R84), under the checks of REBUILD. -/
def Obligations.ConversionCorners : Prop :=
  ∀ (cf : ClockFactor) (x : F64), clockOk cf x = true →
    conv cf 0 = 0 ∧ ((buildTable cf x).get 0).us = Binary64.zero ∧
      (cf.n = 1#32 → ∀ c : Nat, conv cf c = c) ∧
      (cf.kind = .divisor → 511 < cf.n.toNat →
        ∀ c : Fin 512, 1 ≤ c.val → ((buildTable cf x).get c).ticks = 1#64) ∧
      (∀ c d : Fin 512, c.val ≤ d.val →
        ((buildTable cf x).get c).ticks.toNat ≤ ((buildTable cf x).get d).ticks.toNat) ∧
      (cf.kind = .divisor → ∀ c : Fin 512, ((buildTable cf x).get c).ticks = 0#64 → c.val = 0)

/-- The microseconds of the table never fall from one cycle count to the next (R84). -/
def Obligations.MicrosecondsNeverFall : Prop :=
  ∀ (cf : ClockFactor) (x : F64) (c d : Fin 512), clockOk cf x = true → c.val ≤ d.val →
    Binary64.ge ((buildTable cf x).get d).us ((buildTable cf x).get c).us = true

/-! ## Memory (41_memory_access.md, 20_memory.md) -/

/-- The raw path, where the MMIO bit of the address is clear or its bucket names no device: reads and queries (R90,
R91, R93, R94, R97 to R99). A word is little-endian (R51), at any address but the last (R53), and its route is its
first byte's alone (R54). -/
def Obligations.RawReadsAndQueries : Prop :=
  ∀ (a : Addr) (c : Cycles) (s : State), s.fault = 0x00#8 →
    (flagAt s.flags a.toNat &&& 0x20#8 = 0#8 ∨ s.fastmap.get (bucketOf a) = 0x00#8) →
      exec (.rd8 a c) s = .next (s.respondWith { data := (readCell s.mem a.toNat).setWidth 16 }) ∧
      exec (.peek8 a) s = .next (s.respondWith { data := (readCell s.mem a.toNat).setWidth 16 }) ∧
      exec (.rwait a c) s = .next (s.respondWith {}) ∧
      exec (.wwait a c) s = .next (s.respondWith {}) ∧
      (a ≠ 0xFFFFF#20 →
        exec (.rd16 a c) s = .next (s.respondWith { data := readCell s.mem (a.toNat + 1) ++ readCell s.mem a.toNat }))

/-- The faults of a memory command: a word at the top of the space, whatever its route (R50, R89, R139), and an
address with the MMIO bit set whose bucket claims a device that is no installed card (R90). -/
def Obligations.MemoryCommandFaults : Prop :=
  ∀ (a : Addr) (c : Cycles) (d : Byte) (w : BitVec 16) (s : State), s.fault = 0x00#8 →
    (a = 0xFFFFF#20 →
      exec (.rd16 a c) s = .next (s.faultedWith 0x01#8) ∧ exec (.wr16 a w c) s = .next (s.faultedWith 0x01#8)) ∧
    (flagAt s.flags a.toNat &&& 0x20#8 ≠ 0#8 → s.fastmap.get (bucketOf a) ≠ 0x00#8 →
        ((s.fastmap.get (bucketOf a)).toNat < 0x80 ∨ videoSlot s.slots (s.fastmap.get (bucketOf a)) = none) →
      exec (.rd8 a c) s = .next (s.faultedWith 0x02#8) ∧ exec (.wr8 a d c) s = .next (s.faultedWith 0x02#8) ∧
      exec (.peek8 a) s = .next (s.faultedWith 0x02#8) ∧ exec (.rwait a c) s = .next (s.faultedWith 0x02#8) ∧
      exec (.wwait a c) s = .next (s.faultedWith 0x02#8) ∧
      (a ≠ 0xFFFFF#20 →
        exec (.rd16 a c) s = .next (s.faultedWith 0x02#8) ∧ exec (.wr16 a w c) s = .next (s.faultedWith 0x02#8)))

/-- RD8 and RD16 on the device path (R88, R93, R94, R100): the card of the bucket answers, with the ticks of the cycle
count, and its wait is converted to cycles; only its slot changes. -/
def Obligations.DeviceReads : Prop :=
  ∀ (a : Addr) (c : Cycles) (s : State) (t : Tag) (v : VideoState), s.fault = 0x00#8 →
    flagAt s.flags a.toNat &&& 0x20#8 ≠ 0#8 → s.fastmap.get (bucketOf a) = t → 0x80 ≤ t.toNat →
    videoSlot s.slots t = some v →
      (∃ u : State, exec (.rd8 a c) s = .next u ∧
        s.CardReplaced t (mread8 (Config.board.video t) v a (s.table.get c.toFin).ticks).2.2
          { data := (mread8 (Config.board.video t) v a (s.table.get c.toFin).ticks).1.setWidth 16
            wait := waitCycles s.cf (mread8 (Config.board.video t) v a (s.table.get c.toFin).ticks).2.1 } u) ∧
      (a ≠ 0xFFFFF#20 → ∃ u : State, exec (.rd16 a c) s = .next u ∧
        s.CardReplaced t ((Config.board.video t).mread16 v a (s.table.get c.toFin).ticks).2.2
          { data := ((Config.board.video t).mread16 v a (s.table.get c.toFin).ticks).1
            wait := waitCycles s.cf ((Config.board.video t).mread16 v a (s.table.get c.toFin).ticks).2.1 } u)

/-- WR8 and WR16 on the device path (R88, R95, R96), whatever the ROM bit and `conv_size` say (R92): the card takes
the data, and memory keeps every byte. -/
def Obligations.DeviceWrites : Prop :=
  ∀ (a : Addr) (c : Cycles) (d : Byte) (w : BitVec 16) (s : State) (t : Tag) (v : VideoState), s.fault = 0x00#8 →
    flagAt s.flags a.toNat &&& 0x20#8 ≠ 0#8 → s.fastmap.get (bucketOf a) = t → 0x80 ≤ t.toNat →
    videoSlot s.slots t = some v →
      (∃ u : State, exec (.wr8 a d c) s = .next u ∧
        s.CardReplaced t (mwrite8 (Config.board.video t) v a d (s.table.get c.toFin).ticks).2
          { wait := waitCycles s.cf (mwrite8 (Config.board.video t) v a d (s.table.get c.toFin).ticks).1 } u) ∧
      (a ≠ 0xFFFFF#20 → ∃ u : State, exec (.wr16 a w c) s = .next u ∧
        s.CardReplaced t ((Config.board.video t).mwrite16 v a w (s.table.get c.toFin).ticks).2
          { wait := waitCycles s.cf ((Config.board.video t).mwrite16 v a w (s.table.get c.toFin).ticks).1 } u)

/-- PEEK8, RWAIT and WWAIT on the device path answer what the card shows and change nothing (R57, R97 to R99). -/
def Obligations.DeviceQueriesChangeNothing : Prop :=
  ∀ (a : Addr) (c : Cycles) (s : State) (t : Tag) (v : VideoState), s.fault = 0x00#8 →
    flagAt s.flags a.toNat &&& 0x20#8 ≠ 0#8 → s.fastmap.get (bucketOf a) = t → 0x80 ≤ t.toNat →
    videoSlot s.slots t = some v →
      exec (.peek8 a) s =
        .next (s.respondWith { data := ((Config.board.video t).mpeek8 v a).setWidth 16 }) ∧
      exec (.rwait a c) s =
        .next (s.respondWith
          { wait := waitCycles s.cf ((Config.board.video t).mrwait v a (s.table.get c.toFin).ticks) }) ∧
      exec (.wwait a c) s =
        .next (s.respondWith
          { wait := waitCycles s.cf ((Config.board.video t).mwwait v a (s.table.get c.toFin).ticks) })

/-- WR8 on the raw path (R92, R95): the byte at the address where it may be written, and no other byte. -/
def Obligations.RawByteWrite : Prop :=
  ∀ (a : Addr) (d : Byte) (c : Cycles) (s : State), s.fault = 0x00#8 →
    (flagAt s.flags a.toNat &&& 0x20#8 = 0#8 ∨ s.fastmap.get (bucketOf a) = 0x00#8) →
    ∃ m : Cells, exec (.wr8 a d c) s = .next ({ s with mem := m }.respondWith {}) ∧
      (s.Writable a.toNat → readCell m a.toNat = d) ∧
      (¬s.Writable a.toNat → readCell m a.toNat = readCell s.mem a.toNat) ∧
      ∀ x : Nat, x ≠ a.toNat → readCell m x = readCell s.mem x

/-- WR16 on the raw path (R51, R54, R92, R96): each byte of the word is checked on its own, and no other byte
changes. -/
def Obligations.RawWordWrite : Prop :=
  ∀ (a : Addr) (d : BitVec 16) (c : Cycles) (s : State), s.fault = 0x00#8 → a ≠ 0xFFFFF#20 →
    (flagAt s.flags a.toNat &&& 0x20#8 = 0#8 ∨ s.fastmap.get (bucketOf a) = 0x00#8) →
    ∃ m : Cells, exec (.wr16 a d c) s = .next ({ s with mem := m }.respondWith {}) ∧
      (s.Writable a.toNat → readCell m a.toNat = d.extractLsb' 0 8) ∧
      (¬s.Writable a.toNat → readCell m a.toNat = readCell s.mem a.toNat) ∧
      (s.Writable (a.toNat + 1) → readCell m (a.toNat + 1) = d.extractLsb' 8 8) ∧
      (¬s.Writable (a.toNat + 1) → readCell m (a.toNat + 1) = readCell s.mem (a.toNat + 1)) ∧
      ∀ x : Nat, x ≠ a.toNat → x ≠ a.toNat + 1 → readCell m x = readCell s.mem x

/-- Mixed-width access on the raw path (R52). -/
def Obligations.MixedWidthAccess : Prop :=
  ∀ (a : Addr) (v : BitVec 16) (x y : Byte) (c : Cycles) (s : State), s.fault = 0x00#8 → a ≠ 0xFFFFF#20 →
    flagAt s.flags a.toNat &&& 0x20#8 = 0#8 → flagAt s.flags (a + 1#20).toNat &&& 0x20#8 = 0#8 →
    s.Writable a.toNat → s.Writable (a + 1#20).toNat →
      (∃ t : State, exec (.wr16 a v c) s = .next t ∧
        exec (.rd8 a c) t = .next (t.respondWith { data := (v.extractLsb' 0 8).setWidth 16 }) ∧
        exec (.rd8 (a + 1#20) c) t = .next (t.respondWith { data := (v.extractLsb' 8 8).setWidth 16 })) ∧
      ∃ t u : State, exec (.wr8 a x c) s = .next t ∧ exec (.wr8 (a + 1#20) y c) t = .next u ∧
        exec (.rd16 a c) u = .next (u.respondWith { data := y ++ x })

/-- Memory keeps the last write (R56, R61, R64): after a WR8 that takes effect and any commands that neither store to
the byte nor reset the bus, the byte holds the value written, and RD8 answers it wherever the block has not faulted
and the byte has not become a device's. -/
def Obligations.MemoryKeepsTheLastWrite : Prop :=
  ∀ (a : Addr) (d : Byte) (c c' : Cycles) (is : List Instr) (s : State), s.fault = 0x00#8 →
    flagAt s.flags a.toNat &&& 0x20#8 = 0#8 → s.Writable a.toNat → (∀ i ∈ is, i.SparesByte a) →
    ∃ t : State, execAll (.wr8 a d c :: is) s = .next t ∧ readCell t.mem a.toNat = d ∧
      (t.fault = 0x00#8 → flagAt t.flags a.toNat &&& 0x20#8 = 0#8 →
        exec (.rd8 a c') t = .next (t.respondWith { data := d.setWidth 16 }))

/-- A query predicts the access that follows it (R99, R159): WWAIT the wait of WR8, RWAIT the wait of RD8, PEEK8 the
data of RD8. It rests on the obligations of R45, which the model builds into the device functions (log entry 2). -/
def Obligations.QueriesPredictAccesses : Prop :=
  ∀ (a : Addr) (d : Byte) (c : Cycles) (s : State), s.fault = 0x00#8 →
    ∃ (t1 t2 t3 u1 u2 u3 : State) (r1 r2 r3 x1 x2 x3 : Response),
      exec (.wwait a c) s = .next t1 ∧ exec (.wr8 a d c) t1 = .next u1 ∧ t1.response = some r1 ∧
        u1.response = some x1 ∧ (r1.status = 0x00#8 → x1.status = 0x00#8 ∧ x1.wait = r1.wait) ∧
      exec (.rwait a c) s = .next t2 ∧ exec (.rd8 a c) t2 = .next u2 ∧ t2.response = some r2 ∧
        u2.response = some x2 ∧ (r2.status = 0x00#8 → x2.status = 0x00#8 ∧ x2.wait = r2.wait) ∧
      exec (.peek8 a) s = .next t3 ∧ exec (.rd8 a c) t3 = .next u3 ∧ t3.response = some r3 ∧
        u3.response = some x3 ∧ (r3.status = 0x00#8 → x3.status = 0x00#8 ∧ x3.data = r3.data)

/-! ## Ports (42_port_io.md) -/

/-- An unmapped port reads 0xFF and takes a write as a no-op (R103, R104); a mapped port with no live byte-I/O device
behind it faults `PORT_UNRESOLVABLE` (R101). -/
def Obligations.UnmappedPorts : Prop :=
  ∀ (p : Port) (d : Byte) (c : Cycles) (s : State), s.fault = 0x00#8 →
    (readCell s.portmap p.toNat = 0x00#8 →
      exec (.iord8 p c) s = .next (s.respondWith { data := 0x00FF#16 }) ∧
      exec (.iowr8 p d c) s = .next (s.respondWith {})) ∧
    (readCell s.portmap p.toNat ≠ 0x00#8 → ¬s.slots.PortLive (readCell s.portmap p.toNat) →
      exec (.iord8 p c) s = .next (s.faultedWith 0x0B#8) ∧ exec (.iowr8 p d c) s = .next (s.faultedWith 0x0B#8))

/-- IORD8 of a mapped port calls the live device of its tag with the whole timing entry and writes that slot back, and
nothing else (R88, R101, R103); one clause for each class. -/
def Obligations.PortReadsReachTheirDevice : Prop :=
  ∀ (p : Port) (c : Cycles) (s : State), s.fault = 0x00#8 →
    let b := Config.board
    let te := s.table.get c.toFin
    let sl := s.slots
    let t := readCell s.portmap p.toNat
    let answer (v : Byte) (sl' : Slots) : Host.Outcome State Fault Refusal :=
      .next ({ s with slots := sl' }.respondWith { data := v.setWidth 16 })
    (∀ d, t = 0x01#8 → sl.pit = some d →
      exec (.iord8 p c) s = answer (b.pit.io.read d p te).1 { sl with pit := some (b.pit.io.read d p te).2 }) ∧
    (∀ d, t = 0x02#8 → sl.pic1 = some d →
      exec (.iord8 p c) s = answer ((b.pic t).io.read d p te).1 { sl with pic1 := some ((b.pic t).io.read d p te).2 }) ∧
    (∀ d, t = 0x03#8 → sl.pic2 = some d →
      exec (.iord8 p c) s = answer ((b.pic t).io.read d p te).1 { sl with pic2 := some ((b.pic t).io.read d p te).2 }) ∧
    (∀ d, t = 0x04#8 → sl.dma1 = some d →
      exec (.iord8 p c) s = answer ((b.dma t).io.read d p te).1 { sl with dma1 := some ((b.dma t).io.read d p te).2 }) ∧
    (∀ d, t = 0x05#8 → sl.dma2 = some d →
      exec (.iord8 p c) s = answer ((b.dma t).io.read d p te).1 { sl with dma2 := some ((b.dma t).io.read d p te).2 }) ∧
    (∀ d, t = 0x06#8 → sl.ppi = some d →
      exec (.iord8 p c) s = answer (b.ppi.io.read d p te).1 { sl with ppi := some (b.ppi.io.read d p te).2 }) ∧
    (∀ d, t = 0x08#8 → sl.fdc = some d →
      exec (.iord8 p c) s =
        answer ((b.storage t).io.read d p te).1 { sl with fdc := some ((b.storage t).io.read d p te).2 }) ∧
    (∀ d, t = 0x09#8 → sl.hdc = some d →
      exec (.iord8 p c) s =
        answer ((b.storage t).io.read d p te).1 { sl with hdc := some ((b.storage t).io.read d p te).2 }) ∧
    (∀ d, t = 0x0A#8 → sl.serial = some d →
      exec (.iord8 p c) s =
        answer (b.serial.io.read d p te).1 { sl with serial := some (b.serial.io.read d p te).2 }) ∧
    (∀ v, 0x80 ≤ t.toNat → videoSlot sl t = some v →
      ∃ u : State, exec (.iord8 p c) s = .next u ∧
        s.CardReplaced t ((b.video t).io.read v p te).2 { data := ((b.video t).io.read v p te).1.setWidth 16 } u)

/-- IOWR8 of a mapped port calls the live device of its tag, writes its slot back and then applies its effects (R101,
R102, R104); one clause for each class. A write to the primary PIC applies its effects to the PIC's new state. -/
def Obligations.PortWritesReachTheirDevice : Prop :=
  ∀ (p : Port) (v : Byte) (c : Cycles) (s : State), s.fault = 0x00#8 →
    let b := Config.board
    let te := s.table.get c.toFin
    let sl := s.slots
    let t := readCell s.portmap p.toNat
    let after (sl' : Slots) (es : List Effect) : Host.Outcome State Fault Refusal :=
      .next ({ s with slots := { sl' with pic1 := pulseAll b es sl'.pic1 } }.respondWith {})
    (∀ d, t = 0x01#8 → sl.pit = some d →
      exec (.iowr8 p v c) s =
        after { sl with pit := some (b.pit.io.write d p v te).1 } (b.pit.io.write d p v te).2) ∧
    (∀ d, t = 0x02#8 → sl.pic1 = some d →
      exec (.iowr8 p v c) s =
        after { sl with pic1 := some ((b.pic t).io.write d p v te).1 } ((b.pic t).io.write d p v te).2) ∧
    (∀ d, t = 0x03#8 → sl.pic2 = some d →
      exec (.iowr8 p v c) s =
        after { sl with pic2 := some ((b.pic t).io.write d p v te).1 } ((b.pic t).io.write d p v te).2) ∧
    (∀ d, t = 0x04#8 → sl.dma1 = some d →
      exec (.iowr8 p v c) s =
        after { sl with dma1 := some ((b.dma t).io.write d p v te).1 } ((b.dma t).io.write d p v te).2) ∧
    (∀ d, t = 0x05#8 → sl.dma2 = some d →
      exec (.iowr8 p v c) s =
        after { sl with dma2 := some ((b.dma t).io.write d p v te).1 } ((b.dma t).io.write d p v te).2) ∧
    (∀ d, t = 0x06#8 → sl.ppi = some d →
      exec (.iowr8 p v c) s =
        after { sl with ppi := some (b.ppi.io.write d p v te).1 } (b.ppi.io.write d p v te).2) ∧
    (∀ d, t = 0x08#8 → sl.fdc = some d →
      exec (.iowr8 p v c) s =
        after { sl with fdc := some ((b.storage t).io.write d p v te).1 } ((b.storage t).io.write d p v te).2) ∧
    (∀ d, t = 0x09#8 → sl.hdc = some d →
      exec (.iowr8 p v c) s =
        after { sl with hdc := some ((b.storage t).io.write d p v te).1 } ((b.storage t).io.write d p v te).2) ∧
    (∀ d, t = 0x0A#8 → sl.serial = some d →
      exec (.iowr8 p v c) s =
        after { sl with serial := some (b.serial.io.write d p v te).1 } (b.serial.io.write d p v te).2) ∧
    (∀ d, 0x80 ≤ t.toNat → videoSlot sl t = some d →
      ∃ u : State, exec (.iowr8 p v c) s = .next u ∧
        ({ s with slots := { sl with pic1 := pulseAll b ((b.video t).io.write d p v te).2 sl.pic1 } } : State).CardReplaced
          t ((b.video t).io.write d p v te).1 {} u)

/-- Under the invariant every port command completes: a mapped port names a live device with byte I/O, and the
`PORT_UNRESOLVABLE` arm is unreachable (R101, R114). -/
def Obligations.PortsAlwaysResolve : Prop :=
  ∀ (p : Port) (d : Byte) (c : Cycles) (s : State), s.Inv → s.fault = 0x00#8 →
    (readCell s.portmap p.toNat ≠ 0x00#8 →
      s.slots.codeAt (readCell s.portmap p.toNat) ≠ none ∧ readCell s.portmap p.toNat ≠ 0x07#8 ∧
        readCell s.portmap p.toNat ≠ 0x0B#8) ∧
    (∃ t r, exec (.iord8 p c) s = .next t ∧ t.response = some r ∧ r.status = 0x00#8) ∧
    ∃ t r, exec (.iowr8 p d c) s = .next t ∧ t.response = some r ∧ r.status = 0x00#8

/-! ## Map and configuration (43_map_config.md) -/

/-- REGMAP (R106): the checks in the order written, the first that fails naming the fault; a legal range on free
buckets sets the buckets, the MMIO bits and the list entry, and nothing else. The tag need not be installed. -/
def Obligations.RegmapRegistersOrFaults : Prop :=
  ∀ (a : Addr) (l : Len) (t : Tag) (w : Byte) (o : Bool) (s : State), s.fault = 0x00#8 →
    let badTag := t = 0x00#8 ∨ (0x0C ≤ t.toNat ∧ t.toNat ≤ 0x7F)
    (badTag ∨ 0x100000 < l.toNat → exec (.regmap a l t w o) s = .next (s.faultedWith 0x0A#8)) ∧
    (¬badTag → l.toNat ≤ 0x100000 → l.toNat % 0x2000 ≠ 0 →
      exec (.regmap a l t w o) s = .next (s.faultedWith 0x03#8)) ∧
    (¬badTag → l.toNat ≤ 0x100000 → l.toNat % 0x2000 = 0 →
        (l = 0#21 ∨ a.toNat % 0x2000 ≠ 0 ∨ 0x100000 < a.toNat + l.toNat) →
      exec (.regmap a l t w o) s = .next (s.faultedWith 0x04#8)) ∧
    (¬badTag → l.toNat % 0x2000 = 0 → l ≠ 0#21 → a.toNat % 0x2000 = 0 → a.toNat + l.toNat ≤ 0x100000 →
        (∃ k : Fin 128, a.toNat / 0x2000 ≤ k.val ∧ k.val < (a.toNat + l.toNat) / 0x2000 ∧ s.fastmap.get k ≠ 0x00#8) →
      exec (.regmap a l t w o) s = .next (s.faultedWith 0x05#8)) ∧
    (¬badTag → s.Admits (t, a, l) →
      ∃ u : State, exec (.regmap a l t w o) s = .next u ∧
        u = { s with fastmap := u.fastmap, flags := u.flags, maplist := s.maplist ++ [⟨a, l, w, o, t⟩],
                     response := some {} } ∧
        (∀ k : Fin 128, u.fastmap.get k =
          if a.toNat / 0x2000 ≤ k.val ∧ k.val < (a.toNat + l.toNat) / 0x2000 then t else s.fastmap.get k) ∧
        ∀ x : Addr, flagAt u.flags x.toNat =
          if a.toNat ≤ x.toNat ∧ x.toNat < a.toNat + l.toNat then flagAt s.flags x.toNat ||| 0x20#8
          else flagAt s.flags x.toNat)

/-- MAPQ (R108) answers the first registration of the list that covers the address, or zeros where none does; under
the invariant the tag it answers is the bucket's, so the slow path and the fast path agree (R38). -/
def Obligations.MapqFindsTheFirstRange : Prop :=
  ∀ (a : Addr) (s : State), s.fault = 0x00#8 →
    (∀ (before after : List Registration) (r : Registration), s.maplist = before ++ r :: after →
        (∀ q ∈ before, ¬(q.base.toNat ≤ a.toNat ∧ a.toNat < q.base.toNat + q.size.toNat)) →
        r.base.toNat ≤ a.toNat → a.toNat < r.base.toNat + r.size.toNat →
      exec (.mapq a) s = .next (s.respondWith { data := r.wcost ++ r.tag, ticks := if r.ro then 1#64 else 0#64 })) ∧
    ((∀ q ∈ s.maplist, ¬(q.base.toNat ≤ a.toNat ∧ a.toNat < q.base.toNat + q.size.toNat)) →
      exec (.mapq a) s = .next (s.respondWith {})) ∧
    (s.Inv → ∃ (t : State) (r : Response), exec (.mapq a) s = .next t ∧ t.response = some r ∧ r.status = 0x00#8 ∧
      r.data.extractLsb' 0 8 = s.fastmap.get (bucketOf a))

/-- SETFLAGS (R109): the checks, or the mask's bits ROM to CHK set on every byte of the range, and nothing else. -/
def Obligations.SetflagsSetsTheRange : Prop :=
  ∀ (a : Addr) (l : Len) (m : Byte) (s : State), s.fault = 0x00#8 →
    (0x100000 < l.toNat → exec (.setflags a l m) s = .next (s.faultedWith 0x0A#8)) ∧
    (l.toNat ≤ 0x100000 → 0x100000 < a.toNat + l.toNat →
      exec (.setflags a l m) s = .next (s.faultedWith 0x01#8)) ∧
    (a.toNat + l.toNat ≤ 0x100000 →
      ∃ fl : FlagMap, exec (.setflags a l m) s = .next ({ s with flags := fl }.respondWith {}) ∧
        ∀ x : Addr, flagAt fl x.toNat =
          if a.toNat ≤ x.toNat ∧ x.toNat < a.toNat + l.toNat then flagAt s.flags x.toNat ||| (m &&& 0x1F#8)
          else flagAt s.flags x.toNat)

/-- CLRFLAGS (R110): the checks, or the mask's bits RET to CHK cleared on every byte of the range, and nothing else:
never ROM, never MMIO. -/
def Obligations.ClrflagsClearsTheRange : Prop :=
  ∀ (a : Addr) (l : Len) (m : Byte) (s : State), s.fault = 0x00#8 →
    (0x100000 < l.toNat → exec (.clrflags a l m) s = .next (s.faultedWith 0x0A#8)) ∧
    (l.toNat ≤ 0x100000 → 0x100000 < a.toNat + l.toNat →
      exec (.clrflags a l m) s = .next (s.faultedWith 0x01#8)) ∧
    (a.toNat + l.toNat ≤ 0x100000 →
      ∃ fl : FlagMap, exec (.clrflags a l m) s = .next ({ s with flags := fl }.respondWith {}) ∧
        ∀ x : Addr, flagAt fl x.toNat =
          if a.toNat ≤ x.toNat ∧ x.toNat < a.toNat + l.toNat then flagAt s.flags x.toNat &&& ~~~(m &&& 0x1E#8)
          else flagAt s.flags x.toNat)

/-- TESTFLAGS answers the flags byte of the address (R111), whose bits 7:6 read 0 in every state (R29) and, under the
invariant, are 0. -/
def Obligations.TestflagsAnswersTheFlagsByte : Prop :=
  ∀ (a : Addr) (s : State), s.fault = 0x00#8 →
    exec (.testflags a) s = .next (s.respondWith { data := (flagAt s.flags a.toNat &&& 0x3F#8).setWidth 16 }) ∧
      (s.Inv → exec (.testflags a) s = .next (s.respondWith { data := (flagAt s.flags a.toNat).setWidth 16 }))

/-- The faults of INSTALL that need no board to see, and an empty configuration (R113): a second INSTALL, an illegal
tag, a tag that occurs twice; the empty configuration installs nothing wherever `SUPPORTED` admits it. -/
def Obligations.InstallChecks : Prop :=
  ∀ (g : List InstallEntry) (s : State), s.fault = 0x00#8 →
    (s.installed = true → exec (.install g) s = .next (s.faultedWith 0x07#8)) ∧
    (s.installed = false → (∃ e ∈ g, e.tag = 0x00#8 ∨ (0x0C ≤ e.tag.toNat ∧ e.tag.toNat ≤ 0x7F)) →
      exec (.install g) s = .next (s.faultedWith 0x06#8)) ∧
    (s.installed = false → ¬g.Pairwise (fun e e' => e.tag ≠ e'.tag) →
      exec (.install g) s = .next (s.faultedWith 0x06#8)) ∧
    (s.installed = false → g = [] →
      exec (.install g) s =
        .next (if Config.board.supported [] then { s with installed := true }.respondWith {}
          else s.faultedWith 0x06#8))

/-- INSTALL (R113): a second one faults; where the board admits the configuration the first fills the slots, the port
map and the apertures of the cards, and sets `installed`, whatever board it is (the machine's is `Config.board`); where
the machine's does not, it faults `INSTALL_FAIL` and leaves no partial state. The apertures are registered by ascending
tag: `byAscendingTag g` is the one list that has the entries of `g`, in rising order of their tags. -/
def Obligations.InstallFillsOrFails : Prop :=
  ∀ (g : List InstallEntry) (s : State), s.Inv → s.fault = 0x00#8 →
    (s.installed = true → exec (.install g) s = .next (s.faultedWith 0x07#8)) ∧
    (s.installed = false → ¬s.InstallAdmits Config.board g → exec (.install g) s = .next (s.faultedWith 0x06#8)) ∧
    ∀ b : Board, s.installed = false → s.InstallAdmits b g → ∃ t : State,
      finish s (install b g s) = .next t ∧ (b = Config.board → exec (.install g) s = .next t) ∧
      t = { s with
            slots := t.slots, portmap := t.portmap, fastmap := t.fastmap, flags := t.flags, installed := true
            maplist := s.maplist ++
              (aperturesInOrder b g).map fun x => ⟨x.2.1, x.2.2, 0x00#8, false, x.1⟩
            response := some {} } ∧
      ((byAscendingTag g).Pairwise (fun e e' => e.tag.toNat < e'.tag.toNat) ∧ ∀ e, e ∈ byAscendingTag g ↔ e ∈ g) ∧
      (∀ e ∈ g, t.slots.codeAt e.tag = some e.init) ∧
      (∀ tag : Tag, (∀ e ∈ g, e.tag ≠ tag) → t.slots.codeAt tag = none) ∧
      (∀ e ∈ g, ∀ p ∈ portsOf b e, readCell t.portmap p.toNat = e.tag) ∧
      (∀ p : Port, (∀ e ∈ g, p ∉ portsOf b e) → readCell t.portmap p.toNat = 0x00#8) ∧
      (∀ x ∈ aperturesInOrder b g, ∀ a : Addr, x.Covers a.toNat →
        t.fastmap.get (bucketOf a) = x.1 ∧ flagAt t.flags a.toNat = flagAt s.flags a.toNat ||| 0x20#8) ∧
      ∀ a : Addr, (∀ x ∈ aperturesInOrder b g, ¬x.Covers a.toNat) →
        t.fastmap.get (bucketOf a) = s.fastmap.get (bucketOf a) ∧
          flagAt t.flags a.toNat = flagAt s.flags a.toNat

/-- RESET (R23, R28, R43, R115): RAM bytes cleared, ROM and device bytes kept; RET, BPE and BPA cleared everywhere;
the scheduler registers at their reset values; everything else kept. -/
def Obligations.ResetClearsRamAndFlags : Prop :=
  ∀ s : State, s.fault = 0x00#8 →
    ∃ t : State, exec .reset s = .next t ∧
      t = { s with
            mem := t.mem, flags := t.flags, vidAcc := t.vidAcc, kbAcc := 0#64, phaseAdj := 0#64, refresh := .idle,
            refReload := 0#16, response := some {} } ∧
      (∀ a : Addr, readCell t.mem a.toNat =
        if flagAt s.flags a.toNat &&& 0x21#8 = 0#8 then 0x00#8 else readCell s.mem a.toNat) ∧
      (∀ a : Addr, flagAt t.flags a.toNat = flagAt s.flags a.toNat &&& 0x31#8) ∧
      ∀ i : Fin 128, t.vidAcc.get i = 0#64

/-! ## Scheduler (44_scheduler.md) -/

/-- RUN completes exactly where its checks pass, with a response whose wait, ticks and microseconds are 0 (R48), and
then leaves alone the secondary PIC and DMA controllers, memory, the maps and the clock; else it faults `BAD_OPERAND`
and changes nothing (R116, R119, R125). -/
def Obligations.RunChecksAndFrame : Prop :=
  ∀ (u : F64) (q : U64) (e : Option KeyEvent) (s : State), s.fault = 0x00#8 →
    (s.RunAccepted u q →
      ∃ (t : State) (r : Response), exec (.run u q e) s = .next t ∧
        r.status = 0x00#8 ∧ r.wait = 0#64 ∧ r.ticks = 0#64 ∧ r.us = Binary64.zero ∧
        t = { s with
              slots := { t.slots with pic2 := s.slots.pic2, dma2 := s.slots.dma2 }
              kbAcc := t.kbAcc, phaseAdj := t.phaseAdj, refresh := t.refresh, refReload := t.refReload
              vidAcc := t.vidAcc, response := some r }) ∧
    (¬s.RunAccepted u q → exec (.run u q e) s = .next (s.faultedWith 0x0A#8))

/-- With no device installed RUN changes nothing and answers no event (R116). -/
def Obligations.RunWithoutDevices : Prop :=
  ∀ (u : F64) (q : U64) (e : Option KeyEvent) (s : State), s.fault = 0x00#8 → s.slots = Slots.absent →
    Binary64.isNaN u = false → Binary64.isInf u = false → Binary64.gt Binary64.zero u = false →
    exec (.run u q e) s = .next (s.respondWith {})

/-- Step 1's keyboard (R117): the event first, then at most one tick, the threshold subtracted; the overflow flag in
the response; with no keyboard the accumulator keeps its value. The threshold is `KB_UPDATE_US` of the machine's board,
above 0 and otherwise unknown (R10, log entry 3). -/
def Obligations.RunKeyboardPacing : Prop :=
  ∀ (u : F64) (q : U64) (e : Option KeyEvent) (s : State), s.fault = 0x00#8 → s.RunAccepted u q →
    ∃ (t : State) (r : Response), exec (.run u q e) s = .next t ∧ t.response = some r ∧
      (s.slots.kbd = none → t.slots.kbd = none ∧ t.kbAcc = s.kbAcc ∧ r.data = 0#16) ∧
      ∀ k, s.slots.kbd = some k →
        let b := Config.board
        let k' := match e with
          | some ev => (b.kbd.apply k ev).1
          | none => k
        let acc := Binary64.add s.kbAcc u
        (Binary64.ge acc b.kbUpdateUs.us = true →
          t.slots.kbd = some (b.kbd.tick k').1 ∧ t.kbAcc = Binary64.sub acc b.kbUpdateUs.us ∧
            r.data = if (b.kbd.tick k').2.2 then 1#16 else 0#16) ∧
        (Binary64.ge acc b.kbUpdateUs.us = false → t.slots.kbd = some k' ∧ t.kbAcc = acc ∧ r.data = 0#16)

/-- The PPI in a slice (R118, R120): it latches every scancode in order, then advances with the primary PIC of step 2
in view. -/
def Obligations.RunScancodeLatch : Prop :=
  ∀ (u : F64) (q : U64) (e : Option KeyEvent) (s : State), s.fault = 0x00#8 → s.RunAccepted u q →
    ∃ t : State, exec (.run u q e) s = .next t ∧ (s.slots.ppi = none → t.slots.ppi = none) ∧
      ∀ p, s.slots.ppi = some p →
        t.slots.ppi = some (Config.board.ppi.advance (latchAll Config.board (scancodesOf Config.board u e s) p)
          (picAfterStep2 Config.board u q e s) u).1

/-- The primary PIC in a slice: one pulse on line 1 for each scancode latched with keyboard interrupts enabled, then
its advance, then the pulses of the timer, the FDC, the HDC, the serial controller and each card by ascending tag, every
pulse in the order of the steps, none merged and none lost (R118, R119, R121, R125 to R127, R130, R143, R146). The PIC
that the PPI and a card see is none where it is absent (log entry 15), and a card's is the PIC as the steps and the cards
before it left it, which is the model's reading of R127 (log entry 16). -/
def Obligations.RunPulsesInOrder : Prop :=
  videoTags.map BitVec.toNat = List.range' 0x80 128 ∧ ∀ (u : F64) (q : U64) (e : Option KeyEvent) (s : State), s.fault = 0x00#8 → s.RunAccepted u q →
    ∃ t : State, exec (.run u q e) s = .next t ∧
      t.slots.pic1 = videoTags.foldl (cardPulses Config.board u q s) (picBeforeVideo Config.board u q e s)

/-- Step 4 (R121): a timer with a crystal of its own advances by microseconds and leaves the phase adjustment; any
other by the ticks plus the adjustment, which it consumes; with no timer the adjustment stays. -/
def Obligations.RunTimer : Prop :=
  ∀ (u : F64) (q : U64) (e : Option KeyEvent) (s : State), s.fault = 0x00#8 → s.RunAccepted u q →
    ∃ t : State, exec (.run u q e) s = .next t ∧
      (s.slots.pit = none → t.slots.pit = none ∧ t.phaseAdj = s.phaseAdj) ∧
      ∀ d, s.slots.pit = some d →
        t.slots.pit = some (if Config.board.pitHasCrystal then (Config.board.pit.advanceUs d u).1
          else (Config.board.pit.advanceTicks d (q + s.phaseAdj)).1) ∧
        t.phaseAdj = if Config.board.pitHasCrystal then s.phaseAdj else 0#64

/-- The refresh FSM and the event latch (R122, R123, R128): the five rows of the table on the timer's channel 1 after
its advance; a refresh event beats a turbo toggle, and the toggle is the event of a slice without one. -/
def Obligations.RunRefreshAndEvent : Prop :=
  ∀ (u : F64) (q : U64) (e : Option KeyEvent) (s : State), s.fault = 0x00#8 → s.RunAccepted u q →
    ∃ (t : State) (r : Response), exec (.run u q e) s = .next t ∧ t.response = some r ∧
      let turbo := match turboOf Config.board u q e s with
        | some on => some (Event.turboToggle on)
        | none => none
      (s.slots.pit = none → t.refresh = s.refresh ∧ t.refReload = s.refReload ∧ r.event = turbo) ∧
      ∀ d, t.slots.pit = some d →
        let c := Config.board.pit.ch1 d
        t.refReload = c.reload ∧
        (s.refresh = .idle → c.counting = false → t.refresh = .idle ∧ r.event = turbo) ∧
        (s.refresh = .idle → c.counting = true →
          t.refresh = .counting ∧ r.event = some (.dramRefreshUpdate c.reload c.elem c.carry)) ∧
        (s.refresh = .counting → c.counting = true → c.reload = s.refReload →
          t.refresh = .counting ∧ r.event = turbo) ∧
        (s.refresh = .counting → c.counting = true → c.reload ≠ s.refReload →
          t.refresh = .counting ∧ r.event = some (.dramRefreshUpdate c.reload c.elem c.carry)) ∧
        (s.refresh = .counting → c.counting = false →
          t.refresh = .idle ∧ r.event = some (.dramRefreshEnable false))

/-- The refresh FSM is edge-triggered (R124): of two slices in a row, where channel 1 shows the same counting flag and
reload value after both, the second has no refresh event. -/
def Obligations.RefreshIsEdgeTriggered : Prop :=
  ∀ (u u' : F64) (q q' : U64) (e e' : Option KeyEvent) (s : State), s.fault = 0x00#8 → s.RunAccepted u q →
    ∃ t : State, exec (.run u q e) s = .next t ∧
      (t.RunAccepted u' q' → ∃ (t' : State) (r : Response), exec (.run u' q' e') t = .next t' ∧ t'.response = some r ∧
        ∀ d d', t.slots.pit = some d → t'.slots.pit = some d' →
          (Config.board.pit.ch1 d').counting = (Config.board.pit.ch1 d).counting →
          (Config.board.pit.ch1 d').reload = (Config.board.pit.ch1 d).reload →
            r.event = none ∨ ∃ on, r.event = some (.turboToggle on))

/-- Step 6 (R125): the FDC, then the HDC, each with the primary DMA state lent to it, then DMA last on the state they
handed back. -/
def Obligations.RunStorageThenDma : Prop :=
  ∀ (u : F64) (q : U64) (e : Option KeyEvent) (s : State), s.fault = 0x00#8 → s.RunAccepted u q →
    ∃ t : State, exec (.run u q e) s = .next t ∧
      t.slots.fdc = (fdcCall Config.board u q s).1 ∧
      t.slots.hdc = (hdcCall Config.board u q s).1 ∧
      t.slots.dma1 = (hdcCall Config.board u q s).2.1.map fun x => (Config.board.dma 0x04#8).advance x ⟨q, u⟩

/-- Step 7 (R126): the serial controller, then the mouse on its new state; a mouse without one is not advanced. -/
def Obligations.RunSerialThenMouse : Prop :=
  ∀ (u : F64) (q : U64) (e : Option KeyEvent) (s : State), s.fault = 0x00#8 → s.RunAccepted u q →
    ∃ t : State, exec (.run u q e) s = .next t ∧
      (s.slots.serial = none → t.slots.serial = none ∧ t.slots.mouse = s.slots.mouse) ∧
      ∀ c, s.slots.serial = some c →
        let c' := (Config.board.serial.advance c u).1
        (s.slots.mouse = none → t.slots.serial = some c' ∧ t.slots.mouse = none) ∧
        ∀ m, s.slots.mouse = some m →
          t.slots.mouse = some (Config.board.mouse.advance m c' u).1 ∧
            t.slots.serial = some (Config.board.mouse.advance m c' u).2

/-- Step 8 (R127): a card of a microsecond kind is called in every slice; a card of a tick kind accumulates, and is
called with the whole count, then zeroed, once it reaches the kind's minimum. The cards go by ascending tag, and each
sees the primary PIC as the steps and the cards before it left it (R130): that this is R127's PIC view is the model's
reading (log entry 16), and so is that the view is none where the PIC is absent (log entry 15). -/
def Obligations.RunVideoCards : Prop :=
  videoTags.map BitVec.toNat = List.range' 0x80 128 ∧ ∀ (u : F64) (q : U64) (e : Option KeyEvent) (s : State) (tag : Tag), s.fault = 0x00#8 → s.RunAccepted u q →
    0x80 ≤ tag.toNat →
    ∃ t : State, exec (.run u q e) s = .next t ∧
      let b := Config.board
      let i := videoIndex tag
      let acc := s.vidAcc.get i + q
      let pic := picBeforeCard b u q e s tag
      (videoSlot s.slots tag = none → videoSlot t.slots tag = none ∧ t.vidAcc.get i = s.vidAcc.get i) ∧
      ∀ v, videoSlot s.slots tag = some v →
        (videoSlot t.slots tag, t.vidAcc.get i) =
          match b.videoUnit (tag.extractLsb' 4 3) with
          | .us => (some ((b.video tag).vadvanceUs v u pic).1, s.vidAcc.get i)
          | .ticks =>
            if b.videoTickMin (tag.extractLsb' 4 3) ≤ acc then (some ((b.video tag).vadvanceTicks v acc pic).1, 0#64)
            else (some v, acc)

/-- PHASE writes the phase adjustment and nothing else, and a second PHASE overwrites the first (R134). -/
def Obligations.PhaseOverwrites : Prop :=
  ∀ (q q' : U64) (s : State), s.fault = 0x00#8 →
    exec (.phase q) s = .next ({ s with phaseAdj := q }.respondWith {}) ∧
      execAll [.phase q, .phase q'] s = .next ({ s with phaseAdj := q' }.respondWith {})

/-! ## Construction (70_reset_and_hazards.md) -/

/-- Construction with a clock that fails the REBUILD checks is refused, and with any other it gives the block at
power-on with that clock (R154). That the flags image is not checked too is the model's choice (log entry 17). -/
def Obligations.ConstructionRefusesABadClock : Prop :=
  ∀ (b : Board) (k : ClockKind) (n : BitVec 32) (x : F64) (mem0 : Cells) (flags0 : FlagMap),
    let m := match k with
      | .divisor => Binary64.div x (Binary64.ofNat n.toNat)
      | .multiplier => Binary64.mul x (Binary64.ofNat n.toNat)
    ((n = 0#32 ∨ Binary64.isNaN x = true ∨ Binary64.isInf x = true ∨ Binary64.ge Binary64.zero x = true ∨
        Binary64.isInf m = true ∨ Binary64.isZero m = true) →
      State.construct b ⟨k, n⟩ x mem0 flags0 = none) ∧
    (n ≠ 0#32 → Binary64.isNaN x = false → Binary64.isInf x = false → Binary64.ge Binary64.zero x = false →
        Binary64.isInf m = false → Binary64.isZero m = false →
      ∃ c : PowerOnClock, c.cf = ⟨k, n⟩ ∧ c.crystal = x ∧
        State.construct b ⟨k, n⟩ x mem0 flags0 = some (State.powerOn { b with clock := c } mem0 flags0))
end

