-- ==== Sys2Proof/Laws/Binary64.lean ====
section
/-! SUPPORT. What the binary64 operations give: packing and reading back, rounding that never passes an infinity and
never falls as its operand grows, and a clock that passes the REBUILD checks as a finite positive frequency. -/

namespace Sys2Proof.Binary64

theorem pack_toNat {s : Bool} {m : Nat} (h : m ≤ infBits) : (pack s m).toNat = (if s then 2 ^ 63 else 0) + m := by
  simp only [infBits] at h
  rw [pack, BitVec.toNat_ofNat, Nat.mod_eq_of_lt]
  split <;> omega

@[simp] theorem magBits_pack {s : Bool} {m : Nat} (h : m ≤ infBits) : magBits (pack s m) = m := by
  rw [magBits, pack_toNat h]; simp only [infBits] at h; split <;> omega

@[simp] theorem sign_pack {s : Bool} {m : Nat} (h : m ≤ infBits) : sign (pack s m) = s := by
  rw [sign, pack_toNat h]; simp only [infBits] at h
  cases s
  · simp only [Bool.false_eq_true, if_false, decide_eq_false_iff_not]; omega
  · simp only [if_true, decide_eq_true_eq]; omega

theorem roundBits_le (num den : Nat) : roundBits num den ≤ infBits := Nat.min_le_right _ _

theorem orderKey_pack_false {m : Nat} (h : m ≤ infBits) : orderKey (pack false m) = m := by
  simp [orderKey, sign_pack h, magBits_pack h]

theorem isFinite_eq (x : F64) : isFinite x = (!isNaN x && !isInf x) := by
  simp only [isFinite, isNaN, isInf]
  rw [Bool.eq_iff_iff]
  simp only [decide_eq_true_eq, Bool.and_eq_true, Bool.not_eq_true', decide_eq_false_iff_not, beq_eq_false_iff_ne]
  omega

/-- A value above `+0.0` has a clear sign bit and is not zero. -/
theorem gt_zero {x : F64} (h : gt x zero = true) : isNaN x = false ∧ sign x = false ∧ isZero x = false := by
  simp only [gt, Bool.and_eq_true, Bool.not_eq_true', decide_eq_true_eq] at h
  have h0 : orderKey zero = 0 := by decide
  obtain ⟨⟨h1, -⟩, h2⟩ := h
  rw [h0] at h2
  have hs : sign x = false := by
    cases hs : sign x
    · rfl
    · simp only [orderKey, hs, if_true] at h2; omega
  refine ⟨h1, hs, ?_⟩
  simp only [orderKey, hs, Bool.false_eq_true, if_false] at h2
  simp only [isZero, beq_eq_false_iff_ne]; omega

theorem gt_zero_eq {x : F64} (h : isNaN x = false) : gt x zero = !ge zero x := by
  have h0 : isNaN zero = false := by decide
  simp only [gt, ge, h, h0]
  rw [Bool.eq_iff_iff]; simp

/-- `f64(k)` is a value with a clear sign bit and no NaN. -/
theorem ofNat_sign (k : Nat) : sign (ofNat k) = false := sign_pack (roundBits_le _ _)

theorem ofNat_notNaN (k : Nat) : isNaN (ofNat k) = false := by
  have := roundBits_le (k * 2 ^ 1074) 1
  simp only [isNaN, ofNat, magBits_pack this, decide_eq_false_iff_not]; omega

/-- The product and the quotient of two values with clear sign bits, none a NaN, are no NaN unless the operation is
invalid, and have a clear sign bit. -/
theorem mul_clear {a b : F64} (ha : isNaN a = false) (hb : isNaN b = false) (hsa : sign a = false) (hsb : sign b = false)
    (hai : isInf a = false) (hz : isZero a = false) : isNaN (mul a b) = false ∧ sign (mul a b) = false := by
  unfold mul
  simp only [ha, hb, hai, hz, hsa, hsb, Bool.false_and, Bool.or_self, Bool.false_or, bne_self_eq_false, if_false,
    Bool.false_eq_true]
  have h1 := roundBits_le (units a * units b) (2 ^ 1074)
  split
  · simp only [isNaN, magBits_pack (Nat.le_refl infBits), sign_pack (Nat.le_refl infBits), lt_irrefl, decide_false, and_self]
  · simp only [isNaN, magBits_pack h1, sign_pack h1, decide_eq_false_iff_not, and_true]; omega

theorem div_clear {a b : F64} (ha : isNaN a = false) (hb : isNaN b = false) (hsa : sign a = false) (hsb : sign b = false)
    (hai : isInf a = false) (hz : isZero a = false) : isNaN (div a b) = false ∧ sign (div a b) = false := by
  unfold div
  simp only [ha, hb, hai, hz, hsa, hsb, Bool.false_and, Bool.or_self, Bool.false_or, bne_self_eq_false, if_false,
    Bool.false_eq_true]
  have h1 := roundBits_le (units a * 2 ^ 1074) (units b)
  split
  · simp only [isNaN, magBits_pack (Nat.le_refl infBits), sign_pack (Nat.le_refl infBits), lt_irrefl, decide_false, and_self]
  · split
    · simp only [isNaN, magBits_pack (Nat.zero_le infBits), sign_pack (Nat.zero_le infBits), not_lt_zero, decide_false,
        and_self]
    · simp only [isNaN, magBits_pack h1, sign_pack h1, decide_eq_false_iff_not, and_true]; omega

/-- The quotient of a finite value by a finite positive one. -/
theorem div_eq {a b : F64} (ha : isFinite a = true) (hb : isNaN b = false) (hbi : isInf b = false)
    (hbz : isZero b = false) (hsa : sign a = false) (hsb : sign b = false) :
    div a b = pack false (roundBits (units a * 2 ^ 1074) (units b)) := by
  rw [isFinite_eq, Bool.and_eq_true, Bool.not_eq_true', Bool.not_eq_true'] at ha
  unfold div
  simp [ha.1, ha.2, hb, hbi, hbz, hsa, hsb]

/-! ## Rounding is monotone -/

theorem roundDiv_ge (n d : Nat) : n / d ≤ roundDiv n d := by
  unfold roundDiv; simp only; split <;> (try split) <;> omega

theorem roundDiv_le (n d : Nat) : roundDiv n d ≤ n / d + 1 := by
  unfold roundDiv; simp only; split <;> (try split) <;> omega

theorem roundDiv_mono {n m : Nat} (d : Nat) (h : n ≤ m) : roundDiv n d ≤ roundDiv m d := by
  have hq : n / d ≤ m / d := Nat.div_le_div_right h
  by_cases he : n / d = m / d
  · have hr : n % d ≤ m % d := by
      have h1 := Nat.div_add_mod n d
      have h2 := Nat.div_add_mod m d
      rw [he] at h1; omega
    unfold roundDiv
    simp only [he]
    split <;> split <;> (try split) <;> (try split) <;> omega
  · have h1 := roundDiv_le n d
    have h2 := roundDiv_ge m d
    omega

theorem roundBits_mono {n m : Nat} {d : Nat} (hd : 0 < d) (h : n ≤ m) : roundBits n d ≤ roundBits m d := by
  have hq : n / d ≤ m / d := Nat.div_le_div_right h
  have hle : Nat.log2 (n / d) ≤ Nat.log2 (m / d) := by
    rw [Nat.log2_eq_log_two, Nat.log2_eq_log_two]; exact Nat.log_mono_right hq
  unfold roundBits
  simp only
  generalize he1 : Nat.log2 (n / d) - 52 = e1
  generalize he2 : Nat.log2 (m / d) - 52 = e2
  have hee : e1 ≤ e2 := by omega
  rcases Nat.lt_or_ge e1 e2 with hlt | hge
  · have h1 : roundDiv n (d * 2 ^ e1) ≤ 2 ^ 53 := by
      have : n / d < 2 ^ (e1 + 53) := by
        have h0 : Nat.log2 (n / d) < e1 + 53 := by omega
        exact Nat.lt_log2_self.trans_le (Nat.pow_le_pow_right (by norm_num) h0)
      have : n / (d * 2 ^ e1) < 2 ^ 53 := by
        rw [← Nat.div_div_eq_div_mul, Nat.div_lt_iff_lt_mul (by positivity), ← pow_add]
        rwa [Nat.add_comm 53]
      have := roundDiv_le n (d * 2 ^ e1)
      omega
    have h2 : 2 ^ 52 ≤ roundDiv m (d * 2 ^ e2) := by
      refine le_trans ?_ (roundDiv_ge m _)
      rw [← Nat.div_div_eq_div_mul, Nat.le_div_iff_mul_le (by positivity), ← pow_add]
      have hne : m / d ≠ 0 := by
        intro h0; rw [h0] at he2; simp at he2; omega
      have := Nat.log2_self_le hne
      have h52 : 52 + e2 = Nat.log2 (m / d) := by omega
      rw [h52]; exact this
    have : e1 * 2 ^ 52 + roundDiv n (d * 2 ^ e1) ≤ e2 * 2 ^ 52 + roundDiv m (d * 2 ^ e2) := by
      have : (e1 + 1) * 2 ^ 52 ≤ e2 * 2 ^ 52 := Nat.mul_le_mul_right _ hlt
      omega
    exact min_le_min_right _ this
  · have : e1 = e2 := by omega
    subst this
    exact min_le_min_right _ (Nat.add_le_add_left (roundDiv_mono _ h) _)

/-- The small counts are exact. -/
theorem units_ofNat (c : Fin 512) : units (ofNat c.val) = c.val * 2 ^ 1074 ∧ isFinite (ofNat c.val) = true := by
  revert c; decide +kernel

end Sys2Proof.Binary64

namespace Sys2Proof.Machine

/-- A clock that passes the REBUILD checks has a finite positive frequency. -/
theorem mhz_clear {cf : ClockFactor} {x : F64} (h : clockOk cf x = true) :
    Binary64.isNaN (mhz cf x) = false ∧ Binary64.isInf (mhz cf x) = false ∧ Binary64.isZero (mhz cf x) = false ∧
      Binary64.sign (mhz cf x) = false := by
  simp only [clockOk, Bool.and_eq_true, Bool.not_eq_true'] at h
  obtain ⟨⟨⟨⟨-, hf⟩, hg⟩, hi⟩, hz⟩ := h
  rw [Binary64.isFinite_eq, Bool.and_eq_true, Bool.not_eq_true', Bool.not_eq_true'] at hf
  obtain ⟨hn, hs, hz0⟩ := Binary64.gt_zero hg
  have : Binary64.isNaN (mhz cf x) = false ∧ Binary64.sign (mhz cf x) = false := by
    unfold mhz
    cases cf.kind
    · exact Binary64.div_clear hn (Binary64.ofNat_notNaN _) hs (Binary64.ofNat_sign _) hf.2 hz0
    · exact Binary64.mul_clear hn (Binary64.ofNat_notNaN _) hs (Binary64.ofNat_sign _) hf.2 hz0
  exact ⟨this.1, hi, hz, this.2⟩

end Sys2Proof.Machine
end

