-- ==== Sys2Proof/Laws/Cells.lean ====
section
/-! SUPPORT. Laws of memory cells (`readCell`, `writeCell`): read after write, and the canonical form. -/

namespace Sys2Proof.Machine

@[simp] theorem readCell_nil (a : Nat) : readCell [] a = 0#8 := rfl

theorem readCell_cons (p : Nat) (v : Byte) (m : Cells) (a : Nat) :
    readCell ((p, v) :: m) a = if p = a then v else readCell m a := rfl

theorem readCell_insertCell (m : Cells) (a : Nat) (v : Byte) (x : Nat) :
    readCell (insertCell a v m) x = if x = a then v else readCell m x := by
  induction m with
  | nil => simp [insertCell, readCell_cons, eq_comm]
  | cons c m ih =>
    obtain ⟨p, w⟩ := c
    simp only [insertCell]
    split
    · simp [readCell_cons, eq_comm]
    · split
      · subst_vars; simp only [readCell_cons]; grind
      · simp only [readCell_cons, ih]; grind

/-- A predicate on addresses filters what is read: a dropped address reads 0x00. -/
theorem readCell_filter (m : Cells) (keep : Nat → Bool) (x : Nat) :
    readCell (m.filter fun c => keep c.1) x = if keep x then readCell m x else 0#8 := by
  induction m with
  | nil => simp
  | cons c m ih =>
    obtain ⟨p, w⟩ := c
    by_cases hp : keep p = true
    · simp only [List.filter_cons, hp, if_true, readCell_cons, ih]; grind
    · simp only [List.filter_cons, hp, readCell_cons]; grind

/-- Read after write: the written address gives the byte written, every other address what it gave. -/
theorem readCell_writeCell (m : Cells) (a : Nat) (v : Byte) (x : Nat) :
    readCell (writeCell m a v) x = if x = a then v else readCell m x := by
  unfold writeCell
  split
  · have := readCell_filter m (fun y => decide (y ≠ a)) x
    simp only [this, decide_eq_true_eq]; grind
  · exact readCell_insertCell m a v x

@[simp] theorem readCell_writeCell_same (m : Cells) (a : Nat) (v : Byte) : readCell (writeCell m a v) a = v := by
  simp [readCell_writeCell]

theorem readCell_writeCell_other (m : Cells) {a x : Nat} (v : Byte) (h : x ≠ a) :
    readCell (writeCell m a v) x = readCell m x := by
  simp [readCell_writeCell, h]

/-! ## The canonical form -/

theorem risingCells_iff (l : List Host.Cell) : risingCells l = true ↔ l.Pairwise (fun c d => c.1 < d.1) := by
  induction l with
  | nil => simp [risingCells]
  | cons c l ih =>
    cases l with
    | nil => simp [risingCells]
    | cons d l =>
      obtain ⟨p, v⟩ := c
      obtain ⟨q, w⟩ := d
      simp only [risingCells, Bool.and_eq_true, decide_eq_true_eq, ih, List.pairwise_cons, List.mem_cons,
        forall_eq_or_imp]
      constructor
      · rintro ⟨h, h1, h2⟩
        exact ⟨⟨h, fun x hx => Nat.lt_trans h (h1 x hx)⟩, h1, h2⟩
      · rintro ⟨⟨h, _⟩, h1, h2⟩
        exact ⟨h, h1, h2⟩

theorem Cells.wf_iff (size : Nat) (m : Cells) :
    Cells.wf size m = true ↔
      m.Pairwise (fun c d => c.1 < d.1) ∧ (∀ c ∈ m, c.1 < size) ∧ ∀ c ∈ m, c.2 ≠ 0#8 := by
  simp only [Cells.wf, Bool.and_eq_true, risingCells_iff, List.all_eq_true, decide_eq_true_eq, bne_iff_ne, and_assoc]

theorem mem_insertCell {a : Nat} {v : Byte} {m : Cells} {c : Host.Cell} (h : c ∈ insertCell a v m) :
    c = (a, v) ∨ c ∈ m := by
  induction m with
  | nil => simpa [insertCell] using h
  | cons d m ih =>
    obtain ⟨p, w⟩ := d
    simp only [insertCell] at h
    split at h
    · simpa using h
    · split at h <;> grind

theorem insertCell_rising (a : Nat) (v : Byte) (m : Cells) (h : m.Pairwise (fun c d => c.1 < d.1)) :
    (insertCell a v m).Pairwise (fun c d => c.1 < d.1) := by
  induction m with
  | nil => simp [insertCell]
  | cons d m ih =>
    obtain ⟨p, w⟩ := d
    obtain ⟨h1, h2⟩ := List.pairwise_cons.1 h
    simp only [insertCell]
    split
    · rename_i hlt
      refine List.pairwise_cons.2 ⟨?_, h⟩
      rintro c hc
      rcases List.mem_cons.1 hc with rfl | hc
      · exact hlt
      · exact Nat.lt_trans hlt (h1 c hc)
    · split
      · rename_i _ he; subst he
        exact List.pairwise_cons.2 ⟨h1, h2⟩
      · rename_i h3 h4
        refine List.pairwise_cons.2 ⟨?_, ih h2⟩
        intro c hc
        rcases mem_insertCell hc with rfl | hc
        · show p < a; omega
        · exact h1 c hc

/-- Every write keeps the canonical form. -/
theorem writeCell_wf (size : Nat) (m : Cells) (a : Nat) (v : Byte) (ha : a < size) (h : Cells.wf size m = true) :
    Cells.wf size (writeCell m a v) = true := by
  rw [Cells.wf_iff] at h ⊢
  obtain ⟨h1, h2, h3⟩ := h
  unfold writeCell
  split
  · exact ⟨h1.filter _, fun c hc => h2 c (List.mem_filter.1 hc).1, fun c hc => h3 c (List.mem_filter.1 hc).1⟩
  · refine ⟨insertCell_rising a v m h1, fun c hc => ?_, fun c hc => ?_⟩
    · rcases mem_insertCell hc with rfl | hc
      exacts [ha, h2 c hc]
    · rcases mem_insertCell hc with rfl | hc
      exacts [by assumption, h3 c hc]

/-- Dropping cells keeps the canonical form. -/
theorem filter_wf (size : Nat) (m : Cells) (keep : Host.Cell → Bool) (h : Cells.wf size m = true) :
    Cells.wf size (m.filter keep) = true := by
  rw [Cells.wf_iff] at h ⊢
  obtain ⟨h1, h2, h3⟩ := h
  exact ⟨h1.filter _, fun c hc => h2 c (List.mem_filter.1 hc).1, fun c hc => h3 c (List.mem_filter.1 hc).1⟩

theorem readCell_of_all_greater {m : Cells} {a : Nat} (h : ∀ c ∈ m, a < c.1) : readCell m a = 0#8 := by
  induction m with
  | nil => rfl
  | cons c m ih =>
    obtain ⟨p, v⟩ := c
    have hp : a < p := h (p, v) (by simp)
    rw [readCell_cons, if_neg (by omega)]
    exact ih fun c hc => h c (by simp [hc])

/-- Canonical lists that read alike are equal. -/
theorem cells_ext {size : Nat} {m m' : Cells} (h : Cells.wf size m = true) (h' : Cells.wf size m' = true)
    (hr : ∀ a, readCell m a = readCell m' a) : m = m' := by
  rw [Cells.wf_iff] at h h'
  induction m generalizing m' with
  | nil =>
    cases m' with
    | nil => rfl
    | cons d m' =>
      obtain ⟨q, w⟩ := d
      exact absurd (by simpa [readCell_cons] using (hr q).symm) (h'.2.2 (q, w) (by simp))
  | cons c m ih =>
    obtain ⟨p, v⟩ := c
    obtain ⟨⟨h1, h2⟩, h3, h4⟩ := And.intro (List.pairwise_cons.1 h.1) h.2
    have hv : v ≠ 0#8 := h4 (p, v) (by simp)
    cases m' with
    | nil => exact absurd (by simpa [readCell_cons] using hr p) hv
    | cons d m' =>
      obtain ⟨q, w⟩ := d
      obtain ⟨⟨k1, k2⟩, k3, k4⟩ := And.intro (List.pairwise_cons.1 h'.1) h'.2
      have hw : w ≠ 0#8 := k4 (q, w) (by simp)
      have hpq : p = q := by
        rcases Nat.lt_trichotomy p q with hlt | he | hlt
        · have e := hr p
          rw [readCell_of_all_greater (m := (q, w) :: m') (fun c hc => by
            rcases List.mem_cons.1 hc with rfl | hc
            exacts [hlt, Nat.lt_trans hlt (k1 c hc)])] at e
          exact absurd (by simpa [readCell_cons] using e) hv
        · exact he
        · have e := hr q
          rw [readCell_of_all_greater (m := (p, v) :: m) (fun c hc => by
            rcases List.mem_cons.1 hc with rfl | hc
            exacts [hlt, Nat.lt_trans hlt (h1 c hc)])] at e
          exact absurd (by simpa [readCell_cons] using e.symm) hw
      subst hpq
      have hvw : v = w := by simpa [readCell_cons] using hr p
      subst hvw
      refine congrArg _ (ih ⟨h2, fun c hc => h3 c (by simp [hc]), fun c hc => h4 c (by simp [hc])⟩
        ⟨k2, fun c hc => k3 c (by simp [hc]), fun c hc => k4 c (by simp [hc])⟩ fun a => ?_)
      by_cases ha : p = a
      · subst ha
        rw [readCell_of_all_greater h1, readCell_of_all_greater k1]
      · simpa [readCell_cons, ha] using hr a

end Sys2Proof.Machine
end

