-- ==== Sys2Proof/Laws/Clock.lean ====
section
/-! SUPPORT. Laws of the conversions and of vectors built by `tabulate`. -/

namespace Sys2Proof.Machine

theorem tabulateFrom_getElem {α : Type} (f : Nat → α) (n k i : Nat) (h : i < (tabulateFrom f n k).length) :
    (tabulateFrom f n k)[i] = f (k + i) := by
  induction n generalizing k i with
  | zero => simp [tabulateFrom] at h
  | succ n ih =>
    cases i with
    | zero => rfl
    | succ i =>
      simp only [tabulateFrom, List.getElem_cons_succ]
      rw [ih]; congr 1; omega

theorem mem_tabulateFrom {α : Type} {f : Nat → α} {n k : Nat} {x : α} :
    x ∈ tabulateFrom f n k ↔ ∃ i, k ≤ i ∧ i < k + n ∧ f i = x := by
  induction n generalizing k with
  | zero => simp [tabulateFrom]; omega
  | succ n ih =>
    simp only [tabulateFrom, List.mem_cons, ih]
    constructor
    · rintro (rfl | ⟨i, h1, h2, rfl⟩)
      exacts [⟨k, by omega, by omega, rfl⟩, ⟨i, by omega, by omega, rfl⟩]
    · rintro ⟨i, h1, h2, rfl⟩
      rcases Nat.eq_or_lt_of_le h1 with rfl | h
      exacts [.inl rfl, .inr ⟨i, by omega, by omega, rfl⟩]

@[simp] theorem tabulate_getElem {α : Type} (n : Nat) (f : Nat → α) (i : Nat) (h : i < n) :
    (tabulate n f)[i] = f i := by
  simp [tabulate, tabulateFrom_getElem]

@[simp] theorem tabulate_get {α : Type} (n : Nat) (f : Nat → α) (i : Fin n) : (tabulate n f).get i = f i.val := by
  rw [Vector.get_eq_getElem, tabulate_getElem]

theorem vector_get_set {α : Type} {n : Nat} (v : Vector α n) (i j : Fin n) (x : α) :
    (v.set i.val x i.isLt).get j = if j = i then x else v.get j := by
  simp only [Vector.get_eq_getElem, Vector.getElem_set, Fin.ext_iff, eq_comm]

theorem vector_ext_get {α : Type} {n : Nat} {v w : Vector α n} (h : ∀ i : Fin n, v.get i = w.get i) : v = w :=
  Vector.ext fun i hi => by simpa [Vector.get_eq_getElem] using h ⟨i, hi⟩

/-- An entry of the table is the pair of R82. -/
@[simp] theorem buildTable_get (cf : ClockFactor) (x : F64) (i : Fin 512) :
    (buildTable cf x).get i = tableEntry cf (mhz cf x) i.val :=
  tabulate_get 512 _ i

/-- `ceil_div` is the quotient rounded up. -/
theorem ceilDiv_le_iff {n : Nat} (hn : 1 ≤ n) (x k : Nat) : ceilDiv x n ≤ k ↔ x ≤ k * n := by
  unfold ceilDiv
  rw [Nat.div_le_iff_le_mul_add_pred hn, Nat.mul_comm k n]; omega

theorem ceilDiv_le (x n : Nat) (hn : 1 ≤ n) : ceilDiv x n ≤ x :=
  (ceilDiv_le_iff hn x x).2 (Nat.le_mul_of_pos_right x hn)

theorem ceilDiv_mono {x y n : Nat} (hn : 1 ≤ n) (h : x ≤ y) : ceilDiv x n ≤ ceilDiv y n :=
  Nat.div_le_div_right (by omega)

/-- A conversion of a count that fits `k` bits fits `k + 32` bits, whatever the factor (R83). -/
theorem conv_lt (cf : ClockFactor) (x k : Nat) (hn : 1 ≤ cf.n.toNat) (hx : x < 2 ^ k) : conv cf x < 2 ^ (k + 32) := by
  have hn2 := cf.n.isLt
  unfold conv
  split
  · exact Nat.lt_of_le_of_lt (ceilDiv_le x _ hn) (Nat.lt_of_lt_of_le hx (Nat.pow_le_pow_right (by omega) (by omega)))
  · rw [Nat.pow_add]; exact Nat.mul_lt_mul'' hx hn2

/-- No reported wait wraps (R83). -/
theorem waitCycles_toNat (cf : ClockFactor) (w : BitVec 32) (hn : 1 ≤ cf.n.toNat) :
    (waitCycles cf w).toNat = conv cf w.toNat := by
  rw [waitCycles, BitVec.toNat_ofNat, Nat.mod_eq_of_lt (conv_lt cf _ 32 hn w.isLt)]

/-- No tick count of the table wraps (R83). -/
theorem tableEntry_ticks_toNat (cf : ClockFactor) (m : F64) (c : Nat) (hn : 1 ≤ cf.n.toNat) (hc : c < 512) :
    (tableEntry cf m c).ticks.toNat = conv cf c := by
  have h := conv_lt cf c 9 hn hc
  rw [tableEntry, BitVec.toNat_ofNat, Nat.mod_eq_of_lt (Nat.lt_of_lt_of_le h (by norm_num))]

theorem clockOk_n {cf : ClockFactor} {x : F64} (h : clockOk cf x = true) : 1 ≤ cf.n.toNat := by
  simp only [clockOk, Bool.and_eq_true, bne_iff_ne, ne_eq] at h
  have : cf.n.toNat ≠ 0 := fun e => h.1.1.1.1 (BitVec.eq_of_toNat_eq (by simpa using e))
  omega

/-- Construction refuses exactly the clocks that fail the checks. -/
theorem constructClock_eq_none {cf : ClockFactor} {x : F64} : constructClock cf x = none ↔ clockOk cf x = false := by
  unfold constructClock; split <;> simp_all

theorem constructClock_of_ok {cf : ClockFactor} {x : F64} (h : clockOk cf x = true) :
    constructClock cf x = some ⟨cf, x, h⟩ := dif_pos h

end Sys2Proof.Machine
end

