-- ==== Sys2Proof/Laws/Flags.lean ====
section
/-! SUPPORT. Laws of the flags array (`flagAt`, `mapFlags`): what a range change does to each byte, and the
canonical form. -/

namespace Sys2Proof.Machine

/-! ## Bits -/

theorem and_flagRom (v : Byte) : v &&& flagRom ≠ 0#8 ↔ v.getLsbD 0 = true := by
  revert v; decide +kernel

theorem and_flagMmio (v : Byte) : v &&& flagMmio ≠ 0#8 ↔ v.getLsbD 5 = true := by
  revert v; decide +kernel

theorem romAt_iff (fl : FlagMap) (a : Nat) : romAt fl a = true ↔ flagAt fl a &&& flagRom ≠ 0#8 := by
  simp [romAt]

theorem mmioAt_iff (fl : FlagMap) (a : Nat) : mmioAt fl a = true ↔ flagAt fl a &&& flagMmio ≠ 0#8 := by
  simp [mmioAt]

/-- SETFLAGS keeps a ROM bit that is set, the MMIO bit and bits 7:6, whatever its mask (R109). -/
theorem setMask_keeps_rom (v m : Byte) (h : v &&& flagRom ≠ 0#8) : (v ||| (m &&& setMask)) &&& flagRom ≠ 0#8 := by
  rw [and_flagRom] at h ⊢; simp [h]

theorem setMask_keeps_mmio (v m : Byte) : (v ||| (m &&& setMask)) &&& flagMmio = v &&& flagMmio := by
  ext i hi; interval_cases i <;> simp [setMask, flagMmio]

theorem setMask_keeps_reserved (v m : Byte) : (v ||| (m &&& setMask)) &&& 0xC0#8 = v &&& 0xC0#8 := by
  ext i hi; interval_cases i <;> simp [setMask]

/-- CLRFLAGS keeps the ROM bit, the MMIO bit and bits 7:6, whatever its mask (R110). -/
theorem clearMask_keeps_rom (v m : Byte) : (v &&& ~~~(m &&& clearMask)) &&& flagRom = v &&& flagRom := by
  ext i hi; interval_cases i <;> simp [clearMask, flagRom]

theorem clearMask_keeps_mmio (v m : Byte) : (v &&& ~~~(m &&& clearMask)) &&& flagMmio = v &&& flagMmio := by
  ext i hi; interval_cases i <;> simp [clearMask, flagMmio]

theorem clearMask_keeps_reserved (v m : Byte) : (v &&& ~~~(m &&& clearMask)) &&& 0xC0#8 = v &&& 0xC0#8 := by
  ext i hi; interval_cases i <;> simp [clearMask]

/-- RESET keeps the ROM bit and the MMIO bit, and clears bits 7:6 if they were set (R115). -/
theorem resetMask_keeps_rom (v : Byte) : (v &&& resetKeepMask) &&& flagRom = v &&& flagRom := by
  ext i hi; interval_cases i <;> simp [resetKeepMask, flagRom]

theorem resetMask_keeps_mmio (v : Byte) : (v &&& resetKeepMask) &&& flagMmio = v &&& flagMmio := by
  ext i hi; interval_cases i <;> simp [resetKeepMask, flagMmio]

theorem resetMask_reserved (v : Byte) : (v &&& resetKeepMask) &&& 0xC0#8 = 0#8 := by
  ext i hi; interval_cases i <;> simp [resetKeepMask]

/-- Registration keeps every bit but the MMIO bit (R106). -/
theorem orMmio_keeps_rom (v : Byte) : (v ||| flagMmio) &&& flagRom = v &&& flagRom := by
  ext i hi; interval_cases i <;> simp [flagMmio, flagRom]

theorem orMmio_reserved (v : Byte) : (v ||| flagMmio) &&& 0xC0#8 = v &&& 0xC0#8 := by
  ext i hi; interval_cases i <;> simp [flagMmio]

theorem orMmio_mmio (v : Byte) : (v ||| flagMmio) &&& flagMmio ≠ 0#8 := by
  rw [and_flagMmio]; simp [flagMmio]

/-! ## Points -/

theorem mem_insertPoint {p x : Nat} {l : List Nat} : x ∈ insertPoint p l ↔ x = p ∨ x ∈ l := by
  induction l with
  | nil => simp [insertPoint]
  | cons q l ih => simp only [insertPoint]; grind

theorem insertPoint_rising (p : Nat) (l : List Nat) (h : l.Pairwise (· < ·)) : (insertPoint p l).Pairwise (· < ·) := by
  induction l with
  | nil => simp [insertPoint]
  | cons q l ih =>
    obtain ⟨h1, h2⟩ := List.pairwise_cons.1 h
    simp only [insertPoint]
    split
    · rename_i hlt
      refine List.pairwise_cons.2 ⟨fun x hx => ?_, h⟩
      rcases List.mem_cons.1 hx with rfl | hx
      exacts [hlt, Nat.lt_trans hlt (h1 x hx)]
    · split
      · exact h
      · refine List.pairwise_cons.2 ⟨fun x hx => ?_, ih h2⟩
        rcases mem_insertPoint.1 hx with rfl | hx
        exacts [by omega, h1 x hx]

theorem mem_sortPoints {x : Nat} {l : List Nat} : x ∈ sortPoints l ↔ x ∈ l := by
  induction l with
  | nil => simp [sortPoints]
  | cons q l ih => simp [sortPoints, mem_insertPoint, ih]

theorem sortPoints_rising (l : List Nat) : (sortPoints l).Pairwise (· < ·) := by
  induction l with
  | nil => simp [sortPoints]
  | cons q l ih => exact insertPoint_rising q _ ih

/-! ## Walking a list of points -/

@[simp] theorem flagAt_nil (a : Nat) : flagAt [] a = 0#8 := rfl

theorem flagWalk_of_all_greater {cur : Byte} {l : FlagMap} {a : Nat} (h : ∀ c ∈ l, a < c.1) :
    flagWalk cur l a = cur := by
  cases l with
  | nil => rfl
  | cons c l => obtain ⟨p, v⟩ := c; simp [flagWalk, h (p, v) (by simp)]

/-- The byte at `a` is that of the last point at or below `a`. -/
theorem flagWalk_points {g : Nat → Byte} {a q : Nat} :
    ∀ {ps : List Nat} {cur : Byte}, ps.Pairwise (· < ·) → q ∈ ps → q ≤ a → (∀ p ∈ ps, p ≤ q ∨ a < p) →
      flagWalk cur (ps.map fun p => (p, g p)) a = g q := by
  intro ps
  induction ps with
  | nil => intro cur _ hq; simp at hq
  | cons r ps ih =>
    intro cur hs hq hqa hgap
    obtain ⟨h1, h2⟩ := List.pairwise_cons.1 hs
    rcases List.mem_cons.1 hq with rfl | hq'
    · rw [List.map_cons, flagWalk, if_neg (by omega)]
      refine flagWalk_of_all_greater fun c hc => ?_
      obtain ⟨p, hp, rfl⟩ := List.mem_map.1 hc
      have := h1 p hp
      rcases hgap p (by simp [hp]) with h | h <;> omega
    · have := h1 q hq'
      rw [List.map_cons, flagWalk, if_neg (by omega)]
      exact ih h2 hq' hqa fun p hp => hgap p (by simp [hp])

theorem flagWalk_dropRepeats {l : FlagMap} {a : Nat} (h : l.Pairwise (fun c d => c.1 < d.1)) (cur : Byte) :
    flagWalk cur (dropRepeats cur l) a = flagWalk cur l a := by
  induction l generalizing cur with
  | nil => rfl
  | cons c l ih =>
    obtain ⟨p, v⟩ := c
    obtain ⟨h1, h2⟩ := List.pairwise_cons.1 h
    simp only [dropRepeats]
    split
    · rename_i hv; subst hv
      rw [ih h2]
      simp only [flagWalk]
      split
      · exact flagWalk_of_all_greater fun c hc => Nat.lt_trans (by assumption) (h1 c hc)
      · rfl
    · simp only [flagWalk, ih h2]

theorem flagWalk_congr {l : FlagMap} {a a' : Nat} (cur : Byte) (h : ∀ c ∈ l, a < c.1 ↔ a' < c.1) :
    flagWalk cur l a = flagWalk cur l a' := by
  induction l generalizing cur with
  | nil => rfl
  | cons c l ih =>
    obtain ⟨p, v⟩ := c
    simp only [flagWalk, h (p, v) (by simp), ih v fun c hc => h c (by simp [hc])]

/-- The largest point at or below `a`. -/
theorem exists_last_point (ps : List Nat) (a : Nat) (h0 : 0 ∈ ps) : ∃ q ∈ ps, q ≤ a ∧ ∀ p ∈ ps, p ≤ q ∨ a < p := by
  induction a with
  | zero => exact ⟨0, h0, Nat.le_refl 0, fun p _ => by omega⟩
  | succ a ih =>
    by_cases h : a + 1 ∈ ps
    · exact ⟨a + 1, h, Nat.le_refl _, fun p _ => by omega⟩
    · obtain ⟨q, hq, hqa, hgap⟩ := ih
      refine ⟨q, hq, by omega, fun p hp => ?_⟩
      have : p ≠ a + 1 := fun e => h (e ▸ hp)
      rcases hgap p hp with h | h <;> omega

theorem points_rising (g : Nat → Byte) (ps : List Nat) (h : ps.Pairwise (· < ·)) :
    (ps.map fun p => (p, g p)).Pairwise (fun c d : Host.Cell => c.1 < d.1) :=
  List.pairwise_map.2 h

/-- `buildFlags` gives an array whose byte at `a` is `g a`, if `g` changes at the points only. -/
theorem flagAt_buildFlags (g : Nat → Byte) (points : List Nat) (a : Nat) (ha : a < memSize)
    (hg : ∀ q, q ≤ a → (∀ p ∈ points, p ≤ q ∨ a < p) → g q = g a) : flagAt (buildFlags g points) a = g a := by
  have hs : ((sortPoints (0 :: points)).filter (· < memSize)).Pairwise (· < ·) := (sortPoints_rising _).filter _
  obtain ⟨q, hq, hqa, hgap⟩ := exists_last_point ((sortPoints (0 :: points)).filter (· < memSize)) a
    (List.mem_filter.2 ⟨mem_sortPoints.2 (by simp), by simp⟩)
  rw [flagAt, buildFlags, flagWalk_dropRepeats (points_rising g _ hs), flagWalk_points hs hq hqa hgap]
  refine hg q hqa fun p hp => ?_
  by_cases hpa : a < p
  · exact Or.inr hpa
  · refine hgap p (List.mem_filter.2 ⟨mem_sortPoints.2 (by simp [hp]), ?_⟩)
    simp only [decide_eq_true_eq]; omega

/-- A range change does `f` to every flags byte of the range and nothing to any other. -/
theorem flagAt_mapFlags (f : Byte → Byte) (lo hi : Nat) (fl : FlagMap) (a : Nat) (ha : a < memSize) :
    flagAt (mapFlags f lo hi fl) a = if lo ≤ a ∧ a < hi then f (flagAt fl a) else flagAt fl a := by
  rw [mapFlags, flagAt_buildFlags _ _ a ha]
  intro q hqa hgap
  have e : flagAt fl q = flagAt fl a := by
    refine flagWalk_congr _ fun c hc => ?_
    have := hgap c.1 (by simp only [List.mem_cons, List.mem_map]; exact Or.inr (Or.inr ⟨c, hc, rfl⟩))
    omega
  have h1 := hgap lo (by simp)
  have h2 := hgap hi (by simp)
  have : (lo ≤ q ∧ q < hi) ↔ (lo ≤ a ∧ a < hi) := by omega
  simp only [this, e]

/-! ## The canonical form -/

theorem dropRepeats_sublist (cur : Byte) (l : FlagMap) : (dropRepeats cur l).Sublist l := by
  induction l generalizing cur with
  | nil => exact List.Sublist.refl _
  | cons c l ih =>
    obtain ⟨p, v⟩ := c
    simp only [dropRepeats]
    split
    · exact (ih cur).cons _
    · exact (ih v).cons_cons _

theorem flagsChange_dropRepeats (cur : Byte) (l : FlagMap) : flagsChange cur (dropRepeats cur l) = true := by
  induction l generalizing cur with
  | nil => rfl
  | cons c l ih =>
    obtain ⟨p, v⟩ := c
    simp only [dropRepeats]
    split
    · exact ih cur
    · simp only [flagsChange, ih v, Bool.and_true]; simpa using by assumption

/-- Every flags array that `buildFlags` gives is in canonical form. -/
theorem buildFlags_wf (g : Nat → Byte) (points : List Nat) : FlagMap.wf (buildFlags g points) = true := by
  have hs : ((sortPoints (0 :: points)).filter (· < memSize)).Pairwise (· < ·) := (sortPoints_rising _).filter _
  simp only [FlagMap.wf, Bool.and_eq_true, risingCells_iff, List.all_eq_true, decide_eq_true_eq, buildFlags]
  refine ⟨⟨(points_rising g _ hs).sublist (dropRepeats_sublist _ _), fun c hc => ?_⟩, flagsChange_dropRepeats _ _⟩
  obtain ⟨p, hp, rfl⟩ := List.mem_map.1 ((dropRepeats_sublist _ _).subset hc)
  simpa using (List.mem_filter.1 hp).2

/-- A range change leaves the flags array in canonical form. -/
theorem mapFlags_wf (f : Byte → Byte) (lo hi : Nat) (fl : FlagMap) : FlagMap.wf (mapFlags f lo hi fl) = true :=
  buildFlags_wf _ _

end Sys2Proof.Machine
end

