-- ==== Sys2Proof/Laws/State.lean ====
section
/-! SUPPORT. The fields of a state after each shared update of it, one lemma per field, and the slots after each
shared update of them. -/

namespace Sys2Proof.Machine

@[simp] theorem raiseFault_mem (f : FaultCode) (s : State) : (raiseFault f s).mem = s.mem := rfl
@[simp] theorem raiseFault_flags (f : FaultCode) (s : State) : (raiseFault f s).flags = s.flags := rfl
@[simp] theorem raiseFault_cf (f : FaultCode) (s : State) : (raiseFault f s).cf = s.cf := rfl
@[simp] theorem raiseFault_crystal (f : FaultCode) (s : State) : (raiseFault f s).crystal = s.crystal := rfl
@[simp] theorem raiseFault_convSize (f : FaultCode) (s : State) : (raiseFault f s).convSize = s.convSize := rfl
@[simp] theorem raiseFault_installed (f : FaultCode) (s : State) : (raiseFault f s).installed = s.installed := rfl
@[simp] theorem raiseFault_table (f : FaultCode) (s : State) : (raiseFault f s).table = s.table := rfl
@[simp] theorem raiseFault_maplist (f : FaultCode) (s : State) : (raiseFault f s).maplist = s.maplist := rfl
@[simp] theorem raiseFault_fastmap (f : FaultCode) (s : State) : (raiseFault f s).fastmap = s.fastmap := rfl
@[simp] theorem raiseFault_portmap (f : FaultCode) (s : State) : (raiseFault f s).portmap = s.portmap := rfl
@[simp] theorem raiseFault_slots (f : FaultCode) (s : State) : (raiseFault f s).slots = s.slots := rfl
@[simp] theorem raiseFault_kbAcc (f : FaultCode) (s : State) : (raiseFault f s).kbAcc = s.kbAcc := rfl
@[simp] theorem raiseFault_phaseAdj (f : FaultCode) (s : State) : (raiseFault f s).phaseAdj = s.phaseAdj := rfl
@[simp] theorem raiseFault_refresh (f : FaultCode) (s : State) : (raiseFault f s).refresh = s.refresh := rfl
@[simp] theorem raiseFault_refReload (f : FaultCode) (s : State) : (raiseFault f s).refReload = s.refReload := rfl
@[simp] theorem raiseFault_vidAcc (f : FaultCode) (s : State) : (raiseFault f s).vidAcc = s.vidAcc := rfl
@[simp] theorem raiseFault_fault (f : FaultCode) (s : State) : (raiseFault f s).fault = f.code := rfl
@[simp] theorem raiseFault_response (f : FaultCode) (s : State) : (raiseFault f s).response = some { status := f.code } := rfl
@[simp] theorem raiseFault_pending (f : FaultCode) (s : State) : (raiseFault f s).pending = s.pending := rfl

@[simp] theorem setVideo_mem (s : State) (t : Tag) (v : VideoState) : (setVideo s t v).mem = s.mem := rfl
@[simp] theorem setVideo_flags (s : State) (t : Tag) (v : VideoState) : (setVideo s t v).flags = s.flags := rfl
@[simp] theorem setVideo_cf (s : State) (t : Tag) (v : VideoState) : (setVideo s t v).cf = s.cf := rfl
@[simp] theorem setVideo_crystal (s : State) (t : Tag) (v : VideoState) : (setVideo s t v).crystal = s.crystal := rfl
@[simp] theorem setVideo_convSize (s : State) (t : Tag) (v : VideoState) : (setVideo s t v).convSize = s.convSize := rfl
@[simp] theorem setVideo_installed (s : State) (t : Tag) (v : VideoState) : (setVideo s t v).installed = s.installed := rfl
@[simp] theorem setVideo_table (s : State) (t : Tag) (v : VideoState) : (setVideo s t v).table = s.table := rfl
@[simp] theorem setVideo_maplist (s : State) (t : Tag) (v : VideoState) : (setVideo s t v).maplist = s.maplist := rfl
@[simp] theorem setVideo_fastmap (s : State) (t : Tag) (v : VideoState) : (setVideo s t v).fastmap = s.fastmap := rfl
@[simp] theorem setVideo_portmap (s : State) (t : Tag) (v : VideoState) : (setVideo s t v).portmap = s.portmap := rfl
@[simp] theorem setVideo_slots (s : State) (t : Tag) (v : VideoState) : (setVideo s t v).slots = setVideoSlot s.slots t v := rfl
@[simp] theorem setVideo_kbAcc (s : State) (t : Tag) (v : VideoState) : (setVideo s t v).kbAcc = s.kbAcc := rfl
@[simp] theorem setVideo_phaseAdj (s : State) (t : Tag) (v : VideoState) : (setVideo s t v).phaseAdj = s.phaseAdj := rfl
@[simp] theorem setVideo_refresh (s : State) (t : Tag) (v : VideoState) : (setVideo s t v).refresh = s.refresh := rfl
@[simp] theorem setVideo_refReload (s : State) (t : Tag) (v : VideoState) : (setVideo s t v).refReload = s.refReload := rfl
@[simp] theorem setVideo_vidAcc (s : State) (t : Tag) (v : VideoState) : (setVideo s t v).vidAcc = s.vidAcc := rfl
@[simp] theorem setVideo_fault (s : State) (t : Tag) (v : VideoState) : (setVideo s t v).fault = s.fault := rfl
@[simp] theorem setVideo_response (s : State) (t : Tag) (v : VideoState) : (setVideo s t v).response = s.response := rfl
@[simp] theorem setVideo_pending (s : State) (t : Tag) (v : VideoState) : (setVideo s t v).pending = s.pending := rfl

@[simp] theorem issueNext_mem (x : Transfer) (s : State) : (issueNext x s).mem = s.mem := rfl
@[simp] theorem issueNext_flags (x : Transfer) (s : State) : (issueNext x s).flags = s.flags := rfl
@[simp] theorem issueNext_cf (x : Transfer) (s : State) : (issueNext x s).cf = s.cf := rfl
@[simp] theorem issueNext_crystal (x : Transfer) (s : State) : (issueNext x s).crystal = s.crystal := rfl
@[simp] theorem issueNext_convSize (x : Transfer) (s : State) : (issueNext x s).convSize = s.convSize := rfl
@[simp] theorem issueNext_installed (x : Transfer) (s : State) : (issueNext x s).installed = s.installed := rfl
@[simp] theorem issueNext_table (x : Transfer) (s : State) : (issueNext x s).table = s.table := rfl
@[simp] theorem issueNext_maplist (x : Transfer) (s : State) : (issueNext x s).maplist = s.maplist := rfl
@[simp] theorem issueNext_fastmap (x : Transfer) (s : State) : (issueNext x s).fastmap = s.fastmap := rfl
@[simp] theorem issueNext_portmap (x : Transfer) (s : State) : (issueNext x s).portmap = s.portmap := rfl
@[simp] theorem issueNext_slots (x : Transfer) (s : State) : (issueNext x s).slots = s.slots := rfl
@[simp] theorem issueNext_kbAcc (x : Transfer) (s : State) : (issueNext x s).kbAcc = s.kbAcc := rfl
@[simp] theorem issueNext_phaseAdj (x : Transfer) (s : State) : (issueNext x s).phaseAdj = s.phaseAdj := rfl
@[simp] theorem issueNext_refresh (x : Transfer) (s : State) : (issueNext x s).refresh = s.refresh := rfl
@[simp] theorem issueNext_refReload (x : Transfer) (s : State) : (issueNext x s).refReload = s.refReload := rfl
@[simp] theorem issueNext_vidAcc (x : Transfer) (s : State) : (issueNext x s).vidAcc = s.vidAcc := rfl
@[simp] theorem issueNext_fault (x : Transfer) (s : State) : (issueNext x s).fault = s.fault := rfl
@[simp] theorem issueNext_response (x : Transfer) (s : State) : (issueNext x s).response = s.response := rfl
@[simp] theorem issueNext_pending (x : Transfer) (s : State) : (issueNext x s).pending = x :: s.pending := rfl

@[simp] theorem addRange_mem (a : Addr) (l : Len) (t : Tag) (w : Byte) (o : Bool) (s : State) : (addRange a l t w o s).mem = s.mem := rfl
@[simp] theorem addRange_flags (a : Addr) (l : Len) (t : Tag) (w : Byte) (o : Bool) (s : State) : (addRange a l t w o s).flags = mapFlags (· ||| flagMmio) a.toNat (a.toNat + l.toNat) s.flags := rfl
@[simp] theorem addRange_cf (a : Addr) (l : Len) (t : Tag) (w : Byte) (o : Bool) (s : State) : (addRange a l t w o s).cf = s.cf := rfl
@[simp] theorem addRange_crystal (a : Addr) (l : Len) (t : Tag) (w : Byte) (o : Bool) (s : State) : (addRange a l t w o s).crystal = s.crystal := rfl
@[simp] theorem addRange_convSize (a : Addr) (l : Len) (t : Tag) (w : Byte) (o : Bool) (s : State) : (addRange a l t w o s).convSize = s.convSize := rfl
@[simp] theorem addRange_installed (a : Addr) (l : Len) (t : Tag) (w : Byte) (o : Bool) (s : State) : (addRange a l t w o s).installed = s.installed := rfl
@[simp] theorem addRange_table (a : Addr) (l : Len) (t : Tag) (w : Byte) (o : Bool) (s : State) : (addRange a l t w o s).table = s.table := rfl
@[simp] theorem addRange_maplist (a : Addr) (l : Len) (t : Tag) (w : Byte) (o : Bool) (s : State) : (addRange a l t w o s).maplist = s.maplist ++ [⟨a, l, w, o, t⟩] := rfl
@[simp] theorem addRange_fastmap (a : Addr) (l : Len) (t : Tag) (w : Byte) (o : Bool) (s : State) : (addRange a l t w o s).fastmap = setBuckets s.fastmap (a.toNat / bucketSize) ((a.toNat + l.toNat) / bucketSize) t := rfl
@[simp] theorem addRange_portmap (a : Addr) (l : Len) (t : Tag) (w : Byte) (o : Bool) (s : State) : (addRange a l t w o s).portmap = s.portmap := rfl
@[simp] theorem addRange_slots (a : Addr) (l : Len) (t : Tag) (w : Byte) (o : Bool) (s : State) : (addRange a l t w o s).slots = s.slots := rfl
@[simp] theorem addRange_kbAcc (a : Addr) (l : Len) (t : Tag) (w : Byte) (o : Bool) (s : State) : (addRange a l t w o s).kbAcc = s.kbAcc := rfl
@[simp] theorem addRange_phaseAdj (a : Addr) (l : Len) (t : Tag) (w : Byte) (o : Bool) (s : State) : (addRange a l t w o s).phaseAdj = s.phaseAdj := rfl
@[simp] theorem addRange_refresh (a : Addr) (l : Len) (t : Tag) (w : Byte) (o : Bool) (s : State) : (addRange a l t w o s).refresh = s.refresh := rfl
@[simp] theorem addRange_refReload (a : Addr) (l : Len) (t : Tag) (w : Byte) (o : Bool) (s : State) : (addRange a l t w o s).refReload = s.refReload := rfl
@[simp] theorem addRange_vidAcc (a : Addr) (l : Len) (t : Tag) (w : Byte) (o : Bool) (s : State) : (addRange a l t w o s).vidAcc = s.vidAcc := rfl
@[simp] theorem addRange_fault (a : Addr) (l : Len) (t : Tag) (w : Byte) (o : Bool) (s : State) : (addRange a l t w o s).fault = s.fault := rfl
@[simp] theorem addRange_response (a : Addr) (l : Len) (t : Tag) (w : Byte) (o : Bool) (s : State) : (addRange a l t w o s).response = s.response := rfl
@[simp] theorem addRange_pending (a : Addr) (l : Len) (t : Tag) (w : Byte) (o : Bool) (s : State) : (addRange a l t w o s).pending = s.pending := rfl

@[simp] theorem setVideoSlot_pit (sl : Slots) (t : Tag) (v : VideoState) : (setVideoSlot sl t v).pit = sl.pit := rfl
@[simp] theorem setVideoSlot_pic1 (sl : Slots) (t : Tag) (v : VideoState) : (setVideoSlot sl t v).pic1 = sl.pic1 := rfl
@[simp] theorem setVideoSlot_pic2 (sl : Slots) (t : Tag) (v : VideoState) : (setVideoSlot sl t v).pic2 = sl.pic2 := rfl
@[simp] theorem setVideoSlot_dma1 (sl : Slots) (t : Tag) (v : VideoState) : (setVideoSlot sl t v).dma1 = sl.dma1 := rfl
@[simp] theorem setVideoSlot_dma2 (sl : Slots) (t : Tag) (v : VideoState) : (setVideoSlot sl t v).dma2 = sl.dma2 := rfl
@[simp] theorem setVideoSlot_ppi (sl : Slots) (t : Tag) (v : VideoState) : (setVideoSlot sl t v).ppi = sl.ppi := rfl
@[simp] theorem setVideoSlot_kbd (sl : Slots) (t : Tag) (v : VideoState) : (setVideoSlot sl t v).kbd = sl.kbd := rfl
@[simp] theorem setVideoSlot_fdc (sl : Slots) (t : Tag) (v : VideoState) : (setVideoSlot sl t v).fdc = sl.fdc := rfl
@[simp] theorem setVideoSlot_hdc (sl : Slots) (t : Tag) (v : VideoState) : (setVideoSlot sl t v).hdc = sl.hdc := rfl
@[simp] theorem setVideoSlot_serial (sl : Slots) (t : Tag) (v : VideoState) : (setVideoSlot sl t v).serial = sl.serial := rfl
@[simp] theorem setVideoSlot_mouse (sl : Slots) (t : Tag) (v : VideoState) : (setVideoSlot sl t v).mouse = sl.mouse := rfl

/-! ## settle: a command on a block that has not faulted, or that has -/

theorem settle_ok {s : State} (h : s.fault = 0#8) (t : State) (r : Response) :
    settle s (.ok (t, r)) = { t with response := some r } := by simp [settle, h]

theorem settle_error {s : State} (h : s.fault = 0#8) (f : FaultCode) : settle s (.error f) = raiseFault f s := by
  simp [settle, h]

theorem settle_faulted {s : State} (h : s.fault ≠ 0#8) (r : CmdResult) :
    settle s r = { s with response := some { status := statusFaulted } } := by simp [settle, h]

theorem finish_ok {s : State} (h : s.fault = 0#8) (t : State) (r : Response) :
    finish s (.ok (t, r)) = .next { t with response := some r } := by rw [finish, settle_ok h]

theorem finish_error {s : State} (h : s.fault = 0#8) (f : FaultCode) :
    finish s (.error f) = .next (raiseFault f s) := by rw [finish, settle_error h]

theorem finish_faulted {s : State} (h : s.fault ≠ 0#8) (r : CmdResult) :
    finish s r = .next { s with response := some { status := statusFaulted } } := by rw [finish, settle_faulted h]

/-- The three ends of a command: FAULTED, a fault it raises, or its effects with its response. -/
theorem settle_cases (s : State) (r : CmdResult) :
    (s.fault ≠ 0#8 ∧ settle s r = { s with response := some { status := statusFaulted } }) ∨
    (s.fault = 0#8 ∧ ∃ f, r = .error f ∧ settle s r = raiseFault f s) ∨
    (s.fault = 0#8 ∧ ∃ t rsp, r = .ok (t, rsp) ∧ settle s r = { t with response := some rsp }) := by
  by_cases h : s.fault = 0#8
  · match r with
    | .error f => exact .inr (.inl ⟨h, f, rfl, settle_error h f⟩)
    | .ok (t, rsp) => exact .inr (.inr ⟨h, t, rsp, rfl, settle_ok h t rsp⟩)
  · exact .inl ⟨h, settle_faulted h r⟩

/-! ## Effects: pulses change the primary PIC only -/

theorem applyEffect_eq (b : Board) (sl : Slots) (e : Effect) : ∃ p, applyEffect b sl e = { sl with pic1 := p } ∧
    (p = none ↔ sl.pic1 = none) := by
  cases e with
  | pulse l =>
    cases h : sl.pic1 with
    | none =>
      refine ⟨none, ?_, by simp⟩
      cases sl; cases h; rfl
    | some p => exact ⟨_, by simp only [applyEffect, h]; rfl, by simp⟩

theorem applyEffects_eq (b : Board) (sl : Slots) (es : List Effect) :
    ∃ p, applyEffects b sl es = { sl with pic1 := p } ∧ (p = none ↔ sl.pic1 = none) := by
  induction es generalizing sl with
  | nil => exact ⟨sl.pic1, rfl, Iff.rfl⟩
  | cons e es ih =>
    obtain ⟨p, hp, hn⟩ := applyEffect_eq b sl e
    obtain ⟨q, hq, hm⟩ := ih { sl with pic1 := p }
    refine ⟨q, ?_, hm.trans hn⟩
    rw [applyEffects, List.foldl_cons, hp]
    exact hq

@[simp] theorem applyEffects_pit (b : Board) (sl : Slots) (es : List Effect) : (applyEffects b sl es).pit = sl.pit := by
  obtain ⟨p, hp, _⟩ := applyEffects_eq b sl es; rw [hp]
@[simp] theorem applyEffects_pic2 (b : Board) (sl : Slots) (es : List Effect) : (applyEffects b sl es).pic2 = sl.pic2 := by
  obtain ⟨p, hp, _⟩ := applyEffects_eq b sl es; rw [hp]
@[simp] theorem applyEffects_dma1 (b : Board) (sl : Slots) (es : List Effect) : (applyEffects b sl es).dma1 = sl.dma1 := by
  obtain ⟨p, hp, _⟩ := applyEffects_eq b sl es; rw [hp]
@[simp] theorem applyEffects_dma2 (b : Board) (sl : Slots) (es : List Effect) : (applyEffects b sl es).dma2 = sl.dma2 := by
  obtain ⟨p, hp, _⟩ := applyEffects_eq b sl es; rw [hp]
@[simp] theorem applyEffects_ppi (b : Board) (sl : Slots) (es : List Effect) : (applyEffects b sl es).ppi = sl.ppi := by
  obtain ⟨p, hp, _⟩ := applyEffects_eq b sl es; rw [hp]
@[simp] theorem applyEffects_kbd (b : Board) (sl : Slots) (es : List Effect) : (applyEffects b sl es).kbd = sl.kbd := by
  obtain ⟨p, hp, _⟩ := applyEffects_eq b sl es; rw [hp]
@[simp] theorem applyEffects_fdc (b : Board) (sl : Slots) (es : List Effect) : (applyEffects b sl es).fdc = sl.fdc := by
  obtain ⟨p, hp, _⟩ := applyEffects_eq b sl es; rw [hp]
@[simp] theorem applyEffects_hdc (b : Board) (sl : Slots) (es : List Effect) : (applyEffects b sl es).hdc = sl.hdc := by
  obtain ⟨p, hp, _⟩ := applyEffects_eq b sl es; rw [hp]
@[simp] theorem applyEffects_serial (b : Board) (sl : Slots) (es : List Effect) : (applyEffects b sl es).serial = sl.serial := by
  obtain ⟨p, hp, _⟩ := applyEffects_eq b sl es; rw [hp]
@[simp] theorem applyEffects_mouse (b : Board) (sl : Slots) (es : List Effect) : (applyEffects b sl es).mouse = sl.mouse := by
  obtain ⟨p, hp, _⟩ := applyEffects_eq b sl es; rw [hp]
@[simp] theorem applyEffects_video (b : Board) (sl : Slots) (es : List Effect) : (applyEffects b sl es).video = sl.video := by
  obtain ⟨p, hp, _⟩ := applyEffects_eq b sl es; rw [hp]

theorem applyEffects_pic1_none (b : Board) (sl : Slots) (es : List Effect) :
    (applyEffects b sl es).pic1 = none ↔ sl.pic1 = none := by
  obtain ⟨p, hp, hn⟩ := applyEffects_eq b sl es; rw [hp]; exact hn

/-- With no primary PIC every effect is dropped (10_state.md R47). -/
theorem applyEffects_no_pic (b : Board) (sl : Slots) (es : List Effect) (h : sl.pic1 = none) :
    applyEffects b sl es = sl := by
  obtain ⟨p, hp, hn⟩ := applyEffects_eq b sl es; rw [hp, hn.2 h, ← h]

/-! ## Video slots -/

theorem videoTag_index {t t' : Tag} (h : isVideoTag t = true) (h' : isVideoTag t' = true)
    (he : videoIndex t = videoIndex t') : t = t' := by
  simp only [isVideoTag, decide_eq_true_eq] at h h'
  simp only [videoIndex, Fin.mk.injEq] at he
  exact BitVec.eq_of_toNat_eq (by have := t.isLt; have := t'.isLt; omega)

theorem setVideoSlot_video_get (sl : Slots) (t : Tag) (v : VideoState) (i : Fin 128) :
    (setVideoSlot sl t v).video.get i = if i = videoIndex t then some v else sl.video.get i :=
  vector_get_set sl.video (videoIndex t) i (some v)

@[simp] theorem videoSlot_setVideoSlot_same (sl : Slots) (t : Tag) (v : VideoState) :
    videoSlot (setVideoSlot sl t v) t = some v := by
  rw [videoSlot, setVideoSlot_video_get, if_pos rfl]

theorem videoSlot_setVideoSlot (sl : Slots) (t t' : Tag) (v : VideoState) :
    videoSlot (setVideoSlot sl t v) t' = if videoIndex t' = videoIndex t then some v else videoSlot sl t' := by
  rw [videoSlot, setVideoSlot_video_get]; rfl

@[simp] theorem videoSlot_applyEffects (b : Board) (sl : Slots) (es : List Effect) (t : Tag) :
    videoSlot (applyEffects b sl es) t = videoSlot sl t := by
  simp only [videoSlot, applyEffects_video]

/-! ## Raw writes -/

/-- A raw write changes nothing, or writes its byte into memory, which it does below `conv_size` on a byte that is no
ROM (R92). -/
theorem rawWrite8_eq (s : State) (a : Nat) (v : Byte) :
    rawWrite8 s a v =
      if romAt s.flags a = false ∧ a < s.convSize.val then { s with mem := writeCell s.mem a v } else s := by
  unfold rawWrite8
  cases romAt s.flags a
  · by_cases h : a < s.convSize.val
    · simp [h, Nat.not_le.2 h]
    · simp [h, Nat.not_lt.1 h]
  · simp

@[simp] theorem rawWrite8_flags (s : State) (a : Nat) (v : Byte) : (rawWrite8 s a v).flags = s.flags := by
  rw [rawWrite8_eq]; split <;> rfl
@[simp] theorem rawWrite8_cf (s : State) (a : Nat) (v : Byte) : (rawWrite8 s a v).cf = s.cf := by
  rw [rawWrite8_eq]; split <;> rfl
@[simp] theorem rawWrite8_crystal (s : State) (a : Nat) (v : Byte) : (rawWrite8 s a v).crystal = s.crystal := by
  rw [rawWrite8_eq]; split <;> rfl
@[simp] theorem rawWrite8_convSize (s : State) (a : Nat) (v : Byte) : (rawWrite8 s a v).convSize = s.convSize := by
  rw [rawWrite8_eq]; split <;> rfl
@[simp] theorem rawWrite8_installed (s : State) (a : Nat) (v : Byte) : (rawWrite8 s a v).installed = s.installed := by
  rw [rawWrite8_eq]; split <;> rfl
@[simp] theorem rawWrite8_table (s : State) (a : Nat) (v : Byte) : (rawWrite8 s a v).table = s.table := by
  rw [rawWrite8_eq]; split <;> rfl
@[simp] theorem rawWrite8_maplist (s : State) (a : Nat) (v : Byte) : (rawWrite8 s a v).maplist = s.maplist := by
  rw [rawWrite8_eq]; split <;> rfl
@[simp] theorem rawWrite8_fastmap (s : State) (a : Nat) (v : Byte) : (rawWrite8 s a v).fastmap = s.fastmap := by
  rw [rawWrite8_eq]; split <;> rfl
@[simp] theorem rawWrite8_portmap (s : State) (a : Nat) (v : Byte) : (rawWrite8 s a v).portmap = s.portmap := by
  rw [rawWrite8_eq]; split <;> rfl
@[simp] theorem rawWrite8_slots (s : State) (a : Nat) (v : Byte) : (rawWrite8 s a v).slots = s.slots := by
  rw [rawWrite8_eq]; split <;> rfl
@[simp] theorem rawWrite8_kbAcc (s : State) (a : Nat) (v : Byte) : (rawWrite8 s a v).kbAcc = s.kbAcc := by
  rw [rawWrite8_eq]; split <;> rfl
@[simp] theorem rawWrite8_phaseAdj (s : State) (a : Nat) (v : Byte) : (rawWrite8 s a v).phaseAdj = s.phaseAdj := by
  rw [rawWrite8_eq]; split <;> rfl
@[simp] theorem rawWrite8_refresh (s : State) (a : Nat) (v : Byte) : (rawWrite8 s a v).refresh = s.refresh := by
  rw [rawWrite8_eq]; split <;> rfl
@[simp] theorem rawWrite8_refReload (s : State) (a : Nat) (v : Byte) : (rawWrite8 s a v).refReload = s.refReload := by
  rw [rawWrite8_eq]; split <;> rfl
@[simp] theorem rawWrite8_vidAcc (s : State) (a : Nat) (v : Byte) : (rawWrite8 s a v).vidAcc = s.vidAcc := by
  rw [rawWrite8_eq]; split <;> rfl
@[simp] theorem rawWrite8_fault (s : State) (a : Nat) (v : Byte) : (rawWrite8 s a v).fault = s.fault := by
  rw [rawWrite8_eq]; split <;> rfl
@[simp] theorem rawWrite8_response (s : State) (a : Nat) (v : Byte) : (rawWrite8 s a v).response = s.response := by
  rw [rawWrite8_eq]; split <;> rfl
@[simp] theorem rawWrite8_pending (s : State) (a : Nat) (v : Byte) : (rawWrite8 s a v).pending = s.pending := by
  rw [rawWrite8_eq]; split <;> rfl

/-- What a raw write leaves to read: its byte at its address where it is not discarded, the old byte elsewhere. -/
theorem rawWrite8_read (s : State) (a : Nat) (v : Byte) (x : Nat) :
    memByte (rawWrite8 s a v) x =
      if x = a ∧ romAt s.flags a = false ∧ a < s.convSize.val then v else memByte s x := by
  rw [rawWrite8_eq]
  by_cases h : romAt s.flags a = false ∧ a < s.convSize.val
  · rw [if_pos h, memByte, readCell_writeCell]; simp [h, memByte]
  · rw [if_neg h, if_neg (by tauto)]

/-! ## Power-on -/

/-- A flags byte at power-on: the image's, without bits 7:6. -/
theorem flagAt_powerOn (b : Board) (m : Cells) (fl : FlagMap) (a : Addr) :
    flagAt (State.powerOn b m fl).flags a.toNat = flagAt fl a.toNat &&& flagBits :=
  (flagAt_mapFlags (· &&& flagBits) 0 memSize fl a.toNat a.isLt).trans (if_pos ⟨Nat.zero_le _, a.isLt⟩)

/-- An empty flags image stays empty. -/
@[simp] theorem powerOn_flags_nil (b : Board) (m : Cells) : (State.powerOn b m []).flags = [] := by
  show mapFlags (· &&& flagBits) 0 memSize [] = []
  decide

end Sys2Proof.Machine
end

