-- ==== Sys2Proof/Laws/Ops.lean ====
section
/-! SUPPORT. What the shared operations of the memory and port families can do: routing, accesses and port calls. -/

namespace Sys2Proof.Machine

/-! ## Routing -/

/-- An address without the MMIO bit is raw (R90). -/
theorem route_raw {s : State} {a : Addr} (h : mmioAt s.flags a.toNat = false) : route s a = .ok .raw := by
  simp [route, h]

/-- An MMIO address whose bucket names a live video card goes to it (R90). -/
theorem route_dev {s : State} {a : Addr} {t : Tag} {v : VideoState} (h : mmioAt s.flags a.toNat = true)
    (ht : s.fastmap.get (bucketOf a) = t) (hv : isVideoTag t = true) (hs : videoSlot s.slots t = some v) :
    route s a = .ok (.dev t v) := by
  have h0 : t ≠ 0x00#8 := by rintro rfl; simp [isVideoTag] at hv
  simp [route, h, ht, h0, hv, hs]

/-- An MMIO address whose bucket claims a device that is no live video card cannot be resolved (R90). -/
theorem route_unresolvable {s : State} {a : Addr} {t : Tag} (h : mmioAt s.flags a.toNat = true)
    (ht : s.fastmap.get (bucketOf a) = t) (h0 : t ≠ 0x00#8)
    (hd : isVideoTag t = false ∨ videoSlot s.slots t = none) : route s a = .error .mmioUnresolvable := by
  rcases hd with hd | hd
  · simp [route, h, ht, h0, hd]
  · cases hv : isVideoTag t <;> simp [route, h, ht, h0, hd, hv]

/-- All that a route can be. -/
theorem route_cases (s : State) (a : Addr) :
    route s a = .ok .raw ∨ route s a = .error .mmioUnresolvable ∨
      ∃ t v, isVideoTag t = true ∧ videoSlot s.slots t = some v ∧ mmioAt s.flags a.toNat = true ∧
        s.fastmap.get (bucketOf a) = t ∧ route s a = .ok (.dev t v) := by
  cases h : mmioAt s.flags a.toNat
  · exact .inl (route_raw h)
  · by_cases h0 : s.fastmap.get (bucketOf a) = 0x00#8
    · exact .inl (by simp [route, h, h0])
    · cases hv : isVideoTag (s.fastmap.get (bucketOf a))
      · exact .inr (.inl (route_unresolvable h rfl h0 (.inl hv)))
      · cases hs : videoSlot s.slots (s.fastmap.get (bucketOf a)) with
        | none => exact .inr (.inl (route_unresolvable h rfl h0 (.inr hs)))
        | some v => exact .inr (.inr ⟨_, v, hv, hs, rfl, rfl, route_dev h rfl hv hs⟩)

/-- All that an access can answer. -/
theorem access_cases (s : State) (a : Addr) (n : Nat) (raw : State × Response)
    (dev : Tag → VideoState → State × Response) :
    (∃ f, access s a n raw dev = .error f) ∨
    (route s a = .ok .raw ∧ access s a n raw dev = .ok raw) ∨
    ∃ t v, isVideoTag t = true ∧ videoSlot s.slots t = some v ∧ access s a n raw dev = .ok (dev t v) := by
  unfold access
  split
  · rcases route_cases s a with h | h | ⟨t, v, hv, hs, _, _, h⟩
    · exact .inr (.inl ⟨h, by simp only [h]⟩)
    · exact .inl ⟨.mmioUnresolvable, by simp only [h]⟩
    · exact .inr (.inr ⟨t, v, hv, hs, by simp only [h]⟩)
  · exact .inl ⟨.outOfBounds, rfl⟩

/-- An access that does not fault is the raw one or that of a live video card. -/
theorem access_ok {s : State} {a : Addr} {n : Nat} {raw : State × Response}
    {dev : Tag → VideoState → State × Response} {x : State × Response} (h : access s a n raw dev = .ok x) :
    inBounds a n = true ∧ (x = raw ∨ ∃ t v, isVideoTag t = true ∧ videoSlot s.slots t = some v ∧ x = dev t v) := by
  cases hb : inBounds a n
  · simp [access, hb] at h
  · refine ⟨rfl, ?_⟩
    rcases access_cases s a n raw dev with ⟨f, hf⟩ | ⟨-, hf⟩ | ⟨t, v, hv, hs, hf⟩ <;> rw [hf] at h <;> cases h
    exacts [.inl rfl, .inr ⟨t, v, hv, hs, rfl⟩]

theorem access_raw {s : State} {a : Addr} {n : Nat} (hb : inBounds a n = true) (h : mmioAt s.flags a.toNat = false)
    (raw : State × Response) (dev : Tag → VideoState → State × Response) : access s a n raw dev = .ok raw := by
  simp only [access, hb, if_true, route_raw h]

theorem access_dev {s : State} {a : Addr} {n : Nat} (hb : inBounds a n = true) {t : Tag} {v : VideoState}
    (h : mmioAt s.flags a.toNat = true) (ht : s.fastmap.get (bucketOf a) = t) (hv : isVideoTag t = true)
    (hs : videoSlot s.slots t = some v) (raw : State × Response) (dev : Tag → VideoState → State × Response) :
    access s a n raw dev = .ok (dev t v) := by
  simp only [access, hb, if_true, route_dev h ht hv hs]

theorem access_unresolvable {s : State} {a : Addr} {n : Nat} (hb : inBounds a n = true) {t : Tag}
    (h : mmioAt s.flags a.toNat = true) (ht : s.fastmap.get (bucketOf a) = t) (h0 : t ≠ 0x00#8)
    (hd : isVideoTag t = false ∨ videoSlot s.slots t = none) (raw : State × Response)
    (dev : Tag → VideoState → State × Response) : access s a n raw dev = .error .mmioUnresolvable := by
  simp only [access, hb, if_true, route_unresolvable h ht h0 hd]

theorem inBounds_one (a : Addr) : inBounds a 1 = true := by
  have := a.isLt; simp only [inBounds, decide_eq_true_eq, memSize]; omega

/-- The bounds check of a 16-bit access fails at 0xFFFFF only (20_memory.md R50). -/
theorem inBounds_two (a : Addr) : inBounds a 2 = decide (a ≠ 0xFFFFF#20) := by
  have := a.isLt
  rw [inBounds, decide_eq_decide, ne_eq, ← BitVec.toNat_inj]
  simp only [BitVec.reduceToNat, memSize]; omega

/-! ## Port calls -/

theorem callSlot_eq_some {σ α : Type} {slot : Option σ} {call : σ → α × σ} {put : σ → Slots} {r : α × Slots} :
    callSlot slot call put = some r ↔ ∃ d, slot = some d ∧ r = ((call d).1, put (call d).2) := by
  cases slot <;> simp [callSlot, eq_comm]

theorem callSlot_ne_none {σ α : Type} {slot : Option σ} {call : σ → α × σ} {put : σ → Slots} :
    callSlot slot call put ≠ none ↔ slot ≠ none := by
  cases slot <;> simp [callSlot]

end Sys2Proof.Machine
end

