-- ==== Sys2Proof/Laws/Map.lean ====
section
/-! SUPPORT. What registration, installation and the reset of the bus can do. -/

namespace Sys2Proof.Machine

/-! ## Buckets -/

theorem bucketTag_get (fm : Vector Tag 128) (a : Addr) :
    fm.get (bucketOf a) = bucketTag fm (a.toNat / bucketSize) := by
  have h : a.toNat / bucketSize < 128 := (bucketOf a).isLt
  rw [bucketTag, dif_pos h, Vector.get_eq_getElem]; rfl

theorem bucketTag_setBuckets (fm : Vector Tag 128) (lo hi : Nat) (t : Tag) (k : Nat) (hk : k < 128) :
    bucketTag (setBuckets fm lo hi t) k = if lo ≤ k ∧ k < hi then t else bucketTag fm k := by
  rw [bucketTag, dif_pos hk, setBuckets, tabulate_getElem]

theorem bucketsTaken_eq_false {fm : Vector Tag 128} {lo hi : Nat} :
    bucketsTaken fm lo hi = false ↔ ∀ k, lo ≤ k → k < hi → bucketTag fm k = 0x00#8 := by
  simp only [bucketsTaken, List.any_eq_false, mem_tabulateFrom]
  constructor
  · intro h k h1 h2
    simpa using h k ⟨k, h1, by omega, rfl⟩
  · rintro h _ ⟨k, h1, h2, rfl⟩
    simpa using h k h1 (by omega)

/-! ## Registration -/

/-- A registration that is accepted passes every check of R106. -/
theorem registerMap_ok {a : Addr} {l : Len} {t : Tag} {w : Byte} {o : Bool} {s s' : State}
    (h : registerMap a l t w o s = .ok s') :
    Tag.assigned t = true ∧ l.toNat ≤ memSize ∧ l.toNat % bucketSize = 0 ∧ l ≠ 0#21 ∧ a.toNat % bucketSize = 0 ∧
      a.toNat + l.toNat ≤ memSize ∧
      bucketsTaken s.fastmap (a.toNat / bucketSize) ((a.toNat + l.toNat) / bucketSize) = false ∧
      s' = addRange a l t w o s := by
  unfold registerMap at h
  split at h
  · exact absurd h (by simp)
  · rename_i hc
    have hs : s' = addRange a l t w o s := by simpa using h.symm
    unfold regmapCheck at hc
    repeat' split at hc
    all_goals try contradiction
    rename_i h1 h2 h3 h4 h5
    simp only [not_or, not_not, Nat.not_lt, ne_eq] at h4
    exact ⟨by simpa using h1, by simpa [Len.legal] using h2, by simpa using h3, h4.1, h4.2.1, h4.2.2,
      by simpa using h5, hs⟩

/-- A property that every accepted registration keeps is kept by a device's apertures. -/
theorem registerApertures_induct {P : State → Prop}
    (hP : ∀ a l t w o s s', registerMap a l t w o s = .ok s' → P s → P s') {t : Tag} {as : List (Addr × Len)}
    {s s' : State} (h : registerApertures t as s = some s') (hs : P s) : P s' := by
  induction as generalizing s with
  | nil => simp only [registerApertures, Option.some.injEq] at h; exact h ▸ hs
  | cons p as ih =>
    obtain ⟨a, l⟩ := p
    simp only [registerApertures] at h
    split at h
    · rename_i hr; exact ih h (hP _ _ _ _ _ _ _ hr hs)
    · exact absurd h (by simp)

/-- A property that every accepted registration keeps is kept by the apertures of all devices. -/
theorem registerAllApertures_induct {P : State → Prop}
    (hP : ∀ a l t w o s s', registerMap a l t w o s = .ok s' → P s → P s') {b : Board} {g : List InstallEntry}
    {s s' : State} (h : registerAllApertures b g s = some s') (hs : P s) : P s' := by
  induction g generalizing s with
  | nil => simp only [registerAllApertures, Option.some.injEq] at h; exact h ▸ hs
  | cons e g ih =>
    simp only [registerAllApertures] at h
    split at h
    · rename_i hr; exact ih h (registerApertures_induct hP hr hs)
    · exact absurd h (by simp)

/-- Registrations change the fast map, the flags and the list only. -/
theorem registerAllApertures_frame {b : Board} {g : List InstallEntry} {s s' : State}
    (h : registerAllApertures b g s = some s') :
    s' = { s with fastmap := s'.fastmap, flags := s'.flags, maplist := s'.maplist } := by
  refine registerAllApertures_induct
    (P := fun x => x = { s with fastmap := x.fastmap, flags := x.flags, maplist := x.maplist }) ?_ h rfl
  intro a l t w o x x' hr hx
  obtain ⟨-, -, -, -, -, -, -, rfl⟩ := registerMap_ok hr
  rw [addRange, hx]

/-! ## Ports -/

/-- A device's claimed ports: each holds its tag afterwards, every other port what it held. -/
theorem claimPorts_read {t : Tag} {ps : List Port} {pm pm' : Cells} (h : claimPorts t ps pm = some pm') (x : Nat) :
    readCell pm' x = if ∃ p ∈ ps, p.toNat = x then t else readCell pm x := by
  induction ps generalizing pm with
  | nil => simp only [claimPorts, Option.some.injEq] at h; simp [h]
  | cons p ps ih =>
    simp only [claimPorts] at h
    split at h
    · rename_i pm1 hc
      have e : pm1 = writeCell pm p.toNat t := by
        unfold claimPort at hc; split at hc
        · exact absurd hc (by simp)
        · simpa using hc.symm
      rw [ih h, e, readCell_writeCell]
      simp only [List.mem_cons, exists_eq_or_imp]
      by_cases h1 : ∃ q ∈ ps, q.toNat = x
      · rw [if_pos h1, if_pos (.inr h1)]
      · by_cases h2 : p.toNat = x
        · rw [if_neg h1, if_pos h2.symm, if_pos (.inl h2)]
        · rw [if_neg h1, if_neg (Ne.symm h2), if_neg (not_or.2 ⟨h2, h1⟩)]
    · exact absurd h (by simp)

/-- Claiming ports keeps the port map in canonical form. -/
theorem claimPorts_wf {t : Tag} {ps : List Port} {pm pm' : Cells} (h : claimPorts t ps pm = some pm')
    (hw : Cells.wf 0x10000 pm = true) : Cells.wf 0x10000 pm' = true := by
  induction ps generalizing pm with
  | nil => simp only [claimPorts, Option.some.injEq] at h; exact h ▸ hw
  | cons p ps ih =>
    simp only [claimPorts] at h
    split at h
    · rename_i pm1 hc
      refine ih h ?_
      unfold claimPort at hc; split at hc
      · exact absurd hc (by simp)
      · rw [← Option.some.inj hc]
        exact writeCell_wf _ _ _ _ p.isLt hw
    · exact absurd h (by simp)

theorem claimAllPorts_wf {b : Board} {g : List InstallEntry} {pm pm' : Cells} (h : claimAllPorts b g pm = some pm')
    (hw : Cells.wf 0x10000 pm = true) : Cells.wf 0x10000 pm' = true := by
  induction g generalizing pm with
  | nil => simp only [claimAllPorts, Option.some.injEq] at h; exact h ▸ hw
  | cons e g ih =>
    simp only [claimAllPorts] at h
    split at h
    · rename_i pm1 hc; exact ih h (claimPorts_wf hc hw)
    · exact absurd h (by simp)

/-- A port that is mapped after all claims was mapped before, or is advertised by the device whose tag it holds. -/
theorem claimAllPorts_source {b : Board} {g : List InstallEntry} {pm pm' : Cells}
    (h : claimAllPorts b g pm = some pm') (x : Nat) :
    readCell pm' x = readCell pm x ∨ ∃ e ∈ g, readCell pm' x = e.tag ∧ ∃ p ∈ portsOf b e, p.toNat = x := by
  induction g generalizing pm with
  | nil => simp only [claimAllPorts, Option.some.injEq] at h; simp [h]
  | cons e g ih =>
    simp only [claimAllPorts] at h
    split at h
    · rename_i pm1 hc
      rcases ih h with h1 | ⟨e', he', h1⟩
      · rw [h1, claimPorts_read hc]
        by_cases hp : ∃ p ∈ portsOf b e, p.toNat = x
        · exact .inr ⟨e, by simp, by simp [hp], hp⟩
        · exact .inl (by simp [hp])
      · exact .inr ⟨e', by simp [he'], h1⟩
    · exact absurd h (by simp)

/-- The entries by ascending tag are entries of the configuration. -/
theorem mem_byAscendingTag {g : List InstallEntry} {e : InstallEntry} (h : e ∈ byAscendingTag g) : e ∈ g := by
  obtain ⟨k, -, hk⟩ := List.mem_filterMap.1 h
  exact List.mem_of_find?_eq_some hk

/-- What an accepted INSTALL does. -/
theorem installDevices_some {b : Board} {g : List InstallEntry} {s s' : State}
    (h : installDevices b g s = some s') :
    ∃ pm, claimAllPorts b (byAscendingTag g) s.portmap = some pm ∧
      s' = { s with
        slots := (byAscendingTag g).foldl putDevice s.slots
        portmap := pm
        installed := true
        fastmap := s'.fastmap
        flags := s'.flags
        maplist := s'.maplist } := by
  unfold installDevices at h
  split at h
  · rename_i pm hpm
    exact ⟨pm, hpm, registerAllApertures_frame h⟩
  · exact absurd h (by simp)

end Sys2Proof.Machine
end

