-- ==== Sys2Proof/Laws/Scheduler.lean ====
section
/-! SUPPORT. What the steps of RUN can do: which fields and slots each step leaves alone, and what each device's
slot holds after the whole slice. -/

namespace Sys2Proof.Machine

/-- A slice changes these fields of the state and no other: the slots, the two accumulators, the phase adjustment
and the refresh FSM. -/
def SliceFrame (s t : State) : Prop :=
  t = { s with
    slots := t.slots
    kbAcc := t.kbAcc
    phaseAdj := t.phaseAdj
    refresh := t.refresh
    refReload := t.refReload
    vidAcc := t.vidAcc }

theorem SliceFrame.refl (s : State) : SliceFrame s s := rfl

theorem SliceFrame.trans {s t u : State} (h : SliceFrame s t) (h' : SliceFrame t u) : SliceFrame s u := by
  unfold SliceFrame at *; rw [h', h]

/-! ## Step 1 -/

theorem scancodeLatch_eq (b : Board) (sl : Slots) (x : Byte) :
    ∃ p q, scancodeLatch b sl x = { sl with ppi := p, pic1 := q } ∧ (p = none ↔ sl.ppi = none) ∧
      (q = none ↔ sl.pic1 = none) := by
  cases h : sl.ppi with
  | none =>
    refine ⟨none, sl.pic1, ?_, by simp, Iff.rfl⟩
    cases sl; cases h; rfl
  | some p =>
    simp only [scancodeLatch, h]
    split
    · obtain ⟨q, hq, hn⟩ := applyEffects_eq b { sl with ppi := some (b.ppi.latch p x).1 } [.pulse 1]
      exact ⟨_, q, hq, by simp, hn⟩
    · exact ⟨_, sl.pic1, rfl, by simp, Iff.rfl⟩

theorem scancodes_eq (b : Board) (sl : Slots) (xs : List Byte) :
    ∃ p q, xs.foldl (scancodeLatch b) sl = { sl with ppi := p, pic1 := q } ∧ (p = none ↔ sl.ppi = none) ∧
      (q = none ↔ sl.pic1 = none) := by
  induction xs generalizing sl with
  | nil => exact ⟨sl.ppi, sl.pic1, rfl, Iff.rfl, Iff.rfl⟩
  | cons x xs ih =>
    obtain ⟨p, q, h, h1, h2⟩ := scancodeLatch_eq b sl x
    obtain ⟨p', q', h', h1', h2'⟩ := ih { sl with ppi := p, pic1 := q }
    exact ⟨p', q', by rw [List.foldl_cons, h, h'], h1'.trans h1, h2'.trans h2⟩

/-- What step 1 can do. -/
theorem stepKeyboard_cases (b : Board) (u : F64) (e : Option KeyEvent) (s : State) :
    (s.slots.kbd = none ∧ stepKeyboard b u e s = (s, false)) ∨
    ∃ k p q, s.slots.kbd = some k ∧
      stepKeyboard b u e s =
        ({ s with
          kbAcc := (keyboardSlice b u e k s.kbAcc).acc
          slots := { s.slots with kbd := some (keyboardSlice b u e k s.kbAcc).kbd, ppi := p, pic1 := q } },
          (keyboardSlice b u e k s.kbAcc).overflow) ∧
      (p = none ↔ s.slots.ppi = none) ∧ (q = none ↔ s.slots.pic1 = none) := by
  cases h : s.slots.kbd with
  | none => exact .inl ⟨rfl, by simp [stepKeyboard, h]⟩
  | some k =>
    obtain ⟨p, q, hf, h1, h2⟩ := scancodes_eq b { s.slots with kbd := some (keyboardSlice b u e k s.kbAcc).kbd }
      (keyboardSlice b u e k s.kbAcc).scancodes
    exact .inr ⟨k, p, q, rfl, by simp only [stepKeyboard, h, hf], h1, h2⟩

/-! ## Steps 2 to 7 -/

/-- What step 2 does. -/
theorem stepPic_eq (b : Board) (q : U64) (s : State) :
    stepPic b q s =
      { s with slots := { s.slots with pic1 := s.slots.pic1.map fun p => (b.pic 0x02#8).advance p q } } := by
  obtain ⟨_, _, _, _, _, _, _, _, _, _, ⟨_, p, _, _, _, _, _, _, _, _, _, _⟩, _, _, _, _, _, _, _, _⟩ := s
  cases p <;> rfl

/-- What step 3 does to the state. -/
theorem stepPpi_fst (b : Board) (u : F64) (s : State) :
    (stepPpi b u s).1 =
      { s with slots := { s.slots with ppi := s.slots.ppi.map fun p => (b.ppi.advance p s.slots.pic1 u).1 } } := by
  obtain ⟨_, _, _, _, _, _, _, _, _, _, ⟨_, _, _, _, _, p, _, _, _, _, _, _⟩, _, _, _, _, _, _, _, _⟩ := s
  cases p <;> rfl

/-- What step 4 does. -/
theorem stepTimer_eq (b : Board) (u : F64) (q : U64) (s : State) :
    ∃ p, stepTimer b u q s =
        { s with
          slots := { s.slots with pit := s.slots.pit.map fun d => (timerAdvance b u q s.phaseAdj d).1, pic1 := p }
          phaseAdj := if s.slots.pit.isSome && !b.pitHasCrystal then 0#64 else s.phaseAdj } ∧
      (p = none ↔ s.slots.pic1 = none) := by
  cases h : s.slots.pit with
  | none =>
    refine ⟨s.slots.pic1, ?_, Iff.rfl⟩
    rw [stepTimer, h]
    obtain ⟨_, _, _, _, _, _, _, _, _, _, ⟨⟩, _, _, _, _, _, _, _, _⟩ := s
    cases h; rfl
  | some d =>
    obtain ⟨p, hp, hn⟩ := applyEffects_eq b { s.slots with pit := some (timerAdvance b u q s.phaseAdj d).1 }
      (timerAdvance b u q s.phaseAdj d).2
    refine ⟨p, ?_, hn⟩
    simp only [stepTimer, h, hp, Option.map_some, Option.isSome_some, Bool.true_and]
    cases b.pitHasCrystal <;> rfl

/-- What step 5 does to the state. -/
theorem stepRefresh_frame (b : Board) (s : State) :
    (stepRefresh b s).1 = { s with refresh := (stepRefresh b s).1.refresh, refReload := (stepRefresh b s).1.refReload } := by
  unfold stepRefresh; split <;> rfl

theorem storageSlice_none {b : Board} {t : Tag} {c : Option StorageState} {d : Option DmaState} {te : Entry} :
    (storageSlice b t c d te).1 = none ↔ c = none := by
  cases c <;> simp [storageSlice]

/-- A storage controller hands the DMA state back exactly when it was lent (R125). -/
theorem storageSlice_dma_none {b : Board} {t : Tag} {c : Option StorageState} {d : Option DmaState} {te : Entry} :
    (storageSlice b t c d te).2.1 = none ↔ d = none := by
  cases c <;> simp [storageSlice, storageAdvance]

/-- What step 6 does. -/
theorem stepStorage_eq (b : Board) (u : F64) (q : U64) (s : State) :
    ∃ p, stepStorage b u q s =
        { s with
          slots := { s.slots with
            fdc := (storageSlice b 0x08#8 s.slots.fdc s.slots.dma1 ⟨q, u⟩).1
            hdc := (storageSlice b 0x09#8 s.slots.hdc
              (storageSlice b 0x08#8 s.slots.fdc s.slots.dma1 ⟨q, u⟩).2.1 ⟨q, u⟩).1
            dma1 := (storageSlice b 0x09#8 s.slots.hdc
              (storageSlice b 0x08#8 s.slots.fdc s.slots.dma1 ⟨q, u⟩).2.1 ⟨q, u⟩).2.1.map
                fun x => (b.dma 0x04#8).advance x ⟨q, u⟩
            pic1 := p } } ∧
      (p = none ↔ s.slots.pic1 = none) := by
  obtain ⟨p1, h1, n1⟩ := applyEffects_eq b
    { s.slots with fdc := (storageSlice b 0x08#8 s.slots.fdc s.slots.dma1 ⟨q, u⟩).1 }
    (storageSlice b 0x08#8 s.slots.fdc s.slots.dma1 ⟨q, u⟩).2.2
  obtain ⟨p2, h2, n2⟩ := applyEffects_eq b
    { s.slots with
      fdc := (storageSlice b 0x08#8 s.slots.fdc s.slots.dma1 ⟨q, u⟩).1
      hdc := (storageSlice b 0x09#8 s.slots.hdc
        (storageSlice b 0x08#8 s.slots.fdc s.slots.dma1 ⟨q, u⟩).2.1 ⟨q, u⟩).1
      pic1 := p1 }
    (storageSlice b 0x09#8 s.slots.hdc
      (storageSlice b 0x08#8 s.slots.fdc s.slots.dma1 ⟨q, u⟩).2.1 ⟨q, u⟩).2.2
  exact ⟨p2, by simp only [stepStorage, h1, h2], n2.trans n1⟩

/-- What step 7 does: the serial controller and, where both are present, the mouse (R126). -/
theorem stepSerial_eq (b : Board) (u : F64) (s : State) :
    ∃ c m p, stepSerial b u s = { s with slots := { s.slots with serial := c, mouse := m, pic1 := p } } ∧
      (c = none ↔ s.slots.serial = none) ∧ (m = none ↔ s.slots.mouse = none) ∧ (p = none ↔ s.slots.pic1 = none) := by
  cases h : s.slots.serial with
  | none =>
    refine ⟨none, s.slots.mouse, s.slots.pic1, ?_, by simp, Iff.rfl, Iff.rfl⟩
    rw [stepSerial, h]
    obtain ⟨_, _, _, _, _, _, _, _, _, _, ⟨⟩, _, _, _, _, _, _, _, _⟩ := s
    cases h; rfl
  | some c =>
    obtain ⟨p, hp, hn⟩ := applyEffects_eq b { s.slots with serial := some (b.serial.advance c u).1 }
      (b.serial.advance c u).2
    cases hm : s.slots.mouse with
    | none =>
      refine ⟨some (b.serial.advance c u).1, none, p, ?_, by simp, by simp, hn⟩
      simp only [hm] at hp
      simp only [stepSerial, h, hm, hp]
    | some m =>
      refine ⟨some (b.mouse.advance m (b.serial.advance c u).1 u).2,
        some (b.mouse.advance m (b.serial.advance c u).1 u).1, p, ?_, by simp, by simp, hn⟩
      simp only [hm] at hp
      simp only [stepSerial, h, hm, hp]

/-! ## Step 8 -/

/-- One video card's step changes its own slot, the primary PIC and its own accumulator only. -/
theorem stepVideoCard_cases (b : Board) (u : F64) (q : U64) (s : State) (t : Tag) :
    (videoSlot s.slots t = none ∧ stepVideoCard b u q s t = s) ∨
    ∃ v v' p acc, videoSlot s.slots t = some v ∧
      stepVideoCard b u q s t =
        { s with slots := { setVideoSlot s.slots t v' with pic1 := p }, vidAcc := acc } ∧
      (p = none ↔ s.slots.pic1 = none) ∧ ∀ i, i ≠ videoIndex t → acc.get i = s.vidAcc.get i := by
  cases h : videoSlot s.slots t with
  | none => exact .inl ⟨rfl, by simp [stepVideoCard, h]⟩
  | some v =>
    right
    have hset : ∀ x : U64, ∀ i, i ≠ videoIndex t →
        (s.vidAcc.set (videoIndex t).val x (videoIndex t).isLt).get i = s.vidAcc.get i := by
      intro x i hi; rw [vector_get_set, if_neg hi]
    cases hk : b.videoUnit (videoKindOf t) with
    | us =>
      obtain ⟨p, hp, hn⟩ := applyEffects_eq b (setVideoSlot s.slots t ((b.video t).vadvanceUs v u s.slots.pic1).1)
        ((b.video t).vadvanceUs v u s.slots.pic1).2
      refine ⟨v, ((b.video t).vadvanceUs v u s.slots.pic1).1, p, s.vidAcc, rfl, ?_, hn, fun _ _ => rfl⟩
      simp only [stepVideoCard, h, hk, hp]
    | ticks =>
      by_cases hm : b.videoTickMin (videoKindOf t) ≤ s.vidAcc.get (videoIndex t) + q
      · obtain ⟨p, hp, hn⟩ := applyEffects_eq b
          (setVideoSlot s.slots t ((b.video t).vadvanceTicks v (s.vidAcc.get (videoIndex t) + q) s.slots.pic1).1)
          ((b.video t).vadvanceTicks v (s.vidAcc.get (videoIndex t) + q) s.slots.pic1).2
        refine ⟨v, ((b.video t).vadvanceTicks v (s.vidAcc.get (videoIndex t) + q) s.slots.pic1).1, p, _, rfl, ?_, hn,
          hset 0#64⟩
        simp only [stepVideoCard, h, hk, hp, if_pos hm]
      · refine ⟨v, v, s.slots.pic1, _, rfl, ?_, Iff.rfl, hset (s.vidAcc.get (videoIndex t) + q)⟩
        have hv : setVideoSlot s.slots t v = s.slots := by
          have : (setVideoSlot s.slots t v).video = s.slots.video := vector_ext_get fun i => by
            rw [setVideoSlot_video_get]
            split
            · rename_i hi; rw [hi]; exact h.symm
            · rfl
          unfold setVideoSlot at this ⊢; simp only at this; rw [this]
        simp only [stepVideoCard, h, hk, if_neg hm, hv]

/-- Video steps of the cards `ts` keep what they do not own: every field but the slots and `vidAcc`, every slot but
the video cards' and the primary PIC's, and which slots are present. -/
theorem stepVideoCards_frame (b : Board) (u : F64) (q : U64) (ts : List Tag) (s : State) :
    ∃ vs p acc, ts.foldl (stepVideoCard b u q) s =
        { s with slots := { s.slots with video := vs, pic1 := p }, vidAcc := acc } ∧
      (p = none ↔ s.slots.pic1 = none) ∧ (∀ i, vs.get i = none ↔ s.slots.video.get i = none) ∧
      ∀ i, (∀ t ∈ ts, videoIndex t ≠ i) → vs.get i = s.slots.video.get i ∧ acc.get i = s.vidAcc.get i := by
  induction ts generalizing s with
  | nil => exact ⟨s.slots.video, s.slots.pic1, s.vidAcc, rfl, Iff.rfl, fun _ => Iff.rfl, fun _ _ => ⟨rfl, rfl⟩⟩
  | cons t ts ih =>
    rw [List.foldl_cons]
    rcases stepVideoCard_cases b u q s t with ⟨-, he⟩ | ⟨v, v', p, acc, hv, he, hp, hacc⟩
    · rw [he]
      obtain ⟨vs, p', acc', h1, h2, h3, h4⟩ := ih s
      exact ⟨vs, p', acc', h1, h2, h3, fun i hi => h4 i fun t' ht' => hi t' (by simp [ht'])⟩
    · rw [he]
      obtain ⟨vs, p', acc', h1, h2, h3, h4⟩ := ih
        { s with slots := { setVideoSlot s.slots t v' with pic1 := p }, vidAcc := acc }
      refine ⟨vs, p', acc', h1, h2.trans hp, fun i => (h3 i).trans ?_, fun i hi => ?_⟩
      · show (setVideoSlot s.slots t v').video.get i = none ↔ _
        rw [setVideoSlot_video_get]
        split
        · rename_i hi; subst hi
          have : s.slots.video.get (videoIndex t) = some v := hv
          simp [this]
        · rfl
      · obtain ⟨h5, h6⟩ := h4 i fun t' ht' => hi t' (by simp [ht'])
        have hne : i ≠ videoIndex t := (hi t (by simp)).symm
        refine ⟨h5.trans ?_, h6.trans (hacc i hne)⟩
        show (setVideoSlot s.slots t v').video.get i = _
        rw [setVideoSlot_video_get, if_neg hne]

theorem stepVideo_frame (b : Board) (u : F64) (q : U64) (s : State) :
    ∃ vs p acc, stepVideo b u q s =
        { s with slots := { s.slots with video := vs, pic1 := p }, vidAcc := acc } ∧
      (p = none ↔ s.slots.pic1 = none) ∧ ∀ i, vs.get i = none ↔ s.slots.video.get i = none := by
  obtain ⟨vs, p, acc, h1, h2, h3, -⟩ := stepVideoCards_frame b u q videoTags s
  exact ⟨vs, p, acc, h1, h2, h3⟩

end Sys2Proof.Machine
end

