-- ==== Sys2Proof/Laws/Exec.lean ====
section
/-! SUPPORT. What a command can do to the state, said once for all twenty: `exec` is `finish` of the command's
result, and a result that is no fault is one of the changes of `Change`. Whole-machine facts are proved from it. -/

namespace Sys2Proof.Machine

/-- The same slots are present (a slot is never emptied, and only INSTALL fills one; 10_state.md R39). -/
structure SlotsKept (sl sl' : Slots) : Prop where
  pit : sl'.pit = none ↔ sl.pit = none
  pic1 : sl'.pic1 = none ↔ sl.pic1 = none
  pic2 : sl'.pic2 = none ↔ sl.pic2 = none
  dma1 : sl'.dma1 = none ↔ sl.dma1 = none
  dma2 : sl'.dma2 = none ↔ sl.dma2 = none
  ppi : sl'.ppi = none ↔ sl.ppi = none
  kbd : sl'.kbd = none ↔ sl.kbd = none
  fdc : sl'.fdc = none ↔ sl.fdc = none
  hdc : sl'.hdc = none ↔ sl.hdc = none
  serial : sl'.serial = none ↔ sl.serial = none
  mouse : sl'.mouse = none ↔ sl.mouse = none
  video : ∀ i, sl'.video.get i = none ↔ sl.video.get i = none

theorem SlotsKept.refl (sl : Slots) : SlotsKept sl sl :=
  ⟨Iff.rfl, Iff.rfl, Iff.rfl, Iff.rfl, Iff.rfl, Iff.rfl, Iff.rfl, Iff.rfl, Iff.rfl, Iff.rfl, Iff.rfl, fun _ => Iff.rfl⟩

theorem SlotsKept.trans {a b c : Slots} (h : SlotsKept a b) (h' : SlotsKept b c) : SlotsKept a c :=
  ⟨h'.pit.trans h.pit, h'.pic1.trans h.pic1, h'.pic2.trans h.pic2, h'.dma1.trans h.dma1, h'.dma2.trans h.dma2, h'.ppi.trans h.ppi, h'.kbd.trans h.kbd, h'.fdc.trans h.fdc, h'.hdc.trans h.hdc, h'.serial.trans h.serial, h'.mouse.trans h.mouse,
    fun i => (h'.video i).trans (h.video i)⟩

theorem SlotsKept.videoSlot {sl sl' : Slots} (h : SlotsKept sl sl') (t : Tag) :
    videoSlot sl' t = none ↔ videoSlot sl t = none := h.video _

/-- A live byte-I/O device stays live. -/
theorem SlotsKept.portLive {sl sl' : Slots} (h : SlotsKept sl sl') {t : Tag} (hl : sl.PortLive t) : sl'.PortLive t := by
  unfold Slots.PortLive at *
  split <;> simp_all only [ne_eq, not_false_eq_true, h.pit, h.pic1, h.pic2, h.dma1, h.dma2, h.ppi, h.fdc, h.hdc, h.serial,
    h.videoSlot, and_self]

theorem slotsKept_pic1 (sl : Slots) (p : Option PicState) (h : p = none ↔ sl.pic1 = none) :
    SlotsKept sl { sl with pic1 := p } := by
  constructor <;> simp [h]

theorem slotsKept_applyEffects (b : Board) (sl : Slots) (es : List Effect) : SlotsKept sl (applyEffects b sl es) := by
  obtain ⟨p, hp, hn⟩ := applyEffects_eq b sl es
  rw [hp]; exact slotsKept_pic1 sl p hn

theorem slotsKept_setVideoSlot {sl : Slots} {t : Tag} (v : VideoState) (h : videoSlot sl t ≠ none) :
    SlotsKept sl (setVideoSlot sl t v) := by
  refine { SlotsKept.refl sl with video := fun i => ?_ }
  rw [setVideoSlot_video_get]
  split
  · rename_i hi; subst hi; exact ⟨by simp, fun e => absurd e h⟩
  · rfl

/-! ## Port calls keep slots -/

theorem slotsKept_portCall {sl sl' : Slots} {σ α : Type} {slot : Option σ} {call : σ → α × σ} {put : σ → Slots} {r : α}
    (h : callSlot slot call put = some (r, sl')) (hk : ∀ d, slot ≠ none → SlotsKept sl (put d)) : SlotsKept sl sl' := by
  obtain ⟨d, hd, he⟩ := callSlot_eq_some.1 h
  cases he
  exact hk _ (by simp [hd])

theorem slotsKept_portRead {b : Board} {sl sl' : Slots} {t : Tag} {p : Port} {te : Entry} {v : Byte}
    (h : portRead b sl t p te = some (v, sl')) : SlotsKept sl sl' := by
  unfold portRead at h
  split at h <;> (try split at h) <;> first
    | exact absurd h (by simp)
    | (refine slotsKept_portCall h fun d hd => ?_
       first
         | exact slotsKept_setVideoSlot d hd
         | (constructor <;> simp [hd]))

theorem slotsKept_portWrite {b : Board} {sl sl' : Slots} {t : Tag} {p : Port} {d : Byte} {te : Entry} {e : List Effect}
    (h : portWrite b sl t p d te = some (e, sl')) : SlotsKept sl sl' := by
  unfold portWrite at h
  split at h <;> (try split at h) <;> first
    | exact absurd h (by simp)
    | (refine slotsKept_portCall h fun d hd => ?_
       first
         | exact slotsKept_setVideoSlot d hd
         | (constructor <;> simp [hd]))

/-- A port call to a live byte-I/O device succeeds: the unresolvable arm of R101 needs a tag with none. -/
theorem portRead_ne_none {b : Board} {sl : Slots} {t : Tag} (p : Port) (te : Entry) (h : sl.PortLive t) :
    portRead b sl t p te ≠ none := by
  unfold Slots.PortLive at h
  unfold portRead
  split at h <;> simp_all [callSlot_ne_none]

theorem portWrite_ne_none {b : Board} {sl : Slots} {t : Tag} (p : Port) (d : Byte) (te : Entry) (h : sl.PortLive t) :
    portWrite b sl t p d te ≠ none := by
  unfold Slots.PortLive at h
  unfold portWrite
  split at h <;> simp_all [callSlot_ne_none]

/-! ## A slice keeps slots -/

theorem runSlice_frame (b : Board) (u : F64) (q : U64) (e : Option KeyEvent) (s : State) :
    SliceFrame s (runSlice b u q e s).1 ∧ SlotsKept s.slots (runSlice b u q e s).1.slots := by
  unfold runSlice
  simp only
  have h1 : SliceFrame s (stepKeyboard b u e s).1 ∧ SlotsKept s.slots (stepKeyboard b u e s).1.slots := by
    rcases stepKeyboard_cases b u e s with ⟨-, h⟩ | ⟨k, p, r, hk, h, hp, hr⟩
    · rw [h]; exact ⟨.refl s, .refl _⟩
    · rw [h]; exact ⟨rfl, by constructor <;> simp [hk, hp, hr]⟩
  generalize (stepKeyboard b u e s).1 = s1 at h1 ⊢
  have h2 : SliceFrame s1 (stepPic b q s1) ∧ SlotsKept s1.slots (stepPic b q s1).slots := by
    rw [stepPic_eq]; exact ⟨rfl, slotsKept_pic1 _ _ (by simp)⟩
  generalize stepPic b q s1 = s2 at h2 ⊢
  have h3 : SliceFrame s2 (stepPpi b u s2).1 ∧ SlotsKept s2.slots (stepPpi b u s2).1.slots := by
    rw [stepPpi_fst]; exact ⟨rfl, by constructor <;> simp⟩
  generalize stepPpi b u s2 = s3 at h3 ⊢
  have h4 : SliceFrame s3.1 (stepTimer b u q s3.1) ∧ SlotsKept s3.1.slots (stepTimer b u q s3.1).slots := by
    obtain ⟨p, h, hn⟩ := stepTimer_eq b u q s3.1
    rw [h]; exact ⟨rfl, by constructor <;> simp [hn]⟩
  generalize stepTimer b u q s3.1 = s4 at h4 ⊢
  have h5 : SliceFrame s4 (stepRefresh b s4).1 ∧ SlotsKept s4.slots (stepRefresh b s4).1.slots := by
    rw [stepRefresh_frame]; exact ⟨rfl, .refl _⟩
  generalize (stepRefresh b s4) = s5 at h5 ⊢
  have h6 : SliceFrame s5.1 (stepStorage b u q s5.1) ∧ SlotsKept s5.1.slots (stepStorage b u q s5.1).slots := by
    obtain ⟨p, h, hn⟩ := stepStorage_eq b u q s5.1
    rw [h]; exact ⟨rfl, by constructor <;> simp [hn, storageSlice_none, storageSlice_dma_none]⟩
  generalize stepStorage b u q s5.1 = s6 at h6 ⊢
  have h7 : SliceFrame s6 (stepSerial b u s6) ∧ SlotsKept s6.slots (stepSerial b u s6).slots := by
    obtain ⟨c, m, p, h, hc, hm, hn⟩ := stepSerial_eq b u s6
    rw [h]; exact ⟨rfl, by constructor <;> simp [hc, hm, hn]⟩
  generalize stepSerial b u s6 = s7 at h7 ⊢
  have h8 : SliceFrame s7 (stepVideo b u q s7) ∧ SlotsKept s7.slots (stepVideo b u q s7).slots := by
    obtain ⟨vs, p, acc, h, hp, hv⟩ := stepVideo_frame b u q s7
    rw [h]; exact ⟨rfl, by constructor <;> simp [hp, hv]⟩
  exact ⟨h1.1.trans (h2.1.trans (h3.1.trans (h4.1.trans (h5.1.trans (h6.1.trans (h7.1.trans h8.1)))))),
    h1.2.trans (h2.2.trans (h3.2.trans (h4.2.trans (h5.2.trans (h6.2.trans (h7.2.trans h8.2))))))⟩

/-! ## One result for each command -/

/-- The result of a command on a block that has not faulted. -/
def commandResult (i : Instr) (s : State) : CmdResult :=
  match i with
  | .rebuild k n x => rebuild k n x s
  | .lookup c => .ok (s, { ticks := (entryAt s c).ticks, us := (entryAt s c).us })
  | .rd8 a c => read8 Config.board a c s
  | .rd16 a c => read16 Config.board a c s
  | .wr8 a d c => write8 Config.board a d c s
  | .wr16 a d c => write16 Config.board a d c s
  | .peek8 a => peek8 Config.board a s
  | .rwait a c => readWait Config.board a c s
  | .wwait a c => writeWait Config.board a c s
  | .iord8 p c => ioRead8 Config.board p c s
  | .iowr8 p d c => ioWrite8 Config.board p d c s
  | .regmap a l t w o => regmap a l t w o s
  | .mapq a => mapQuery a s
  | .setflags a l m => setFlags a l m s
  | .clrflags a l m => clearFlags a l m s
  | .testflags a => testFlags a s
  | .install g => install Config.board g s
  | .reset => busReset s
  | .run u q e => runDevices Config.board u q e s
  | .phase q => setPhase q s

theorem exec_eq_finish (i : Instr) (s : State) : exec i s = finish s (commandResult i s) := by
  cases i <;> rfl

/-- What a step is: nothing with no command pending, else the end of the command or of an illegal opcode. -/
theorem step_cases (s : State) :
    (s.pending = [] ∧ step s = .next s) ∨
    (∃ x rest i, s.pending = x :: rest ∧ decode x = .ok i ∧
      step s = .next (settle { s with pending := rest } (commandResult i { s with pending := rest }))) ∨
    (∃ x rest, s.pending = x :: rest ∧
      step s = .next (settle { s with pending := rest } (.error .illegalOpcode))) := by
  cases h : s.pending with
  | nil => exact .inl ⟨rfl, by simp [step, takeTransfer, h]⟩
  | cons x rest =>
    cases hd : decode x with
    | ok i =>
      exact .inr (.inl ⟨x, rest, i, rfl, hd, by
        simp only [step, takeTransfer, h, hd, exec_eq_finish, finish]⟩)
    | error e =>
      exact .inr (.inr ⟨x, rest, rfl, by simp only [step, takeTransfer, h, hd, rejectOpcode, finish]⟩)

/-- The changes a command that does not fault makes to the state. -/
inductive Change (s : State) : State → Prop where
  /-- Queries, open-bus accesses and discarded writes. -/
  | same : Change s s
  /-- REBUILD. -/
  | clock (cf : ClockFactor) (x : F64) (h : clockOk cf x = true) :
      Change s { s with cf := cf, crystal := x, table := buildTable cf x }
  /-- A raw write. -/
  | memory (m : Cells) (hwf : Memory.wf s.mem = true → Memory.wf m = true)
      (hrom : ∀ a, romAt s.flags a = true → readCell m a = readCell s.mem a)
      (hconv : ∀ a, s.convSize.val ≤ a → readCell m a = readCell s.mem a) : Change s { s with mem := m }
  /-- An access or a port call that reached a device. -/
  | slots (sl : Slots) (h : SlotsKept s.slots sl) : Change s { s with slots := sl }
  /-- REGMAP. -/
  | range (a : Addr) (l : Len) (t : Tag) (w : Byte) (o : Bool) (t' : State) (h : registerMap a l t w o s = .ok t') :
      Change s t'
  /-- SETFLAGS and CLRFLAGS: the range change `f` keeps ROM bits that are set, the MMIO bit and bits 7:6. -/
  | flags (f : Byte → Byte) (lo hi : Nat) (hrom : ∀ v, v &&& flagRom ≠ 0#8 → f v &&& flagRom ≠ 0#8)
      (hmmio : ∀ v, f v &&& flagMmio = v &&& flagMmio) (hres : ∀ v, f v &&& 0xC0#8 = v &&& 0xC0#8) :
      Change s { s with flags := mapFlags f lo hi s.flags }
  /-- INSTALL. -/
  | install (g : List InstallEntry) (t : State) (h0 : s.installed = false) (hg : installAccepts Config.board g = true)
      (h : installDevices Config.board g s = some t) : Change s t
  /-- RESET. -/
  | reset (t : State) (r : Response) (h : busReset s = .ok (t, r)) : Change s t
  /-- RUN. -/
  | slice (t : State) (h : SliceFrame s t) (hs : SlotsKept s.slots t.slots) : Change s t
  /-- PHASE. -/
  | phase (q : U64) : Change s { s with phaseAdj := q }

theorem rawWrite8_change (s : State) (a : Nat) (v : Byte) (ha : a < memSize) :
    ∃ m, rawWrite8 s a v = { s with mem := m } ∧ (Memory.wf s.mem = true → Memory.wf m = true) ∧
      (∀ x, romAt s.flags x = true → readCell m x = readCell s.mem x) ∧
      ∀ x, s.convSize.val ≤ x → readCell m x = readCell s.mem x := by
  rw [rawWrite8_eq]
  split
  · rename_i h
    refine ⟨_, rfl, writeCell_wf memSize s.mem a v ha, fun x hx => readCell_writeCell_other _ _ ?_,
      fun x hx => readCell_writeCell_other _ _ ?_⟩
    · rintro rfl; simp [h.1] at hx
    · have := h.2; omega
  · exact ⟨s.mem, rfl, id, fun _ _ => rfl, fun _ _ => rfl⟩

theorem access_change {s t : State} {r : Response} {a : Addr} {n : Nat} {raw : State × Response}
    {dev : Tag → VideoState → State × Response} (h : access s a n raw dev = .ok (t, r))
    (hraw : inBounds a n = true → Change s raw.1)
    (hdev : ∀ tg v, videoSlot s.slots tg = some v → Change s (dev tg v).1) : Change s t := by
  rcases access_ok h with ⟨hb, hx | ⟨tg, v, -, hv, hx⟩⟩
  · have ht : t = raw.1 := congrArg Prod.fst hx
    rw [ht]; exact hraw hb
  · have ht : t = (dev tg v).1 := congrArg Prod.fst hx
    rw [ht]; exact hdev tg v hv

theorem change_setVideo {s : State} {tg : Tag} {v : VideoState} (hv : videoSlot s.slots tg = some v) (v' : VideoState) :
    Change s (setVideo s tg v') :=
  .slots _ (slotsKept_setVideoSlot v' (by simp [hv]))

theorem change_rawWrite8 (s : State) (a : Addr) (v : Byte) : Change s (rawWrite8 s a.toNat v) := by
  obtain ⟨m, he, h1, h2, h3⟩ := rawWrite8_change s a.toNat v a.isLt
  rw [he]; exact .memory m h1 h2 h3

theorem change_rawWrite16 (s : State) (a : Addr) (v w : Byte) (hb : inBounds a 2 = true) :
    Change s (rawWrite8 (rawWrite8 s a.toNat v) (a.toNat + 1) w) := by
  have hb' : a.toNat + 1 < memSize := by simp only [inBounds, decide_eq_true_eq] at hb; omega
  obtain ⟨m, he, h1, h2, h3⟩ := rawWrite8_change s a.toNat v a.isLt
  obtain ⟨m', he', h1', h2', h3'⟩ := rawWrite8_change { s with mem := m } (a.toNat + 1) w hb'
  rw [he, he']
  exact .memory m' (fun w => h1' (h1 w)) (fun x hx => (h2' x hx).trans (h2 x hx))
    fun x hx => (h3' x hx).trans (h3 x hx)

theorem ioRead8_change {b : Board} {p : Port} {c : Cycles} {s t : State} {r : Response}
    (h : ioRead8 b p c s = .ok (t, r)) : Change s t := by
  simp only [ioRead8] at h
  split at h
  · cases h; exact .same
  · split at h
    · rename_i hp; cases h; exact .slots _ (slotsKept_portRead hp)
    · exact absurd h (by simp)

theorem ioWrite8_change {b : Board} {p : Port} {d : Byte} {c : Cycles} {s t : State} {r : Response}
    (h : ioWrite8 b p d c s = .ok (t, r)) : Change s t := by
  simp only [ioWrite8] at h
  split at h
  · cases h; exact .same
  · split at h
    · rename_i hp; cases h; exact .slots _ ((slotsKept_portWrite hp).trans (slotsKept_applyEffects _ _ _))
    · exact absurd h (by simp)

theorem regmap_change {a : Addr} {l : Len} {tg : Tag} {w : Byte} {o : Bool} {s t : State} {r : Response}
    (h : regmap a l tg w o s = .ok (t, r)) : Change s t := by
  simp only [regmap] at h
  split at h
  · exact absurd h (by simp)
  · rename_i hr; cases h; exact .range _ _ _ _ _ _ hr

theorem changeFlags_change {f : Byte → Byte} {a : Addr} {l : Len} {s t : State} {r : Response}
    (h : changeFlags f a l s = .ok (t, r)) (hrom : ∀ v, v &&& flagRom ≠ 0#8 → f v &&& flagRom ≠ 0#8)
    (hmmio : ∀ v, f v &&& flagMmio = v &&& flagMmio) (hres : ∀ v, f v &&& 0xC0#8 = v &&& 0xC0#8) : Change s t := by
  simp only [changeFlags] at h
  split at h
  · exact absurd h (by simp)
  · split at h
    · exact absurd h (by simp)
    · cases h; exact .flags _ _ _ hrom hmmio hres

theorem install_change {g : List InstallEntry} {s t : State} {r : Response}
    (h : install Config.board g s = .ok (t, r)) : Change s t := by
  simp only [install] at h
  split at h
  · exact absurd h (by simp)
  · rename_i h0
    split at h
    · rename_i hg
      split at h
      · rename_i hd; cases h; exact .install g _ (by simpa using h0) hg hd
      · exact absurd h (by simp)
    · exact absurd h (by simp)

theorem runDevices_change {b : Board} {u : F64} {q : U64} {e : Option KeyEvent} {s t : State} {r : Response}
    (h : runDevices b u q e s = .ok (t, r)) : Change s t := by
  simp only [runDevices] at h
  split at h
  · exact absurd h (by simp)
  · have := runSlice_frame b u q e s
    simp only [Except.ok.injEq] at h
    rw [h] at this
    exact .slice t this.1 this.2

/-- The inversion lemma of the block: what a command does that does not fault. -/
theorem commandResult_change {i : Instr} {s t : State} {r : Response} (h : commandResult i s = .ok (t, r)) :
    Change s t := by
  cases i with
  | rebuild k n x =>
    simp only [commandResult, rebuild] at h
    split at h
    · rename_i hc; cases h; exact .clock _ _ hc
    · exact absurd h (by simp)
  | lookup c => cases h; exact .same
  | rd8 a c => exact access_change (s := s) h (fun _ => .same) fun _ _ hv => change_setVideo hv _
  | rd16 a c => exact access_change (s := s) h (fun _ => .same) fun _ _ hv => change_setVideo hv _
  | wr8 a d c => exact access_change (s := s) h (fun _ => change_rawWrite8 s a d) fun _ _ hv => change_setVideo hv _
  | wr16 a d c =>
    exact access_change (s := s) h (fun hb => change_rawWrite16 s a _ _ hb) fun _ _ hv => change_setVideo hv _
  | peek8 a => exact access_change (s := s) h (fun _ => .same) fun _ _ _ => .same
  | rwait a c => exact access_change (s := s) h (fun _ => .same) fun _ _ _ => .same
  | wwait a c => exact access_change (s := s) h (fun _ => .same) fun _ _ _ => .same
  | iord8 p c => exact ioRead8_change h
  | iowr8 p d c => exact ioWrite8_change h
  | regmap a l tg w o => exact regmap_change h
  | mapq a =>
    simp only [commandResult, mapQuery] at h
    split at h <;> cases h <;> exact .same
  | setflags a l m =>
    exact changeFlags_change h (fun v => setMask_keeps_rom v m) (fun v => setMask_keeps_mmio v m)
      fun v => setMask_keeps_reserved v m
  | clrflags a l m =>
    exact changeFlags_change h (fun v hv => by rw [clearMask_keeps_rom]; exact hv) (fun v => clearMask_keeps_mmio v m)
      fun v => clearMask_keeps_reserved v m
  | testflags a => cases h; exact .same
  | install g => exact install_change h
  | reset => exact .reset t r h
  | run u q e => exact runDevices_change h
  | phase q => cases h; exact .phase q

/-! ## The frame of each command -/

/-- `s` with the fields that the command may write taken from `t`. -/
def frameOf (i : Instr) (s t : State) : State :=
  match i with
  | .rebuild _ _ _ => { s with cf := t.cf, crystal := t.crystal, table := t.table }
  | .lookup _ | .peek8 _ | .rwait _ _ | .wwait _ _ | .mapq _ | .testflags _ => s
  | .rd8 _ _ | .rd16 _ _ | .iord8 _ _ | .iowr8 _ _ _ => { s with slots := t.slots }
  | .wr8 _ _ _ | .wr16 _ _ _ => { s with mem := t.mem, slots := t.slots }
  | .regmap _ _ _ _ _ => { s with fastmap := t.fastmap, flags := t.flags, maplist := t.maplist }
  | .setflags _ _ _ | .clrflags _ _ _ => { s with flags := t.flags }
  | .install _ =>
    { s with
      slots := t.slots, portmap := t.portmap, fastmap := t.fastmap, flags := t.flags, maplist := t.maplist
      installed := true }
  | .reset =>
    { s with
      mem := t.mem, flags := t.flags, kbAcc := t.kbAcc, phaseAdj := t.phaseAdj, refresh := t.refresh
      refReload := t.refReload, vidAcc := t.vidAcc }
  | .run _ _ _ =>
    { s with
      slots := t.slots, kbAcc := t.kbAcc, phaseAdj := t.phaseAdj, refresh := t.refresh, refReload := t.refReload
      vidAcc := t.vidAcc }
  | .phase _ => { s with phaseAdj := t.phaseAdj }

theorem access_frame {P : State → Prop} {s t : State} {r : Response} {a : Addr} {n : Nat} {raw : State × Response}
    {dev : Tag → VideoState → State × Response} (h : access s a n raw dev = .ok (t, r)) (hraw : P raw.1)
    (hdev : ∀ tg v, P (dev tg v).1) : P t := by
  rcases access_ok h with ⟨-, hx | ⟨tg, v, -, -, hx⟩⟩
  · rw [← hx] at hraw; exact hraw
  · have := hdev tg v; rw [← hx] at this; exact this

theorem rawWrite8_mem (s : State) (a : Nat) (v : Byte) : rawWrite8 s a v = { s with mem := (rawWrite8 s a v).mem } := by
  rw [rawWrite8_eq]; split <;> rfl

theorem rawWrite16_mem (s : State) (a b : Nat) (v w : Byte) :
    rawWrite8 (rawWrite8 s a v) b w = { s with mem := (rawWrite8 (rawWrite8 s a v) b w).mem } := by
  rw [rawWrite8_mem (rawWrite8 s a v) b w, rawWrite8_mem s a v]

/-- A command that does not fault writes no field outside its frame. -/
theorem commandResult_frame {i : Instr} {s t : State} {r : Response} (h : commandResult i s = .ok (t, r)) :
    t = frameOf i s t := by
  cases i with
  | rebuild k n x =>
    simp only [commandResult, rebuild] at h
    split at h
    · cases h; rfl
    · exact absurd h (by simp)
  | lookup c => cases h; rfl
  | rd8 a c => exact access_frame (P := fun t => t = frameOf (.rd8 a c) s t) h rfl fun _ _ => rfl
  | rd16 a c => exact access_frame (P := fun t => t = frameOf (.rd16 a c) s t) h rfl fun _ _ => rfl
  | wr8 a d c =>
    exact access_frame (P := fun t => t = frameOf (.wr8 a d c) s t) h (rawWrite8_mem s a.toNat d |>.trans (by simp [frameOf])) fun _ _ => rfl
  | wr16 a d c =>
    exact access_frame (P := fun t => t = frameOf (.wr16 a d c) s t) h ((rawWrite16_mem _ _ _ _ _).trans (by simp [frameOf])) fun _ _ => rfl
  | peek8 a => exact access_frame (P := fun t => t = frameOf (.peek8 a) s t) h rfl fun _ _ => rfl
  | rwait a c => exact access_frame (P := fun t => t = frameOf (.rwait a c) s t) h rfl fun _ _ => rfl
  | wwait a c => exact access_frame (P := fun t => t = frameOf (.wwait a c) s t) h rfl fun _ _ => rfl
  | iord8 p c =>
    simp only [commandResult, ioRead8] at h
    split at h
    · cases h; rfl
    · split at h
      · cases h; rfl
      · exact absurd h (by simp)
  | iowr8 p d c =>
    simp only [commandResult, ioWrite8] at h
    split at h
    · cases h; rfl
    · split at h
      · cases h; rfl
      · exact absurd h (by simp)
  | regmap a l tg w o =>
    simp only [commandResult, regmap] at h
    split at h
    · exact absurd h (by simp)
    · rename_i hr; cases h
      rw [(registerMap_ok hr).2.2.2.2.2.2.2]; rfl
  | mapq a =>
    simp only [commandResult, mapQuery] at h
    split at h <;> cases h <;> rfl
  | setflags a l m =>
    simp only [commandResult, setFlags, changeFlags] at h
    split at h
    · exact absurd h (by simp)
    · split at h
      · exact absurd h (by simp)
      · cases h; rfl
  | clrflags a l m =>
    simp only [commandResult, clearFlags, changeFlags] at h
    split at h
    · exact absurd h (by simp)
    · split at h
      · exact absurd h (by simp)
      · cases h; rfl
  | testflags a => cases h; rfl
  | install g =>
    simp only [commandResult, install] at h
    split at h
    · exact absurd h (by simp)
    · split at h
      · split at h
        · rename_i hd; cases h
          obtain ⟨pm, -, h⟩ := installDevices_some hd
          rw [h]; rfl
        · exact absurd h (by simp)
      · exact absurd h (by simp)
  | reset => cases h; rfl
  | run u q e =>
    simp only [commandResult, runDevices] at h
    split at h
    · exact absurd h (by simp)
    · have hf := (runSlice_frame Config.board u q e s).1
      simp only [Except.ok.injEq] at h
      rw [h] at hf
      exact hf
  | phase q => cases h; rfl

/-- The three ends of `exec`: FAULTED, a fault, or the command's effects with its response. -/
theorem exec_cases {i : Instr} {s t : State} (h : exec i s = .next t) :
    (s.fault ≠ 0#8 ∧ t = { s with response := some { status := statusFaulted } }) ∨
    (s.fault = 0#8 ∧ ∃ f, commandResult i s = .error f ∧ t = raiseFault f s) ∨
    (s.fault = 0#8 ∧ ∃ u r, commandResult i s = .ok (u, r) ∧ t = { u with response := some r }) := by
  rw [exec_eq_finish] at h
  simp only [finish, Host.Outcome.next.injEq] at h
  subst h
  exact settle_cases s (commandResult i s)

/-- A command that completes answers status OK: the fault codes come from the ends of a command alone. -/
theorem commandResult_status {i : Instr} {s t : State} {r : Response}
    (h : commandResult i s = .ok (t, r)) : r.status = 0#8 := by
  have key : ∀ {a n raw dev}, access s a n raw dev = .ok (t, r) → raw.2.status = 0#8 →
      (∀ tg v, (dev tg v).2.status = 0#8) → r.status = 0#8 := by
    intro a n raw dev h h1 h2
    rcases access_ok h with ⟨-, hx | ⟨tg, v, -, -, hx⟩⟩
    · rw [← hx] at h1; exact h1
    · have := h2 tg v; rw [← hx] at this; exact this
  cases i with
  | rd8 a c => exact key h rfl fun _ _ => rfl
  | rd16 a c => exact key h rfl fun _ _ => rfl
  | wr8 a d c => exact key h rfl fun _ _ => rfl
  | wr16 a d c => exact key h rfl fun _ _ => rfl
  | peek8 a => exact key h rfl fun _ _ => rfl
  | rwait a c => exact key h rfl fun _ _ => rfl
  | wwait a c => exact key h rfl fun _ _ => rfl
  | run u q e =>
    simp only [commandResult, runDevices] at h
    split at h
    · cases h
    · simp only [runSlice, Except.ok.injEq, Prod.mk.injEq] at h; rw [← h.2]
  | _ =>
    simp only [commandResult, rebuild, ioRead8, ioWrite8, regmap, mapQuery, setFlags, clearFlags, changeFlags, testFlags,
      install, busReset, setPhase] at h
    repeat' split at h
    all_goals first | (cases h; rfl) | cases h

end Sys2Proof.Machine
end

