-- ==== Sys2Proof/Laws/Invariant.lean ====
section
/-! SUPPORT. The parts of the invariant: what installing devices makes of the slots and the port map, and that each
change of a command keeps the invariant. -/

namespace Sys2Proof.Machine

/-! ## Slots by tag -/

/-- A live device with byte I/O is a live device that is no keyboard and no mouse. -/
theorem codeAt_live {sl : Slots} {t : Tag} : sl.PortLive t ↔ sl.codeAt t ≠ none ∧ t ≠ 0x07#8 ∧ t ≠ 0x0B#8 := by
  have h7 : t = 0x07#8 ↔ t.toNat = 7 := ⟨fun h => by rw [h]; rfl, fun h => BitVec.eq_of_toNat_eq h⟩
  have hB : t = 0x0B#8 ↔ t.toNat = 0x0B := ⟨fun h => by rw [h]; rfl, fun h => BitVec.eq_of_toNat_eq h⟩
  unfold Slots.PortLive Slots.codeAt
  simp only [ne_eq, h7, hB]
  generalize hn : t.toNat = n
  split <;> simp [isVideoTag, hn]
  all_goals (split <;> simp_all)

theorem toNat_ne_of_ne {t u : Tag} {n : Nat} (h : t ≠ u) (hu : u.toNat = n) : t.toNat ≠ n := fun e =>
  h (BitVec.eq_of_toNat_eq (e.trans hu.symm))

theorem codeAt_putDevice (sl : Slots) (e : InstallEntry) (t : Tag) (h : Tag.assigned e.tag = true) :
    (putDevice sl e).codeAt t = if t = e.tag then some e.init else sl.codeAt t := by
  obtain ⟨u, c⟩ := e
  simp only [Tag.assigned, Bool.or_eq_true, Bool.and_eq_true, decide_eq_true_eq] at h
  by_cases htu : t = u
  · subst htu
    simp only [if_true, putDevice, Slots.codeAt]
    generalize hn : t.toNat = n at h ⊢
    split <;> first
      | rfl
      | (have hv : isVideoTag t = true := by simp only [imp_false] at *; simp only [isVideoTag, hn, decide_eq_true_eq]; omega
         simp [hv])
  · simp only [htu, if_false, putDevice]
    split
    case h_12 =>
      split
      · rename_i hu
        unfold Slots.codeAt
        simp only [setVideoSlot_pit, setVideoSlot_pic1, setVideoSlot_pic2, setVideoSlot_dma1, setVideoSlot_dma2,
          setVideoSlot_ppi, setVideoSlot_kbd, setVideoSlot_fdc, setVideoSlot_hdc, setVideoSlot_serial, setVideoSlot_mouse]
        split <;> try rfl
        split
        · rename_i ht
          rw [videoSlot_setVideoSlot, if_neg]
          intro hi
          exact htu (videoTag_index ht hu hi)
        · rfl
      · rfl
    all_goals
      rename_i hu
      have := toNat_ne_of_ne htu hu
      unfold Slots.codeAt
      split <;> first | rfl | (exfalso; omega)

/-! ## The entries of an install configuration by ascending tag -/

theorem distinctTags_iff (g : List InstallEntry) :
    distinctTags g = true ↔ g.Pairwise fun e e' => e.tag ≠ e'.tag := by
  induction g with
  | nil => simp [distinctTags]
  | cons e g ih =>
    simp only [distinctTags, Bool.and_eq_true, List.all_eq_true, bne_iff_ne, List.pairwise_cons, ih]
    exact and_congr_left fun _ => forall₂_congr fun _ _ => ne_comm

/-- With distinct tags every entry of the configuration has its turn. -/
theorem byAscendingTag_mem_iff {g : List InstallEntry} (hd : g.Pairwise fun e e' => e.tag ≠ e'.tag) {e : InstallEntry} :
    e ∈ byAscendingTag g ↔ e ∈ g := by
  refine ⟨mem_byAscendingTag, fun he => List.mem_filterMap.2 ⟨e.tag.toNat, ?_, ?_⟩⟩
  · exact mem_tabulateFrom.2 ⟨e.tag.toNat, Nat.zero_le _, by have := e.tag.isLt; omega, rfl⟩
  · induction g with
    | nil => simp at he
    | cons f g ih =>
      rw [List.pairwise_cons] at hd
      rcases List.mem_cons.1 he with rfl | he'
      · simp
      · have hne : f.tag.toNat ≠ e.tag.toNat := fun h => hd.1 e he' (BitVec.eq_of_toNat_eq h)
        rw [List.find?_cons_of_neg (by simpa using hne)]
        exact ih hd.2 he'

theorem tabulateFrom_rising (n k : Nat) : (tabulateFrom (fun k => k) n k).Pairwise (· < ·) := by
  induction n generalizing k with
  | zero => exact List.Pairwise.nil
  | succ n ih =>
    refine List.pairwise_cons.2 ⟨fun x hx => ?_, ih (k + 1)⟩
    obtain ⟨i, h1, -, rfl⟩ := mem_tabulateFrom.1 hx
    exact h1

/-- The tags of the entries rise strictly. -/
theorem byAscendingTag_rising (g : List InstallEntry) :
    (byAscendingTag g).Pairwise fun e e' => e.tag.toNat < e'.tag.toNat := by
  refine (List.pairwise_filterMap.2 ((tabulateFrom_rising 256 0).imp ?_))
  intro x y hxy e he e' he'
  have h1 := List.find?_some he
  have h2 := List.find?_some he'
  simp only [beq_iff_eq] at h1 h2
  omega

/-- The slots after installing entries with assigned tags that rise: the entries' states, the rest as before. -/
theorem codeAt_putDevices {gs : List InstallEntry} (hr : gs.Pairwise fun e e' => e.tag.toNat < e'.tag.toNat)
    (ha : ∀ e ∈ gs, Tag.assigned e.tag = true) (sl : Slots) :
    (∀ e ∈ gs, (gs.foldl putDevice sl).codeAt e.tag = some e.init) ∧
      ∀ t, (∀ e ∈ gs, e.tag ≠ t) → (gs.foldl putDevice sl).codeAt t = sl.codeAt t := by
  induction gs generalizing sl with
  | nil => simp
  | cons e gs ih =>
    rw [List.pairwise_cons] at hr
    obtain ⟨h1, h2⟩ := ih hr.2 (fun e' he' => ha e' (List.mem_cons_of_mem _ he')) (putDevice sl e)
    have he := ha e List.mem_cons_self
    refine ⟨fun e' he' => ?_, fun t ht => ?_⟩
    · rcases List.mem_cons.1 he' with rfl | he'
      · rw [List.foldl_cons, h2 _ fun x hx hxt => by have := hr.1 x hx; rw [hxt] at this; omega,
          codeAt_putDevice _ _ _ he, if_pos rfl]
      · exact h1 e' he'
    · rw [List.foldl_cons, h2 t fun x hx => ht x (List.mem_cons_of_mem _ hx), codeAt_putDevice _ _ _ he,
        if_neg fun h => ht e List.mem_cons_self h.symm]

/-- A device that advertises a port is no keyboard and no mouse. -/
theorem portsOf_class {b : Board} {e : InstallEntry} {p : Port} (h : p ∈ portsOf b e) :
    e.tag ≠ 0x07#8 ∧ e.tag ≠ 0x0B#8 := by
  constructor <;> (intro ht; rw [portsOf, ht] at h; simp [isVideoTag] at h)

/-! ## Registered ranges -/

theorem assigned_ne_zero {t : Tag} (h : Tag.assigned t = true) : t ≠ 0x00#8 := by
  rintro rfl; exact absurd h (by decide)

/-- The first cover's tag is 0x00 exactly where nothing covers, on lists of admitted registrations. -/
theorem listTag_eq_zero {l : List Registration} (h : ∀ r ∈ l, r.Admitted) (a : Nat) :
    listTag l a = 0x00#8 ↔ ∀ r ∈ l, r.covers a = false := by
  unfold listTag
  split
  · rename_i r hr
    have := List.find?_some hr
    have hm := List.mem_of_find?_eq_some hr
    refine ⟨fun h0 => absurd h0 (assigned_ne_zero (h r hm).1), fun hn => ?_⟩
    rw [hn r hm] at this; exact absurd this (by simp)
  · rename_i hn
    simpa using hn

theorem listTag_append (l : List Registration) (r : Registration) (a : Nat) (h : ∀ q ∈ l, q.covers a = false) :
    listTag (l ++ [r]) a = if r.covers a then r.tag else 0x00#8 := by
  have : l.find? (fun q => q.covers a) = none := by simpa using h
  rw [listTag, List.find?_append, this]
  simp only [Option.none_or, List.find?_cons, List.find?_nil]
  cases hc : r.covers a <;> simp

theorem listTag_append_other (l : List Registration) (r : Registration) (a : Nat) (h : r.covers a = false) :
    listTag (l ++ [r]) a = listTag l a := by
  rw [listTag, List.find?_append]
  simp [h, listTag]

theorem covers_iff (r : Registration) (a : Nat) :
    r.covers a = true ↔ r.base.toNat ≤ a ∧ a < r.base.toNat + r.size.toNat := by
  simp [Registration.covers]

theorem covers_lt {r : Registration} (h : r.Admitted) {a : Nat} (hc : r.covers a = true) : a < memSize := by
  have := (covers_iff r a).1 hc; have := h.2.2.2.2; omega

/-- The flags byte after a range change with one mask. -/
theorem mmioAt_mapFlags (f : Byte → Byte) (lo hi : Nat) (fl : FlagMap) (a : Nat) (ha : a < memSize)
    (hf : ∀ v, f v &&& flagMmio = v &&& flagMmio) : mmioAt (mapFlags f lo hi fl) a = mmioAt fl a := by
  simp only [mmioAt, flagAt_mapFlags f lo hi fl a ha]
  split
  · rw [hf]
  · rfl

/-- The map part of the invariant, on a state whose devices may still be missing. -/
theorem Inv_addRange {a : Addr} {l : Len} {t : Tag} {w : Byte} {o : Bool} {s s' : State} (h : s.Inv)
    (hr : registerMap a l t w o s = .ok s') : s'.Inv := by
  obtain ⟨ht, hl, hl8, hl0, ha8, hal, hfree, rfl⟩ := registerMap_ok hr
  rw [bucketsTaken_eq_false] at hfree
  have hl0' : 0 < l.toNat := by
    rcases Nat.eq_zero_or_pos l.toNat with h0 | h0
    · exact absurd (BitVec.eq_of_toNat_eq h0) hl0
    · exact h0
  have hcov : ∀ x, (⟨a, l, w, o, t⟩ : Registration).covers x = true ↔ a.toNat ≤ x ∧ x < a.toNat + l.toNat :=
    fun x => covers_iff _ x
  have hbucket : ∀ x, (a.toNat / bucketSize ≤ x / bucketSize ∧ x / bucketSize < (a.toNat + l.toNat) / bucketSize) ↔
      (a.toNat ≤ x ∧ x < a.toNat + l.toNat) := by
    intro x; simp only [bucketSize] at *; omega
  have hnone : ∀ x, a.toNat ≤ x → x < a.toNat + l.toNat → ∀ q ∈ s.maplist, q.covers x = false := by
    intro x h1 h2
    have hx := (hbucket x).2 ⟨h1, h2⟩
    have := hfree _ hx.1 hx.2
    rw [h.fast x (by omega), listTag_eq_zero h.admitted] at this
    exact this
  refine { h with
    flags := mapFlags_wf (· ||| flagMmio) a.toNat (a.toNat + l.toNat) s.flags
    reserved := ?_, mmio := ?_, fast := ?_, admitted := ?_, disjoint := ?_ }
  · intro x hx
    have := h.reserved x hx
    simp only [addRange, flagAt_mapFlags _ _ _ _ x hx]
    split
    · rw [orMmio_reserved]; exact this
    · exact this
  · intro x hx
    simp only [addRange, mmioAt, flagAt_mapFlags _ _ _ _ x hx, List.mem_append, List.mem_singleton]
    by_cases hin : a.toNat ≤ x ∧ x < a.toNat + l.toNat
    · rw [if_pos hin]
      refine ⟨fun _ => ⟨_, .inr rfl, (hcov x).2 hin⟩, fun _ => by simpa using orMmio_mmio _⟩
    · rw [if_neg hin]
      have := h.mmio x hx
      rw [mmioAt] at this
      rw [this]
      constructor
      · rintro ⟨r, hr, hc⟩; exact ⟨r, .inl hr, hc⟩
      · rintro ⟨r, hr | rfl, hc⟩
        · exact ⟨r, hr, hc⟩
        · exact absurd ((hcov x).1 hc) hin
  · intro x hx
    have hk : x / bucketSize < 128 := by simp only [bucketSize, memSize] at *; omega
    simp only [addRange, bucketTag_setBuckets _ _ _ _ _ hk]
    by_cases hin : a.toNat ≤ x ∧ x < a.toNat + l.toNat
    · rw [if_pos ((hbucket x).2 hin), listTag_append _ _ _ (hnone x hin.1 hin.2), if_pos ((hcov x).2 hin)]
    · rw [if_neg fun hb => hin ((hbucket x).1 hb), h.fast x hx, listTag_append_other]
      rw [Bool.eq_false_iff]; exact fun hc => hin ((hcov x).1 hc)
  · intro r hr
    simp only [addRange, List.mem_append, List.mem_singleton] at hr
    rcases hr with hr | rfl
    · exact h.admitted r hr
    · exact ⟨ht, ha8, hl8, hl0', hal⟩
  · simp only [addRange, List.pairwise_append]
    refine ⟨h.disjoint, List.pairwise_singleton _ _, ?_⟩
    intro q hq r hr x hx
    rw [List.mem_singleton] at hr
    subst hr
    have := (hcov x).1 hx.2
    rw [hnone x this.1 this.2 q hq] at hx
    exact absurd hx.1 (by simp)

/-! ## The other changes -/

theorem Inv_slots {s : State} (h : s.Inv) {sl : Slots} (hs : SlotsKept s.slots sl)
    (hi : s.installed = false → sl = Slots.absent) : ({ s with slots := sl } : State).Inv :=
  { h with ports := fun p hp => hs.portLive (h.ports p hp), installed := fun hn => ⟨hi hn, (h.installed hn).2⟩ }

theorem videoSlot_absent (t : Tag) : videoSlot Slots.absent t = none := by simp [videoSlot, Slots.absent]

/-- Slots kept from none are none. -/
theorem SlotsKept.absent {sl : Slots} (h : SlotsKept Slots.absent sl) : sl = Slots.absent := by
  obtain ⟨p1, p2, p3, p4, p5, p6, p7, p8, p9, p10, p11, v⟩ := sl
  have hv : v = Slots.absent.video := vector_ext_get fun i => by
    rw [(h.video i).2 (by simp [Slots.absent])]; simp [Slots.absent]
  have := h.pit.2 rfl; have := h.pic1.2 rfl; have := h.pic2.2 rfl; have := h.dma1.2 rfl; have := h.dma2.2 rfl
  have := h.ppi.2 rfl; have := h.kbd.2 rfl; have := h.fdc.2 rfl; have := h.hdc.2 rfl; have := h.serial.2 rfl
  have := h.mouse.2 rfl
  simp_all [Slots.absent]

theorem Inv_slotsKept {s : State} (h : s.Inv) {sl : Slots} (hs : SlotsKept s.slots sl) :
    ({ s with slots := sl } : State).Inv :=
  Inv_slots h hs fun hn => by rw [(h.installed hn).1] at hs; exact hs.absent

theorem Inv_mem {s : State} (h : s.Inv) {m : Cells} (hm : Memory.wf m = true) : ({ s with mem := m } : State).Inv :=
  { h with mem := hm }

/-- A flags change that keeps the MMIO bit and bits 7:6. -/
theorem Inv_mapFlags {s : State} (h : s.Inv) (f : Byte → Byte) (lo hi : Nat)
    (hmmio : ∀ v, f v &&& flagMmio = v &&& flagMmio) (hres : ∀ v, v &&& 0xC0#8 = 0#8 → f v &&& 0xC0#8 = 0#8) :
    ({ s with flags := mapFlags f lo hi s.flags } : State).Inv := by
  refine { h with flags := mapFlags_wf _ _ _ _, reserved := fun a ha => ?_, mmio := fun a ha => ?_ }
  · simp only [flagAt_mapFlags f lo hi s.flags a ha]
    split
    · exact hres _ (h.reserved a ha)
    · exact h.reserved a ha
  · simp only [mmioAt_mapFlags f lo hi s.flags a ha hmmio]
    exact h.mmio a ha

theorem Inv_clock {s : State} (h : s.Inv) {cf : ClockFactor} {x : F64} (hc : clockOk cf x = true) :
    ({ s with cf := cf, crystal := x, table := buildTable cf x } : State).Inv :=
  { h with clock := hc, table := rfl }

theorem Inv_busReset {s t : State} {r : Response} (h : s.Inv) (hr : busReset s = .ok (t, r)) : t.Inv := by
  cases hr
  have h1 := Inv_mapFlags h (· &&& resetKeepMask) 0 memSize resetMask_keeps_mmio fun v _ => resetMask_reserved v
  exact { h1 with mem := filter_wf _ _ _ h.mem }

/-- The scheduler registers, the response and the pending transfers stand outside the invariant. -/
theorem Inv_of_slice {s t : State} (h : s.Inv) (hf : SliceFrame s t) (hs : SlotsKept s.slots t.slots) : t.Inv := by
  rw [hf]
  exact { Inv_slotsKept h hs with }

/-- INSTALL keeps the invariant. -/
theorem Inv_install {b : Board} {g : List InstallEntry} {s t : State} (h : s.Inv) (hi : s.installed = false)
    (hg : installAccepts b g = true) (hd : installDevices b g s = some t) : t.Inv := by
  obtain ⟨pm, hpm, -⟩ := installDevices_some hd
  simp only [installDevices, hpm] at hd
  simp only [installAccepts, Bool.and_eq_true, List.all_eq_true] at hg
  have hslots := codeAt_putDevices (byAscendingTag_rising g) (fun e he => hg.1.1.1 e (mem_byAscendingTag he)) s.slots
  refine registerAllApertures_induct (P := State.Inv) (fun _ _ _ _ _ _ _ hr hs => Inv_addRange hs hr) hd ?_
  refine { h with portmap := claimAllPorts_wf hpm h.portmap, ports := fun p hp => ?_, installed := fun hn => ?_ }
  · rcases claimAllPorts_source hpm p with hs | ⟨e, he, hs, q, hq, -⟩
    · rw [(h.installed hi).2] at hs
      exact absurd (hs.trans (readCell_nil p)) hp
    · rw [hs]
      exact codeAt_live.2 ⟨by rw [hslots.1 e he]; simp, portsOf_class hq⟩
  · exact absurd hn (by simp)

end Sys2Proof.Machine
end

