-- ==== Sys2Proof/Laws/Install.lean ====
section
/-! SUPPORT. When REGMAP and INSTALL accept their operands, in the terms of Safety.lean. -/

namespace Sys2Proof.Machine

/-! ## One range -/

theorem bucketTag_val (fm : Vector Tag 128) (k : Fin 128) : fm.get k = bucketTag fm k.val := by
  rw [bucketTag, dif_pos k.isLt, Vector.get_eq_getElem]

theorem bucketsTaken_false_iff {fm : Vector Tag 128} {lo hi : Nat} (hh : hi ≤ 128) :
    bucketsTaken fm lo hi = false ↔ ∀ k : Fin 128, lo ≤ k.val → k.val < hi → fm.get k = 0#8 := by
  rw [bucketsTaken_eq_false]
  constructor
  · intro h k h1 h2; rw [bucketTag_val]; exact h k h1 h2
  · intro h k h1 h2; have := h ⟨k, by omega⟩ h1 h2; rwa [bucketTag_val] at this

/-- REGMAP accepts a range exactly where `Admits` says so, for an assigned tag (43_map_config.md R106). -/
theorem regmapCheck_eq_none {s : State} {a : Addr} {l : Len} {t : Tag} (ht : Tag.assigned t = true) :
    regmapCheck s.fastmap a l t = none ↔ s.Admits (t, a, l) := by
  unfold regmapCheck State.Admits
  simp only [ht, Len.legal]
  by_cases h1 : l.toNat ≤ memSize
  case neg =>
    simp [h1]; intro _ _ _ h; simp only [memSize] at h1; omega
  by_cases h2 : l.toNat % bucketSize = 0
  case neg => simp [h1, h2]
  by_cases h3 : l = 0#21
  case pos => simp [h3]
  by_cases h4 : a.toNat % bucketSize = 0
  case neg => simp [h1, h2, h3, h4]
  by_cases h5 : a.toNat + l.toNat ≤ memSize
  case neg => simp [h1, h2, h3, h4, h5, Nat.not_le.1 h5]
  have h6 : (a.toNat + l.toNat)/bucketSize ≤ 128 := by simp only [memSize, bucketSize] at *; omega
  have := bucketsTaken_false_iff (fm := s.fastmap) (lo := a.toNat / bucketSize) h6
  simp only [bucketSize] at *
  cases hb : bucketsTaken s.fastmap (a.toNat / 0x2000) ((a.toNat + l.toNat)/0x2000)
  · simp [h1, h2, h3, h4, h5, Nat.not_lt.2 h5]
    exact this.1 hb
  · have : ¬ _ := fun h => absurd (this.2 h) (by simp [hb])
    simp [h1, h2, h3, h4, h5, Nat.not_lt.2 h5]
    simpa using this

/-! ## Apertures in a row -/

/-- Register apertures in a row. -/
def registerList : List Aperture → State → Option State
  | [], s => some s
  | x :: r, s => match registerMap x.2.1 x.2.2 x.1 0x00#8 false s with
    | .ok s' => registerList r s'
    | .error _ => none

theorem registerApertures_eq (t : Tag) (as : List (Addr × Len)) (s : State) :
    registerApertures t as s = registerList (as.map fun x => (t, x.1, x.2)) s := by
  induction as generalizing s with
  | nil => rfl
  | cons x as ih =>
    obtain ⟨a, l⟩ := x
    simp only [registerApertures, registerList, List.map_cons]
    cases registerMap a l t 0#8 false s with
    | error _ => rfl
    | ok s' => exact ih s'

theorem registerList_append (xs ys : List Aperture) (s : State) :
    registerList (xs ++ ys) s = match registerList xs s with
      | some s' => registerList ys s'
      | none => none := by
  induction xs generalizing s with
  | nil => rfl
  | cons x xs ih =>
    simp only [registerList, List.cons_append]
    cases registerMap x.2.1 x.2.2 x.1 0#8 false s with
    | error _ => rfl
    | ok s' => exact ih s'

theorem registerAllApertures_eq (b : Board) (g : List InstallEntry) (s : State) :
    registerAllApertures b g s =
      registerList (g.flatMap fun e => (aperturesOf b e).map fun x => (e.tag, x.1, x.2)) s := by
  induction g generalizing s with
  | nil => rfl
  | cons e g ih =>
    rw [List.flatMap_cons, registerList_append, registerAllApertures, registerApertures_eq]
    cases registerList ((aperturesOf b e).map fun x => (e.tag, x.1, x.2)) s with
    | none => rfl
    | some s' => exact ih s'

/-- No address is in both. -/
def Aperture.Disjoint (x y : Aperture) : Prop := ∀ a, ¬(x.Covers a ∧ y.Covers a)

theorem admits_addRange {s : State} {x y : Aperture} (hx : s.Admits x) (ht : x.1 ≠ 0#8) :
    (addRange x.2.1 x.2.2 x.1 0#8 false s).Admits y ↔ s.Admits y ∧ (Aperture.Disjoint x y) := by
  obtain ⟨t, a, l⟩ := x
  obtain ⟨t', a', l'⟩ := y
  unfold State.Admits Aperture.Disjoint Aperture.Covers at *
  simp only at *
  obtain ⟨x1, x2, x3, x4, x5⟩ := hx
  have hfm : ∀ k : Fin 128, (addRange a l t 0#8 false s).fastmap.get k =
      if a.toNat / 0x2000 ≤ k.val ∧ k.val < (a.toNat + l.toNat) / 0x2000 then t else s.fastmap.get k := by
    intro k
    rw [bucketTag_val, bucketTag_val]; exact bucketTag_setBuckets _ _ _ _ _ k.isLt
  have hl : 0 < l.toNat := by
    rcases Nat.eq_zero_or_pos l.toNat with h | h
    · exact absurd (BitVec.eq_of_toNat_eq (by simpa using h)) x2
    · exact h
  simp only [hfm]
  constructor
  · rintro ⟨y1, y2, y3, y4, y5⟩
    have hl' : 0 < l'.toNat := by
      rcases Nat.eq_zero_or_pos l'.toNat with h | h
      · exact absurd (BitVec.eq_of_toNat_eq (by simpa using h)) y2
      · exact h
    refine ⟨⟨y1, y2, y3, y4, fun k k1 k2 => ?_⟩, ?_⟩
    · have := y5 k k1 k2
      split at this
      · exact absurd this ht
      · exact this
    · rintro c ⟨⟨c1, c2⟩, c3, c4⟩
      have := y5 ⟨c / 0x2000, by omega⟩ (by simp only; omega) (by simp only; omega)
      simp only at this
      rw [if_pos (by omega)] at this
      exact ht this
  · rintro ⟨⟨y1, y2, y3, y4, y5⟩, hd⟩
    refine ⟨y1, y2, y3, y4, fun k k1 k2 => ?_⟩
    rw [if_neg]
    · exact y5 k k1 k2
    · rintro ⟨c1, c2⟩
      exact hd (k.val * 0x2000) (by omega)

theorem registerList_isSome (xs : List Aperture) (s : State) (ha : ∀ x ∈ xs, Tag.assigned x.1 = true) :
    (∃ t, registerList xs s = some t) ↔ ((∀ x ∈ xs, s.Admits x) ∧ xs.Pairwise Aperture.Disjoint) := by
  induction xs generalizing s with
  | nil => simp [registerList]
  | cons x xs ih =>
    have hx := ha x (by simp)
    have ha' : ∀ x ∈ xs, Tag.assigned x.1 = true := fun y hy => ha y (by simp [hy])
    simp only [registerList, registerMap]
    by_cases hadm : s.Admits x
    · rw [(regmapCheck_eq_none hx).2 hadm]
      simp only
      rw [ih _ ha', List.pairwise_cons]
      simp only [admits_addRange hadm (assigned_ne_zero hx), List.mem_cons, forall_eq_or_imp]
      constructor
      · rintro ⟨h1, h2⟩; exact ⟨⟨hadm, fun y hy => (h1 y hy).1⟩, fun y hy => (h1 y hy).2, h2⟩
      · rintro ⟨⟨_, h1⟩, h2, h3⟩; exact ⟨fun y hy => ⟨h1 y hy, h2 y hy⟩, h3⟩
    · cases hc : regmapCheck s.fastmap x.2.1 x.2.2 x.1 with
      | none => exact absurd ((regmapCheck_eq_none hx).1 hc) hadm
      | some f => simp [hadm]

/-- What apertures in a row do to the state (43_map_config.md R106, R113). -/
theorem registerList_effect (xs : List Aperture) {s t : State} (ha : ∀ x ∈ xs, Tag.assigned x.1 = true)
    (h : registerList xs s = some t) :
    t = { s with
          fastmap := t.fastmap
          flags := t.flags
          maplist := s.maplist ++ xs.map fun x => ⟨x.2.1, x.2.2, 0x00#8, false, x.1⟩ } ∧
    (∀ x ∈ xs, ∀ a : Addr, x.Covers a.toNat →
      t.fastmap.get (bucketOf a) = x.1 ∧ flagAt t.flags a.toNat = flagAt s.flags a.toNat ||| 0x20#8) ∧
    ∀ a : Addr, (∀ x ∈ xs, ¬x.Covers a.toNat) →
      t.fastmap.get (bucketOf a) = s.fastmap.get (bucketOf a) ∧ flagAt t.flags a.toNat = flagAt s.flags a.toNat := by
  have hI := (registerList_isSome xs s ha).1 ⟨t, h⟩
  induction xs generalizing s with
  | nil => simp only [registerList, Option.some.injEq] at h; subst h; simp
  | cons x xs ih =>
    have hx := ha x (by simp)
    have ha' : ∀ x ∈ xs, Tag.assigned x.1 = true := fun y hy => ha y (by simp [hy])
    have hadm : s.Admits x := hI.1 x (by simp)
    simp only [registerList, registerMap, (regmapCheck_eq_none hx).2 hadm] at h
    obtain ⟨e, h1, h2⟩ := ih ha' h ((registerList_isSome xs _ ha').1 ⟨t, h⟩)
    have hd : ∀ y ∈ xs, Aperture.Disjoint x y := (List.pairwise_cons.1 hI.2).1
    have hfl : ∀ a : Addr, flagAt (addRange x.2.1 x.2.2 x.1 0#8 false s).flags a.toNat =
        if x.2.1.toNat ≤ a.toNat ∧ a.toNat < x.2.1.toNat + x.2.2.toNat then flagAt s.flags a.toNat ||| 0x20#8
        else flagAt s.flags a.toNat :=
      fun a => flagAt_mapFlags (· ||| flagMmio) _ _ s.flags _ a.isLt
    have hfm : ∀ a : Addr, (addRange x.2.1 x.2.2 x.1 0#8 false s).fastmap.get (bucketOf a) =
        if x.2.1.toNat ≤ a.toNat ∧ a.toNat < x.2.1.toNat + x.2.2.toNat then x.1
        else s.fastmap.get (bucketOf a) := by
      intro a
      rw [bucketTag_get, bucketTag_get,
        show (addRange x.2.1 x.2.2 x.1 0#8 false s).fastmap = setBuckets s.fastmap _ _ _ from rfl,
        bucketTag_setBuckets _ _ _ _ (a.toNat / bucketSize) (bucketOf a).isLt]
      obtain ⟨x1, x2, x3, x4, x5⟩ := hadm
      simp only [bucketSize]
      congr 1
      rw [eq_iff_iff]
      constructor
      · rintro ⟨_, _⟩; constructor <;> omega
      · rintro ⟨_, _⟩; constructor <;> omega
    refine ⟨?_, ?_, ?_⟩
    · rw [e]; simp [addRange]
    · intro y hy a hc
      rcases List.mem_cons.1 hy with rfl | hy
      · obtain ⟨q1, q2⟩ := h2 a (fun z hz hzc => hd z hz a.toNat ⟨hc, hzc⟩)
        unfold Aperture.Covers at hc; rw [q1, q2, hfm, hfl, if_pos hc, if_pos hc]; exact ⟨rfl, rfl⟩
      · obtain ⟨q1, q2⟩ := h1 y hy a hc
        refine ⟨q1, q2.trans ?_⟩
        rw [hfl, if_neg]
        exact fun hxc => hd y hy a.toNat ⟨hxc, hc⟩
    · intro a hn
      obtain ⟨q1, q2⟩ := h2 a (fun z hz => hn z (by simp [hz]))
      have hn' := hn x (by simp)
      unfold Aperture.Covers at hn'
      rw [q1, q2, hfm, hfl, if_neg hn', if_neg hn']
      exact ⟨rfl, rfl⟩

/-! ## Ports -/

/-- A device's ports are claimed exactly where each is free or its own (43_map_config.md R113). -/
theorem claimPorts_iff (t : Tag) (ps : List Port) (pm : Cells) :
    (∃ pm', claimPorts t ps pm = some pm') ↔
      ∀ p ∈ ps, readCell pm p.toNat = 0#8 ∨ readCell pm p.toNat = t := by
  induction ps generalizing pm with
  | nil => simp [claimPorts]
  | cons p ps ih =>
    simp only [claimPorts, claimPort]
    by_cases h : readCell pm p.toNat = 0#8 ∨ readCell pm p.toNat = t
    · rw [if_neg (by tauto)]
      simp only [ih, List.mem_cons, forall_eq_or_imp, h, true_and, readCell_writeCell]
      apply forall₂_congr; intro q hq
      split
      · rename_i e; have : q = p := BitVec.eq_of_toNat_eq e
        subst this; simp [h]
      · rfl
    · rw [if_pos (by tauto)]
      simp [h]

/-- The ports of all devices are claimed exactly where each is free and no two devices share one
(43_map_config.md R113). -/
theorem claimAllPorts_iff (b : Board) (g : List InstallEntry)
    (hr : g.Pairwise fun e e' => e.tag.toNat < e'.tag.toNat) (ha : ∀ e ∈ g, e.tag ≠ 0#8) (pm : Cells)
    (hpm : ∀ p, ∀ e ∈ g, readCell pm p ≠ e.tag) :
    (∃ pm', claimAllPorts b g pm = some pm') ↔
      ((∀ e ∈ g, ∀ p ∈ portsOf b e, readCell pm p.toNat = 0#8) ∧
        ∀ e ∈ g, ∀ e' ∈ g, ∀ p, p ∈ portsOf b e → p ∈ portsOf b e' → e.tag = e'.tag) := by
  induction g generalizing pm with
  | nil => simp [claimAllPorts]
  | cons e g ih =>
    obtain ⟨r1, r2⟩ := List.pairwise_cons.1 hr
    have he := ha e (by simp)
    have hne : ∀ e' ∈ g, e'.tag ≠ e.tag := fun e' h' h => by have := r1 e' h'; rw [h] at this; omega
    have hc := claimPorts_iff e.tag (portsOf b e) pm
    simp only [claimAllPorts]
    cases hcl : claimPorts e.tag (portsOf b e) pm with
    | none =>
      simp only [reduceCtorEq, exists_false, false_iff]
      rintro ⟨h1, h2⟩
      have := hc.2 (fun p hp => .inl (h1 e (by simp) p hp))
      simp [hcl] at this
    | some pm1 =>
      have hc1 := hc.1 ⟨pm1, hcl⟩
      have hrd := claimPorts_read hcl
      have hc2 : ∀ p ∈ portsOf b e, readCell pm p.toNat = 0#8 :=
        fun p hp => (hc1 p hp).resolve_right (hpm _ e (by simp))
      rw [ih r2 (fun e' h' => ha e' (by simp [h'])) pm1 ?_]
      · constructor
        · rintro ⟨h1, h2⟩
          refine ⟨?_, ?_⟩
          · intro e' he' p hp
            rcases List.mem_cons.1 he' with rfl | he'
            · exact hc2 p hp
            · have := h1 e' he' p hp
              rw [hrd] at this
              split at this
              · exact absurd this he
              · exact this
          · have key : ∀ e' ∈ g, ∀ p, p ∈ portsOf b e → p ∈ portsOf b e' → False := by
              intro e' he' p hp hp'
              have := h1 e' he' p hp'
              rw [hrd, if_pos ⟨p, hp, rfl⟩] at this
              exact he this
            intro e1 h1' e2 h2' p hp1 hp2
            rcases List.mem_cons.1 h1' with rfl | h1' <;> rcases List.mem_cons.1 h2' with rfl | h2'
            · rfl
            · exact (key _ h2' _ hp1 hp2).elim
            · exact (key e1 (by assumption) p hp2 hp1).elim
            · exact h2 _ h1' _ h2' _ hp1 hp2
        · rintro ⟨h1, h2⟩
          refine ⟨fun e' he' p hp => ?_, fun e1 h1' e2 h2' => h2 e1 (by simp [h1']) e2 (by simp [h2'])⟩
          rw [hrd, if_neg]
          · exact h1 e' (by simp [he']) p hp
          · rintro ⟨q, hq, hqp⟩
            have : q = p := BitVec.eq_of_toNat_eq hqp
            subst this
            exact hne e' he' (h2 e' (by simp [he']) e (by simp) q hp hq)
      · intro p e' he'
        rw [hrd]
        split
        · exact (hne e' he').symm
        · exact hpm p e' (by simp [he'])

/-- The port map after all claims (43_map_config.md R113). -/
theorem claimAllPorts_read (b : Board) (g : List InstallEntry) (pm pm' : Cells)
    (h : claimAllPorts b g pm = some pm')
    (hd : ∀ e ∈ g, ∀ e' ∈ g, ∀ p, p ∈ portsOf b e → p ∈ portsOf b e' → e.tag = e'.tag) :
    (∀ e ∈ g, ∀ p ∈ portsOf b e, readCell pm' p.toNat = e.tag) ∧
      ∀ p : Port, (∀ e ∈ g, p ∉ portsOf b e) → readCell pm' p.toNat = readCell pm p.toNat := by
  induction g generalizing pm with
  | nil => simp only [claimAllPorts, Option.some.injEq] at h; simp [h]
  | cons e g ih =>
    simp only [claimAllPorts] at h
    split at h
    · rename_i pm1 hc
      have hrd := claimPorts_read hc
      obtain ⟨i1, i2⟩ := ih pm1 h (fun e1 h1' e2 h2' => hd e1 (by simp [h1']) e2 (by simp [h2']))
      refine ⟨?_, ?_⟩
      · intro e' he' p hp
        rcases List.mem_cons.1 he' with rfl | he'
        · by_cases hx : ∃ e2 ∈ g, p ∈ portsOf b e2
          · obtain ⟨e2, h2, hp2⟩ := hx
            rw [i1 e2 h2 p hp2]; exact hd e2 (by simp [h2]) e' (by simp) p hp2 hp
          · rw [i2 p (by simpa using hx), hrd, if_pos ⟨p, hp, rfl⟩]
        · exact i1 e' he' p hp
      · intro p hp
        rw [i2 p (fun e' he' => hp e' (by simp [he'])), hrd, if_neg]
        rintro ⟨q, hq, hqp⟩
        have : q = p := BitVec.eq_of_toNat_eq hqp
        subst this
        exact hp e (by simp) hq
    · exact absurd h (by simp)

/-! ## The checks -/

theorem assigned_eq_false_iff (t : Tag) :
    (t = 0x00#8 ∨ (0x0C ≤ t.toNat ∧ t.toNat ≤ 0x7F)) ↔ Tag.assigned t = false := by
  revert t; decide +kernel

/-- The checks of INSTALL before any copy is made (43_map_config.md R113). -/
theorem installAccepts_iff (b : Board) (g : List InstallEntry) : installAccepts b g = true ↔
   ((∀ e ∈ g, ¬(e.tag = 0x00#8 ∨ (0x0C ≤ e.tag.toNat ∧ e.tag.toNat ≤ 0x7F))) ∧
    g.Pairwise (fun e e' => e.tag ≠ e'.tag) ∧
    (∀ e ∈ g, 0x80 ≤ e.tag.toNat → b.videoKind (e.tag.extractLsb' 4 3) = true) ∧
    b.supported g = true) := by
  simp only [installAccepts, Bool.and_eq_true, List.all_eq_true, distinctTags_iff, assigned_eq_false_iff,
    Bool.not_eq_false, Bool.or_eq_true, Bool.not_eq_true', videoKindOf, and_assoc]
  constructor
  · rintro ⟨h1, h2, h3, h4⟩
    exact ⟨h1, h2, fun e he hv => (h3 e he).resolve_left (by simp [isVideoTag, hv]), h4⟩
  · rintro ⟨h1, h2, h3, h4⟩
    refine ⟨h1, h2, fun e he => ?_, h4⟩
    by_cases hv : 0x80 ≤ e.tag.toNat
    · exact .inr (h3 e he hv)
    · exact .inl (by simp [isVideoTag]; omega)

/-- No slot is filled before INSTALL. -/
theorem codeAt_absent (t : Tag) : Slots.absent.codeAt t = none := by
  have : ∀ t : Tag, videoSlot Slots.absent t = none := fun t => tabulate_getElem _ _ _ _
  unfold Slots.codeAt; split <;> simp [Slots.absent]
  intro _; exact this t

end Sys2Proof.Machine
end

