-- ==== Sys2Proof/Laws/Slice.lean ====
section
/-! SUPPORT. The steps of RUN with the pulses they send, in the terms of Safety.lean: effects on the primary PIC, the
scancode latch, step 1, the checks of RUN, and step 8 card by card. -/

namespace Sys2Proof.Machine

/-! ## Effects -/

/-- Effects reach the primary PIC, in order, and nothing else (10_state.md R47). -/
theorem applyEffects_pulseAll (b : Board) (es : List Effect) :
    ∀ sl : Slots, applyEffects b sl es = { sl with pic1 := pulseAll b es sl.pic1 } := by
  induction es with
  | nil => intro sl; simp [applyEffects, pulseAll]
  | cons e es ih =>
    intro sl
    have : applyEffects b sl (e :: es) = applyEffects b (applyEffect b sl e) es := rfl
    rw [this, ih]
    cases e with
    | pulse l =>
      unfold applyEffect
      cases h : sl.pic1 <;> simp [pulseAll, h]

theorem pulseAll_append (b : Board) (xs ys : List Effect) (c : Option PicState) :
    pulseAll b (xs ++ ys) c = pulseAll b ys (pulseAll b xs c) := by
  cases c <;> simp [pulseAll]

theorem pulseAll_nil (b : Board) (c : Option PicState) : pulseAll b [] c = c := by cases c <;> rfl

/-! ## Step 1 -/

/-- The latch of a list of scancodes where the PPI is present (44_scheduler.md R118). -/
theorem scancodes_latch (b : Board) (xs : List Byte) :
    ∀ (sl : Slots) (p : PpiState), sl.ppi = some p →
    xs.foldl (scancodeLatch b) sl =
      { sl with ppi := some (latchAll b xs p), pic1 := pulseAll b (latchPulses b xs p) sl.pic1 } := by
  induction xs with
  | nil => intro sl p h; simp only [List.foldl_nil, latchAll, latchPulses, pulseAll_nil]; cases sl; simp_all
  | cons x xs ih =>
    intro sl p h
    rw [List.foldl_cons]
    have hs : scancodeLatch b sl x =
        { sl with
          ppi := some (b.ppi.latch p x).1
          pic1 := pulseAll b (if (b.ppi.latch p x).2 then [.pulse 1] else []) sl.pic1 } := by
      unfold scancodeLatch; rw [h]; simp only
      split
      · rw [applyEffects_pulseAll]
      · rw [pulseAll_nil]
    rw [hs, ih _ _ rfl]
    simp only [latchAll, latchPulses, pulseAll_append]

/-- With no PPI every scancode is discarded (44_scheduler.md R118). -/
theorem scancodes_discarded (b : Board) (xs : List Byte) :
    ∀ sl : Slots, sl.ppi = none → xs.foldl (scancodeLatch b) sl = sl := by
  induction xs with
  | nil => intros; rfl
  | cons x xs ih =>
    intro sl h
    rw [List.foldl_cons, show scancodeLatch b sl x = sl by unfold scancodeLatch; rw [h]]
    exact ih sl h

/-- The scancodes of a slice (44_scheduler.md R117). -/
theorem keyboardSlice_scancodes (b : Board) (u : F64) (e : Option KeyEvent) (k : KbdState) (s : State)
    (h : s.slots.kbd = some k) : (keyboardSlice b u e k s.kbAcc).scancodes = scancodesOf b u e s := by
  unfold keyboardSlice scancodesOf keyTicks keyApplied
  rw [h]; simp only
  cases e <;> simp only <;> split <;> simp

/-! ## The checks -/

theorem mem_videoTags : ∀ t : Tag, 0x80 ≤ t.toNat → t ∈ videoTags := by decide +kernel
theorem videoTags_nodup : videoTags.Nodup := by decide +kernel
theorem videoTags_video : ∀ t ∈ videoTags, 0x80 ≤ t.toNat := by decide +kernel

theorem elapsedOk_eq (u : F64) :
    elapsedOk u = (!Binary64.isNaN u && !Binary64.isInf u && !Binary64.gt Binary64.zero u) := by
  have hz : Binary64.isNaN Binary64.zero = false := by decide
  have hk : Binary64.orderKey Binary64.zero = 0 := by decide
  unfold elapsedOk Binary64.isFinite Binary64.ge Binary64.gt
  rw [hz, hk]
  unfold Binary64.isNaN Binary64.isInf
  generalize Binary64.magBits u = m
  generalize Binary64.orderKey u = k
  rw [Bool.eq_iff_iff]
  simp
  omega

/-- RUN's checks pass exactly where `RunAccepted` says so (44_scheduler.md R116). -/
theorem runCheck_eq_none (u : F64) (q : U64) (s : State) :
    runCheck Config.board u q s = none ↔ s.RunAccepted u q := by
  unfold runCheck State.RunAccepted
  rw [elapsedOk_eq]
  have h2 : (videoTags.any fun t =>
      (videoSlot s.slots t).isSome && Config.board.videoUnit (videoKindOf t) == .ticks
        && ticksOverflow (s.vidAcc.get (videoIndex t)) q) = false ↔
      ∀ t : Tag, 0x80 ≤ t.toNat → videoSlot s.slots t ≠ none →
        Config.board.videoUnit (t.extractLsb' 4 3) = .ticks →
          (s.vidAcc.get (videoIndex t)).toNat + q.toNat < 2 ^ 64 := by
    rw [List.any_eq_false]
    constructor
    · intro h t ht h1 h2
      have := h t (mem_videoTags t ht)
      simp only [videoKindOf, h2, ticksOverflow, beq_self_eq_true, Bool.and_true, Bool.and_eq_true, decide_eq_true_eq,
        not_and, Nat.not_le] at this
      exact this (by simpa [Option.isSome_iff_ne_none] using h1)
    · intro h t ht
      have := h t (videoTags_video t ht)
      simp only [videoKindOf, ticksOverflow, Bool.and_eq_true, decide_eq_true_eq, not_and, Nat.not_le, beq_iff_eq,
        and_imp, Option.isSome_iff_ne_none]
      exact this
  rw [← h2]
  have h3 : (s.slots.pit.isSome && !Config.board.pitHasCrystal && ticksOverflow q s.phaseAdj) = false ↔
      (s.slots.pit ≠ none → Config.board.pitHasCrystal = false → q.toNat + s.phaseAdj.toNat < 2 ^ 64) := by
    cases s.slots.pit <;> cases Config.board.pitHasCrystal <;> simp [ticksOverflow]
  rw [← h3]
  cases Binary64.isNaN u <;> cases Binary64.isInf u <;> cases Binary64.gt Binary64.zero u <;>
    simp only [Bool.not_true, Bool.not_false, Bool.and_true, Bool.and_false, if_true, if_false, reduceCtorEq, true_and,
      Bool.true_eq_false, Bool.false_eq_true, false_and]
  generalize (s.slots.pit.isSome && !Config.board.pitHasCrystal && ticksOverflow q s.phaseAdj) = A
  generalize (videoTags.any fun t => _) = B
  cases A <;> cases B <;> simp

/-! ## Step 8 -/

/-- What one card makes of the primary PIC (44_scheduler.md R127). -/
theorem stepVideoCard_pic1 (b : Board) (u : F64) (q : U64) (s z : State) (t : Tag)
    (h1 : videoSlot z.slots t = videoSlot s.slots t) (h2 : z.vidAcc.get (videoIndex t) = s.vidAcc.get (videoIndex t)) :
    (stepVideoCard b u q z t).slots.pic1 = cardPulses b u q s z.slots.pic1 t := by
  unfold stepVideoCard cardPulses
  rw [h1]
  cases hv : videoSlot s.slots t with
  | none => rfl
  | some v =>
    simp only [cardCall, h2, videoKindOf]
    cases hu : b.videoUnit (t.extractLsb' 4 3) with
    | us => simp only [applyEffects_pulseAll]; rfl
    | ticks => 
      simp only
      by_cases hm : b.videoTickMin (t.extractLsb' 4 3) ≤ s.vidAcc.get (videoIndex t) + q
      · rw [if_pos hm, if_pos hm]; simp only [applyEffects_pulseAll]; rfl
      · rw [if_neg hm, if_neg hm]

/-- What cards in a row make of the primary PIC: each sees it as those before it left it (44_scheduler.md R127). -/
theorem stepVideoCards_pic1 (b : Board) (u : F64) (q : U64) (s : State) :
    ∀ (ts : List Tag) (z : State), ts.Nodup → (∀ t ∈ ts, 0x80 ≤ t.toNat) →
    (∀ t ∈ ts, videoSlot z.slots t = videoSlot s.slots t ∧
      z.vidAcc.get (videoIndex t) = s.vidAcc.get (videoIndex t)) →
    (ts.foldl (stepVideoCard b u q) z).slots.pic1 = ts.foldl (cardPulses b u q s) z.slots.pic1 := by
  intro ts
  induction ts with
  | nil => intros; rfl
  | cons t ts ih =>
    intro z hn hv h
    rw [List.foldl_cons, List.foldl_cons, ← stepVideoCard_pic1 b u q s z t (h t (by simp)).1 (h t (by simp)).2]
    refine ih _ (List.nodup_cons.1 hn).2 (fun t' ht' => hv t' (by simp [ht'])) (fun t' ht' => ?_)
    have hne : videoIndex t' ≠ videoIndex t := fun hi => by
      have := videoTag_index (by simpa [isVideoTag] using hv t' (by simp [ht']))
        (by simpa [isVideoTag] using hv t (by simp)) hi
      exact (List.nodup_cons.1 hn).1 (this ▸ ht')
    obtain ⟨vs, p, acc, e1, -, -, e4⟩ := stepVideoCards_frame b u q [t] z
    simp only [List.foldl_cons, List.foldl_nil] at e1
    obtain ⟨g1, g2⟩ := e4 (videoIndex t') (by simpa using hne.symm)
    rw [e1]
    exact ⟨Eq.trans g1 (h t' (by simp [ht'])).1, Eq.trans g2 (h t' (by simp [ht'])).2⟩

/-- A card's own slot and accumulator after its step (44_scheduler.md R127). -/
theorem stepVideoCard_own (b : Board) (u : F64) (q : U64) (z : State) (t : Tag) :
    (videoSlot z.slots t = none → videoSlot (stepVideoCard b u q z t).slots t = none ∧
      (stepVideoCard b u q z t).vidAcc.get (videoIndex t) = z.vidAcc.get (videoIndex t)) ∧
    ∀ v, videoSlot z.slots t = some v →
      (videoSlot (stepVideoCard b u q z t).slots t, (stepVideoCard b u q z t).vidAcc.get (videoIndex t)) =
        match b.videoUnit (t.extractLsb' 4 3) with
          | .us => (some ((b.video t).vadvanceUs v u z.slots.pic1).1, z.vidAcc.get (videoIndex t))
          | .ticks =>
            if b.videoTickMin (t.extractLsb' 4 3) ≤ z.vidAcc.get (videoIndex t) + q then
              (some ((b.video t).vadvanceTicks v (z.vidAcc.get (videoIndex t) + q) z.slots.pic1).1, 0#64)
            else (some v, z.vidAcc.get (videoIndex t) + q) := by
  refine ⟨fun h => ?_, fun v h => ?_⟩
  · simp [stepVideoCard, h]
  · simp only [stepVideoCard, h, videoKindOf]
    cases hu : b.videoUnit (t.extractLsb' 4 3) with
    | us => 
      simp only [applyEffects_pulseAll]
      congr 1
      exact videoSlot_setVideoSlot_same _ _ _
    | ticks =>
      simp only
      by_cases hm : b.videoTickMin (t.extractLsb' 4 3) ≤ z.vidAcc.get (videoIndex t) + q
      · simp only [hm, if_true]
        simp only [applyEffects_pulseAll]
        rw [vector_get_set, if_pos rfl]
        congr 1
        exact videoSlot_setVideoSlot_same _ _ _
      · simp only [hm, if_false]
        rw [vector_get_set, if_pos rfl, h]

end Sys2Proof.Machine
end

