-- ==== Sys2Proof/Machine/Assembler.lean ====
section
/-! DEFINITION. Command text (spec/30_encoding.md R75, R76): from the characters of a command to its transfer, and
so, by the decoder, to the command. Text that the rules do not admit has no transfer (log entry 14). -/

namespace Sys2Proof.Machine

/-- The characters of a piece of text. -/
abbrev Text := List Char

/-! ## Numbers -/

/-- The value of a digit in a base up to 16. -/
def digitValue (base : Nat) (c : Char) : Option Nat :=
  let n := c.toNat
  let d :=
    if 0x30 ≤ n ∧ n ≤ 0x39 then n - 0x30
    else if 0x41 ≤ n ∧ n ≤ 0x46 then n - 0x37
    else if 0x61 ≤ n ∧ n ≤ 0x66 then n - 0x57
    else base
  if d < base then some d else none

/-- Digits onto a value already read. -/
def readDigits (base : Nat) : Nat → Text → Option Nat
  | v, [] => some v
  | v, c :: cs =>
    match digitValue base c with
    | some d => readDigits base (v * base + d) cs
    | none => none

/-- A number of one or more digits. -/
def readNumber (base : Nat) (cs : Text) : Option Nat := if cs = [] then none else readDigits base 0 cs

/-- An integer, in decimal, or in hexadecimal after `0x` (30_encoding.md R75). -/
def readInteger : Text → Option Nat
  | '0' :: 'x' :: cs => readNumber 16 cs
  | cs => readNumber 10 cs

/-- An integer that fits a bus of `w` bits. -/
def readBits (w : Nat) (cs : Text) : Option (BitVec w) :=
  match readInteger cs with
  | some n => if n < 2 ^ w then some (BitVec.ofNat w n) else none
  | none => none

/-- The text before and after the first `c`; after it, none where there is no `c`. -/
def splitFirst (c : Char) : Text → Text × Option Text
  | [] => ([], none)
  | x :: xs =>
    if x = c then ([], some xs)
    else
      let r := splitFirst c xs
      (x :: r.1, r.2)

/-- A decimal literal without sign or exponent as a fraction: its digits, and the power of ten they are over. -/
def readFraction (cs : Text) : Option (Nat × Nat) :=
  match splitFirst '.' cs with
  | (whole, none) => (readNumber 10 whole).map fun n => (n, 1)
  | (whole, some frac) =>
    match readNumber 10 whole, readNumber 10 frac with
    | some w, some f => some (w * 10 ^ frac.length + f, 10 ^ frac.length)
    | _, _ => none

/-- The binary64 value nearest to a decimal literal, which may have an exponent (30_encoding.md R75). -/
def readMagnitude (cs : Text) : Option F64 :=
  match splitFirst 'e' cs with
  | (m, none) => (readFraction m).map fun r => Binary64.ofRatio r.1 r.2
  | (m, some ('-' :: ex)) =>
    match readFraction m, readNumber 10 ex with
    | some r, some k => some (Binary64.ofRatio r.1 (r.2 * 10 ^ k))
    | _, _ => none
  | (m, some ex) =>
    match readFraction m, readNumber 10 ex with
    | some r, some k => some (Binary64.ofRatio (r.1 * 10 ^ k) r.2)
    | _, _ => none

/-- The same with a sign. -/
def readBinary64 : Text → Option F64
  | '-' :: cs => (readMagnitude cs).map Binary64.neg
  | cs => readMagnitude cs

/-! ## Operands -/

/-- A key event's name as the event: its characters as one number (log entry 14). -/
def keyEventOfName (cs : Text) : KeyEvent := ⟨cs.foldl (fun v c => v * 0x200000 + c.toNat) 0⟩

/-- The names by which an operand may be given: the bus letter of 30_encoding.md R67, and the name that the examples
of R75 use (log entry 14). -/
def busNames : Bus → List Text
  | .a => [['A']]
  | .p => [['P']]
  | .d => [['D']]
  | .c => [['C']]
  | .l => [['L']]
  | .m => [['M']]
  | .t => [['T'], ['t', 'a', 'g']]
  | .w => [['W'], ['w', 'c', 'o', 's', 't']]
  | .o => [['O'], ['r', 'o']]
  | .k => [['K']]
  | .n => [['N']]
  | .x => [['X']]
  | .u => [['U'], ['u', 's']]
  | .q => [['Q'], ['t', 'i', 'c', 'k', 's']]
  | .e => [['E'], ['k', 'e', 'y']]
  | .g => [['G']]

/-- The value of an operand that the text leaves out: `wcost`, `ro` and `key` may be left out (log entry 14). -/
def defaultText : Bus → Option Text
  | .w => some ['0']
  | .o => some ['0']
  | .e => some ['n', 'o', 'n', 'e']
  | _ => none

/-- An operand's text put on its bus (30_encoding.md R75). An install configuration has no text. -/
def putBus (b : Bus) (v : Text) (x : Transfer) : Option Transfer :=
  match b with
  | .a => (readBits 20 v).map fun n => { x with a := n }
  | .p => (readBits 16 v).map fun n => { x with p := n }
  | .d => (readBits 16 v).map fun n => { x with d := n }
  | .c => (readBits 9 v).map fun n => { x with c := n }
  | .l => (readBits 21 v).map fun n => { x with l := n }
  | .m => (readBits 8 v).map fun n => { x with m := n }
  | .t => (readBits 8 v).map fun n => { x with t := n }
  | .w => (readBits 8 v).map fun n => { x with w := n }
  | .o => (readBits 1 v).map fun n => { x with o := n.getLsbD 0 }
  | .k =>
    if v = ['d', 'i', 'v'] then some { x with k := false }
    else if v = ['m', 'u', 'l'] then some { x with k := true }
    else none
  | .n => (readBits 32 v).map fun n => { x with n := n }
  | .x => (readBinary64 v).map fun n => { x with x := n }
  | .u => (readBinary64 v).map fun n => { x with u := n }
  | .q => (readBits 64 v).map fun n => { x with q := n }
  | .e =>
    if v = ['n', 'o', 'n', 'e'] then some { x with eValid := false }
    else some { x with eValid := true, eEv := keyEventOfName v }
  | .g => none

/-- The operands onto the buses of a format: an operand given by name goes to its bus, the others fill the remaining
buses in the order of the format, and no operand is left over (30_encoding.md R75). -/
def fillBuses : List Bus → List (Text × Text) → List Text → Transfer → Option Transfer
  | [], [], [], x => some x
  | [], _, _, _ => none
  | b :: bs, named, placed, x =>
    match named.find? fun o => (busNames b).contains o.1 with
    | some o =>
      match putBus b o.2 x with
      | some x' => fillBuses bs (named.erase o) placed x'
      | none => none
    | none =>
      match placed with
      | v :: rest =>
        match putBus b v x with
        | some x' => fillBuses bs named rest x'
        | none => none
      | [] =>
        match defaultText b with
        | some v =>
          match putBus b v x with
          | some x' => fillBuses bs named [] x'
          | none => none
        | none => none

/-! ## Commands -/

/-- The mnemonics of 30_encoding.md R70 with their opcodes. -/
def mnemonics : List (Text × Byte) :=
  [(['R', 'E', 'B', 'U', 'I', 'L', 'D'], 0x01#8), (['L', 'O', 'O', 'K', 'U', 'P'], 0x02#8),
   (['R', 'D', '8'], 0x10#8), (['R', 'D', '1', '6'], 0x11#8),
   (['W', 'R', '8'], 0x12#8), (['W', 'R', '1', '6'], 0x13#8)] ++
  [(['P', 'E', 'E', 'K', '8'], 0x14#8), (['R', 'W', 'A', 'I', 'T'], 0x15#8), (['W', 'W', 'A', 'I', 'T'], 0x16#8),
   (['I', 'O', 'R', 'D', '8'], 0x20#8), (['I', 'O', 'W', 'R', '8'], 0x21#8)] ++
  [(['R', 'E', 'G', 'M', 'A', 'P'], 0x30#8), (['M', 'A', 'P', 'Q'], 0x31#8),
   (['S', 'E', 'T', 'F', 'L', 'A', 'G', 'S'], 0x32#8), (['C', 'L', 'R', 'F', 'L', 'A', 'G', 'S'], 0x33#8),
   (['T', 'E', 'S', 'T', 'F', 'L', 'A', 'G', 'S'], 0x34#8)] ++
  [(['I', 'N', 'S', 'T', 'A', 'L', 'L'], 0x38#8), (['R', 'E', 'S', 'E', 'T'], 0x3F#8),
   (['R', 'U', 'N'], 0x40#8), (['P', 'H', 'A', 'S', 'E'], 0x41#8)]

/-- The pseudo-commands of 30_encoding.md R76: the buses their text gives, and the transfer with the others. -/
def pseudoCommands : List (Text × List Bus × Transfer) :=
  [(['M', 'A', 'R', 'K', 'R', 'O', 'M'], [.a, .l], { op := 0x32#8, m := 0x01#8 }),
   (['B', 'R', 'E', 'A', 'K', 'X'], [.a], { op := 0x32#8, l := 1#21, m := 0x04#8 }),
   (['B', 'R', 'E', 'A', 'K', 'A'], [.a], { op := 0x32#8, l := 1#21, m := 0x08#8 }),
   (['U', 'N', 'B', 'R', 'E', 'A', 'K'], [.a, .l], { op := 0x33#8, m := 0x0E#8 })]

/-- The buses that the text of a mnemonic gives, and the transfer they are put on. -/
def commandForm (name : Text) : Option (List Bus × Transfer) :=
  match mnemonics.find? fun r => r.1 == name with
  | some r => some (formatBuses r.2, { op := r.2 })
  | none => (pseudoCommands.find? fun r => r.1 == name).map Prod.snd

/-- Spaces at the front dropped. -/
def dropSpaces : Text → Text
  | ' ' :: cs => dropSpaces cs
  | cs => cs

/-- Spaces at both ends dropped. -/
def trimSpaces (cs : Text) : Text := (dropSpaces (dropSpaces cs).reverse).reverse

/-- The pieces between commas, `cur` the current one backwards. -/
def splitCommas (cur : Text) : Text → List Text
  | [] => [trimSpaces cur.reverse]
  | ',' :: cs => trimSpaces cur.reverse :: splitCommas [] cs
  | c :: cs => splitCommas (c :: cur) cs

/-- The operands of a command, by name and by place. -/
def readOperands : List Text → List (Text × Text) × List Text
  | [] => ([], [])
  | o :: os =>
    let r := readOperands os
    match splitFirst '=' o with
    | (name, some v) => ((name, v) :: r.1, r.2)
    | (v, none) => (r.1, v :: r.2)

/-- The transfer of a command's text (30_encoding.md R75, R76). -/
def assembleTransfer (cs : Text) : Option Transfer :=
  match splitFirst ' ' (trimSpaces cs) with
  | (name, rest) =>
    match commandForm name with
    | some (buses, x) =>
      let os := match rest with
        | some r => readOperands (splitCommas [] r)
        | none => ([], [])
      fillBuses buses os.1 os.2 x
    | none => none

/-- The command of a text. -/
def assemble (cs : Text) : Option Instr :=
  match assembleTransfer cs with
  | some x => (decode x).toOption
  | none => none

end Sys2Proof.Machine
end

