-- ==== Sys2Proof/Tests/Slice0.lean ====
section
/-! SUPPORT. Tests: the WellFormed smoke, words decoded from the encodings of the spec, small steps whose expected
results stand in spec/95_test_vectors.md, and a witness for the hypotheses of each statement. -/

namespace Sys2Proof.Tests

open Sys2Proof.Machine

-- One theorem after the other: many kernel evaluations waiting at a time take much memory.
set_option Elab.async false

/-! ## The collaborators of 95_test_vectors.md section 0 -/

/-- Number `i` of a device state. -/
def at' (l : List Nat) (i : Nat) : Nat := l.getD i 0

/-- Ports read 0x00 and take every write with no effect. -/
def quietIo {σ : Type} (ps : List Port) : ByteIo σ :=
  { read := fun s _ _ => (0x00#8, s), write := fun s _ _ _ => (s, []), ports := fun _ => ps }

/-- pitA: `[counting, reload, total]`. -/
def pitA : PitFns where
  io :=
    { read := fun s p _ => (if p = 0x41#16 then BitVec.ofNat 8 (at' s.code 1) else 0x00#8, s)
      write := fun s p v _ =>
        (if p ≠ 0x41#16 then s
         else if v = 0#8 then ⟨[0, at' s.code 1, at' s.code 2]⟩
         else ⟨[1, v.toNat, at' s.code 2]⟩, [])
      ports := fun _ => [0x40#16, 0x41#16, 0x42#16, 0x43#16] }
  advanceUs := fun s _ => (s, [])
  advanceTicks := fun s k => (⟨[at' s.code 0, at' s.code 1, at' s.code 2 + k.toNat]⟩, [])
  ch1 := fun s =>
    { counting := at' s.code 0 == 1, reload := BitVec.ofNat 16 (at' s.code 1), elem := BitVec.ofNat 16 (at' s.code 1)
      carry := ⟨0⟩ }

/-- picA: `[total, pulses[0], …, pulses[7]]`. -/
def picA : PicFns where
  io := quietIo [0x20#16, 0x21#16]
  pulse := fun s l => ⟨s.code.modify (l.val + 1) (· + 1)⟩
  advance := fun s q => ⟨s.code.modify 0 (· + q.toNat)⟩

/-- kbdA: the queue of scancodes; the event's number is the scancode of its key. -/
def kbdA : KbdFns where
  apply := fun s e => (s, some (BitVec.ofNat 8 e.code))
  tick := fun s =>
    match s.code with
    | [] => (s, none, false)
    | x :: rest => (⟨rest⟩, some (BitVec.ofNat 8 x), false)

/-- ppiA: `[latched, en, turbo]`, turbo 0 for none, 1 for false, 2 for true. -/
def ppiA : PpiFns where
  io := { quietIo [0x60#16, 0x61#16, 0x62#16, 0x63#16] with
    read := fun s p _ => (if p = 0x60#16 then BitVec.ofNat 8 (at' s.code 0) else 0x00#8, s) }
  latch := fun s x => (⟨[x.toNat, at' s.code 1, at' s.code 2]⟩, at' s.code 1 == 1)
  advance := fun s _ _ =>
    (⟨[at' s.code 0, at' s.code 1, 0]⟩,
      match at' s.code 2 with
      | 0 => none
      | n => some (n == 2))

/-- pulserA, on the serial tag: a write pulses line 4. -/
def pulserA : SerialFns where
  io := { quietIo [0x3F8#16] with write := fun s _ _ _ => (s, [.pulse 4]) }
  advance := fun s _ => (s, [])

/-- dmaA: the log of the calls, 8 for the FDC, 9 for the HDC, 4 for its own advance. -/
def dmaA : DmaFns where
  io := quietIo []
  advance := fun s _ => ⟨s.code ++ [4]⟩

/-- fdcA and hdcA: 1 if the DMA state was lent, 0 if not; the name goes to the log of the DMA state. -/
def storageA (name : Nat) : StorageFns where
  io := quietIo []
  step := fun _ d _ => (⟨[if d.isSome then 1 else 0]⟩, [])
  dmaAfter := fun _ d _ => ⟨d.code ++ [name]⟩

/-- vidA: `nus`, then the offsets and bytes of `vram`, latest first. -/
def vram (l : List Nat) (o : Nat) : Nat :=
  match l with
  | p :: v :: rest => if p = o then v else vram rest o
  | _ => 0

/-- vidA (tag 0x80) and vidB (tag 0x90, records the ticks it was called with). -/
def vid (t : Tag) : VideoFns where
  io := quietIo []
  apertures := fun _ => if t = 0x90#8 then [] else [(0xB8000#20, 0x8000#21)]
  mpeek8 := fun s a => BitVec.ofNat 8 (vram s.code.tail (a.toNat - 0xB8000))
  mrwait := fun _ _ k => BitVec.ofNat 32 (k.toNat + 2)
  mwwait := fun _ _ k => BitVec.ofNat 32 (k.toNat + 2)
  readNext8 := fun s _ _ => s
  writeNext8 := fun s a d _ => ⟨at' s.code 0 :: (a.toNat - 0xB8000) :: d.toNat :: s.code.tail⟩
  mread16 := fun s a k =>
    (BitVec.ofNat 16 (vram s.code.tail (a.toNat - 0xB8000 + 1) * 256 + vram s.code.tail (a.toNat - 0xB8000)),
      BitVec.ofNat 32 (k.toNat + 2), s)
  mwrite16 := fun s a d k =>
    (BitVec.ofNat 32 (k.toNat + 2),
      ⟨at' s.code 0 :: (a.toNat - 0xB8000) :: d.toNat % 256 :: (a.toNat - 0xB8000 + 1) :: d.toNat / 256 ::
        s.code.tail⟩)
  vadvanceUs := fun s _ _ => (⟨(at' s.code 0 + 1) :: s.code.tail⟩, [])
  vadvanceTicks := fun _ k _ => (⟨[k.toNat]⟩, [.pulse 2])

/-- The machine of 95_test_vectors.md section 0, at power-on with factor `div 3` and 14.31818 MHz. -/
def board : Board where
  convSize := 0xA0000
  kbUpdateUs := { us := 0x40B3880000000000#64 }
  clock := { cf := ⟨.divisor, 3#32⟩, crystal := 0x402CA2E87D2C7B89#64 }
  pitHasCrystal := false
  supported := fun _ => true
  videoKind := fun k => k == 0#3 || k == 1#3
  videoUnit := fun k => if k = 0#3 then .us else .ticks
  videoTickMin := fun _ => 100#64
  pit := pitA
  pic := fun _ => picA
  dma := fun _ => dmaA
  ppi := ppiA
  kbd := kbdA
  storage := fun t => storageA t.toNat
  serial := pulserA
  mouse := { advance := fun m c _ => (m, c) }
  video := vid

/-- Power-on. -/
def s0 : State := State.powerOn board [] []

/-- The state and the response after a command, and none after a fault. -/
def ok (r : CmdResult) : Option (State × Response) := r.toOption
/-- The response. -/
def rsp (r : CmdResult) : Option Response := r.toOption.map (·.2)
/-- The fault. -/
def flt (r : CmdResult) : Option FaultCode :=
  match r with
  | .ok _ => none
  | .error f => some f
/-- Something of the state after. -/
def look {α : Type} (r : CmdResult) (f : State → α) : Option α := r.toOption.map (f ·.1)
/-- The response of an outcome. -/
def answer : Host.Outcome State Fault Refusal → Option Response
  | .next s => s.response
  | _ => none

/-- vidA in its slot, with its aperture registered. -/
def s1 : State := addRange 0xB8000#20 0x8000#21 0x80#8 0x00#8 false (setVideo s0 0x80#8 ⟨[0]⟩)

/-- pitA, picA, ppiA, kbdA in their slots, and pitA's and picA's ports mapped: machine K. -/
def k0 : State :=
  { s0 with
    installed := true
    portmap := [(0x20, 2), (0x21, 2), (0x40, 1), (0x41, 1), (0x42, 1), (0x43, 1), (0x60, 6), (0x61, 6), (0x62, 6),
      (0x63, 6)]
    slots := { Slots.absent with
      pit := some ⟨[0, 0, 0]⟩, pic1 := some ⟨[0, 0, 0, 0, 0, 0, 0, 0, 0]⟩, ppi := some ⟨[0, 1, 0]⟩, kbd := some ⟨[]⟩ } }

/-! ## WellFormed: each check refuses an ill-formed command -/

theorem test_wf_rebuild : (Instr.rebuild .divisor 0#32 0x402CA2E87D2C7B89#64).WellFormed = false := by decide
theorem test_wf_rd16 : (Instr.rd16 0xFFFFF#20 4#9).WellFormed = false := by decide
theorem test_wf_wr16 : (Instr.wr16 0xFFFFF#20 0#16 4#9).WellFormed = false := by decide
theorem test_wf_regmap :
    [Instr.regmap 0xA0000#20 0x2000#21 0x00#8 0#8 false, .regmap 0xA0000#20 0x2000#21 0x0C#8 0#8 false,
      .regmap 0xA0000#20 0x102000#21 0x80#8 0#8 false, .regmap 0xA0000#20 0x1000#21 0x80#8 0#8 false,
      .regmap 0xA0000#20 0#21 0x80#8 0#8 false, .regmap 0xB9000#20 0x2000#21 0x80#8 0#8 false,
      .regmap 0xFE000#20 0x4000#21 0x80#8 0#8 false].all (!·.WellFormed) = true := by decide
theorem test_wf_setflags :
    [Instr.setflags 0xFFFFF#20 2#21 4#8, .setflags 0#20 0x100001#21 1#8].all (!·.WellFormed) = true := by decide
theorem test_wf_clrflags :
    [Instr.clrflags 0xFFFFF#20 2#21 4#8, .clrflags 0#20 0x100001#21 1#8].all (!·.WellFormed) = true := by decide
theorem test_wf_install :
    [Instr.install [⟨0x0C#8, []⟩], .install [⟨0x01#8, []⟩, ⟨0x01#8, []⟩]].all (!·.WellFormed) = true := by decide
theorem test_wf_run :
    [Instr.run 0xBFF0000000000000#64 0#64 none, .run 0x7FF8000000000000#64 0#64 none,
      .run 0x7FF0000000000000#64 0#64 none].all (!·.WellFormed) = true := by decide
theorem test_wf_accepts :
    [Instr.rebuild .divisor 3#32 0x402CA2E87D2C7B89#64, .rd16 0xFFFFE#20 4#9,
      .regmap 0x00000#20 0x100000#21 0x80#8 0#8 false, .setflags 0xFFFFF#20 1#21 4#8, .clrflags 0#20 0#21 1#8,
      .install [⟨0x01#8, []⟩, ⟨0x80#8, []⟩], .run 0x8000000000000000#64 0#64 none].all (·.WellFormed) = true := by
  decide

/-! ## Decoding: the encodings of 95_test_vectors.md Part 3 and of 30_encoding.md R70, one for each command -/

theorem test_decode_timing :
    decode { op := 0x01#8, k := true, n := 0x00000002#32, x := 0x4013147AE147AE14#64 }
        = .ok (.rebuild .multiplier 2#32 0x4013147AE147AE14#64) ∧
      decode { op := 0x02#8, c := 0x009#9 } = .ok (.lookup 9#9) := by decide
theorem test_decode_memory :
    decode { op := 0x10#8, a := 0x00401#20, c := 0x004#9 } = .ok (.rd8 0x00401#20 4#9) ∧
      decode { op := 0x11#8, a := 0x00400#20, c := 0x008#9 } = .ok (.rd16 0x00400#20 8#9) ∧
      decode { op := 0x12#8, a := 0x07C01#20, d := 0x0055#16, c := 0x004#9 } = .ok (.wr8 0x07C01#20 0x55#8 4#9) ∧
      decode { op := 0x13#8, a := 0xB8002#20, d := 0x0731#16, c := 0x004#9 } = .ok (.wr16 0xB8002#20 0x0731#16 4#9) ∧
      decode { op := 0x14#8, a := 0xB8003#20 } = .ok (.peek8 0xB8003#20) ∧
      decode { op := 0x15#8, a := 0xB8000#20, c := 0x004#9 } = .ok (.rwait 0xB8000#20 4#9) ∧
      decode { op := 0x16#8, a := 0xB8000#20, c := 0x009#9 } = .ok (.wwait 0xB8000#20 9#9) := by decide
theorem test_decode_port :
    decode { op := 0x20#8, p := 0x0060#16, c := 0x004#9 } = .ok (.iord8 0x60#16 4#9) ∧
      decode { op := 0x21#8, p := 0x0041#16, d := 0x1234#16, c := 0x004#9 } = .ok (.iowr8 0x41#16 0x34#8 4#9) := by
  decide
theorem test_decode_map :
    decode { op := 0x30#8, a := 0xB8000#20, l := 0x008000#21, t := 0x80#8, w := 0x03#8, o := true }
        = .ok (.regmap 0xB8000#20 0x8000#21 0x80#8 3#8 true) ∧
      decode { op := 0x31#8, a := 0xB9000#20 } = .ok (.mapq 0xB9000#20) ∧
      decode { op := 0x32#8, a := 0x07C00#20, l := 0x000001#21, m := 0x04#8 }
        = .ok (.setflags 0x07C00#20 1#21 4#8) ∧
      decode { op := 0x33#8, a := 0xF0000#20, l := 0x010000#21, m := 0x0E#8 }
        = .ok (.clrflags 0xF0000#20 0x10000#21 0x0E#8) ∧
      decode { op := 0x34#8, a := 0xF0000#20 } = .ok (.testflags 0xF0000#20) ∧
      decode { op := 0x38#8, g := [⟨0x80#8, [7]⟩] } = .ok (.install [⟨0x80#8, [7]⟩]) ∧
      decode { op := 0x3F#8 } = .ok .reset := by decide
theorem test_decode_scheduler :
    decode { op := 0x40#8, u := 0x3FFE2BE2FE7329F4#64, q := 3#64, eValid := false, eEv := ⟨0x1E⟩ }
        = .ok (.run 0x3FFE2BE2FE7329F4#64 3#64 none) ∧
      decode { op := 0x41#8, q := 0x0000000000000002#64 } = .ok (.phase 2#64) := by decide
/-- T-60-1, T-60-4 and P4 step 11. -/
theorem test_decode_illegal :
    [0x00#8, 0x42#8, 0x77#8, 0x03#8, 0x17#8, 0x22#8, 0x35#8, 0x39#8, 0xFF#8].all
      (fun op => decode { op := op } == .error (.illegalOpcode op)) = true := by decide
/-- A word of the opcode table at its own number of bits, and one that is no row. -/
theorem test_table_word :
    decodeTableWord 8 0x13 = some (.wr16 0#20 0#16 0#9) ∧ decodeTableWord 8 0x42 = none := by decide

/-! ## Command text (30_encoding.md R75, R76) -/

theorem test_text_rebuild :
    assemble "REBUILD div, 3, 14.31818".toList = some (.rebuild .divisor 3#32 0x402CA2E87D2C7B89#64) := by
  decide +kernel
theorem test_text_markrom :
    assemble "MARKROM 0xF0000, 0x10000".toList = some (.setflags 0xF0000#20 0x10000#21 0x01#8) := by decide +kernel

/-! ## Binary64 (00_scope.md R13): the bit patterns of 95_test_vectors.md -/

/-- T-40-5, T-40-15, T-40-24: the frequency first, then the quotient. -/
theorem test_binary64_quotients :
    Binary64.div (Binary64.ofNat 4) (mhz ⟨.divisor, 3#32⟩ 0x402CA2E87D2C7B89#64) = 0x3FEAD1AD53F49712#64 ∧
      Binary64.div (Binary64.ofNat 3) (mhz ⟨.divisor, 4#32⟩ 0x402CA2E87D2C7B89#64) = 0x3FEAD1AD53F49711#64 ∧
      Binary64.div (Binary64.ofNat 511) (mhz ⟨.divisor, 1000#32⟩ 0x402CA2E87D2C7B89#64) = 0x40E16D1C96E73E11#64 := by
  decide +kernel
/-- P3's keyboard accumulator: steps 6 and 12. -/
theorem test_binary64_sums :
    Binary64.add 0x408F400000000000#64 0x3FFE2BE2FE7329F4#64 = 0x408F4F15F17F3995#64 ∧
      Binary64.sub (Binary64.add 0x408F7C57C5FCE654#64 0x40AF400000000000#64) 0x40B3880000000000#64
        = 0x401E2BE2FE732800#64 := by decide +kernel
/-- T-40-31 and T-40-32: overflow to infinity, underflow to zero. -/
theorem test_binary64_edges :
    Binary64.mul 0x7FE1CCF385EBC8A0#64 (Binary64.ofNat 2) = 0x7FF0000000000000#64 ∧
      Binary64.div 0x0000000000000001#64 (Binary64.ofNat 2) = 0x0000000000000000#64 := by decide +kernel

/-! ## Timing -/

/-- T-40-30. -/
theorem test_rebuild_infinite : flt (rebuild .multiplier 1#32 0x7FF0000000000000#64 s0) = some .badClock := by
  decide +kernel
/-- T-40-33: the ticks of entry 511. -/
theorem test_rebuild_largest :
    look (rebuild .multiplier 4294967295#32 0x4013147AE147AE14#64 s0) (fun s => (entryAt s 511#9).ticks)
      = some 2194728287745#64 := by decide +kernel
/-- T-40-8. -/
theorem test_lookup_last :
    answer (exec (.lookup 511#9) s0) = some { ticks := 171#64, us := 0x405AC4447D4A9CC6#64 } := by decide +kernel
/-- T-40-5. -/
theorem test_lookup_ceiling :
    answer (exec (.lookup 4#9) s0) = some { ticks := 2#64, us := 0x3FEAD1AD53F49712#64 } := by decide +kernel
/-- T-40-41. -/
theorem test_wait_largest :
    waitCycles ⟨.multiplier, 4294967295#32⟩ 4294967295#32 = 18446744065119617025#64 := by decide +kernel

/-! ## Memory -/

/-- T-41-7. -/
theorem test_rd8_device : rsp (read8 board 0xB8000#20 9#9 s1) = some { data := 0#16, wait := 2#64 } := by decide +kernel
/-- T-41-18, with tag 0x81 absent. -/
theorem test_rd8_unresolvable :
    flt (read8 board 0xA0000#20 4#9 (addRange 0xA0000#20 0x2000#21 0x81#8 0#8 false s1)) = some .mmioUnresolvable := by
  decide +kernel
/-- T-41-2. -/
theorem test_rd16_little_endian :
    answer (exec (.rd16 0x00400#20 8#9) { s0 with mem := [(0x400, 0x34), (0x401, 0x12)] })
      = some { data := 0x1234#16 } := by decide +kernel
/-- T-41-3. -/
theorem test_rd16_top : answer (exec (.rd16 0xFFFFF#20 8#9) s0) = some { status := 0x01#8 } := by decide +kernel
/-- T-41-9 and T-41-17: the device path ignores ROM and leaves memory. -/
theorem test_wr8_device :
    look (write8 board 0xB8000#20 0x41#8 9#9 { s1 with flags := mapFlags (· ||| 1#8) 0xB8000 0xB8001 s1.flags })
      (fun s => (s.slots.codeAt 0x80#8, s.mem)) = some (some [0, 0, 0x41], []) := by decide +kernel
/-- T-41-5. -/
theorem test_wr8_rom :
    (rawWrite8 { s0 with flags := mapFlags (· ||| 1#8) 0xF0000 0x100000 [], convSize := 0x100000 } 0xF1234 0x99#8).mem
      = [] := by decide +kernel
/-- T-41-6. -/
theorem test_wr16_conventional_end :
    look (write16 board 0x9FFFF#20 0xBEEF#16 4#9 s0) (·.mem) = some [(0x9FFFF, 0xEF#8)] := by decide +kernel
/-- T-41-12. -/
theorem test_wr16_rom_byte :
    look (write16 board 0x00500#20 0xCAFE#16 4#9 { s0 with flags := mapFlags (· ||| 1#8) 0x501 0x502 [] }) (·.mem)
      = some [(0x500, 0xFE#8)] := by decide +kernel
/-- T-41-10. -/
theorem test_peek8_device :
    rsp (peek8 board 0xB8000#20 (setVideo s1 0x80#8 ⟨[0, 0, 0x41]⟩)) = some { data := 0x0041#16 } := by decide +kernel
/-- T-41-11. -/
theorem test_waits :
    rsp (readWait board 0xB8000#20 4#9 s1) = some { wait := 2#64 } ∧
      rsp (writeWait board 0xB8000#20 4#9 s1) = some { wait := 2#64 } := by decide +kernel

/-! ## Ports -/

/-- T-42-1. -/
theorem test_iord8_open : rsp (ioRead8 board 0x0278#16 4#9 k0) = some { data := 0x00FF#16 } := by decide +kernel
/-- P3 step 4. -/
theorem test_iord8_ppi :
    rsp (ioRead8 board 0x0060#16 4#9 { k0 with slots := { k0.slots with ppi := some ⟨[0x1E, 1, 0]⟩ } })
      = some { data := 0x001E#16 } := by decide +kernel
/-- T-42-3. -/
theorem test_iowr8_pit :
    look (ioWrite8 board 0x0041#16 0x12#8 4#9 k0) (·.slots.pit) = some (some ⟨[1, 0x12, 0]⟩) := by decide +kernel
/-- T-42-8. -/
theorem test_iowr8_pulse :
    look (ioWrite8 board 0x03F8#16 0#8 4#9
      { k0 with portmap := [(0x3F8, 0x0A#8)], slots := { k0.slots with serial := some ⟨[]⟩ } }) (·.slots.pic1)
      = some (some ⟨[0, 0, 0, 0, 0, 1, 0, 0, 0]⟩) := by decide +kernel

/-! ## Map and configuration -/

/-- T-43-1. -/
theorem test_regmap :
    look (regmap 0xB8000#20 0x8000#21 0x80#8 3#8 true s0)
        (fun s => (s.maplist, [0x5B, 0x5C, 0x5F, 0x60].map (bucketTag s.fastmap)))
      = some ([⟨0xB8000#20, 0x8000#21, 3#8, true, 0x80#8⟩], [0#8, 0x80#8, 0x80#8, 0#8]) ∧
    look (regmap 0xB8000#20 0x8000#21 0x80#8 3#8 true s0) (·.flags) = some [(0xB8000, 0x20#8), (0xC0000, 0#8)] := by
  decide +kernel
/-- T-43-5 to T-43-12: the checks in their order. -/
theorem test_regmap_faults :
    [flt (regmap 0xBE000#20 0x2000#21 0x81#8 0#8 false s1), flt (regmap 0xB9000#20 0x2000#21 0x80#8 0#8 false s0),
      flt (regmap 0xA0000#20 0#21 0x80#8 0#8 false s0), flt (regmap 0xFE000#20 0x4000#21 0x80#8 0#8 false s0),
      flt (regmap 0xA0000#20 0x1000#21 0x80#8 0#8 false s0), flt (regmap 0xA0000#20 0x1000#21 0x00#8 0#8 false s0),
      flt (regmap 0xA0000#20 0x2000#21 0x0C#8 0#8 false s0), flt (regmap 0xA0000#20 0x102000#21 0x80#8 0#8 false s0)]
      = [some .mapOverlap, some .mapAlign, some .mapAlign, some .mapAlign, some .mapSize, some .badOperand,
        some .badOperand, some .badOperand] := by decide +kernel
/-- T-43-2 and T-43-3. -/
theorem test_mapq :
    rsp (mapQuery 0xB9000#20 (addRange 0xB8000#20 0x8000#21 0x80#8 3#8 true s0))
        = some { data := 0x0380#16, ticks := 1#64 } ∧
      rsp (mapQuery 0xC0000#20 (addRange 0xB8000#20 0x8000#21 0x80#8 3#8 true s0)) = some {} := by decide +kernel
/-- T-43-15. -/
theorem test_setflags_mask :
    look (setFlags 0x07C00#20 1#21 0xFF#8 s0) (·.flags) = some [(0x7C00, 0x1F#8), (0x7C01, 0#8)] := by decide +kernel
/-- T-43-18 and T-43-21. -/
theorem test_setflags_faults :
    flt (setFlags 0xFFFFF#20 2#21 4#8 s0) = some .outOfBounds ∧
      flt (setFlags 0#20 0x100001#21 1#8 s0) = some .badOperand := by decide +kernel
/-- T-43-16. -/
theorem test_clrflags_keeps_rom :
    look (clearFlags 0x07C00#20 1#21 0xFF#8 { s0 with flags := [(0x7C00, 0x1F#8), (0x7C01, 0#8)] }) (·.flags)
      = some [(0x7C00, 0x01#8), (0x7C01, 0#8)] := by decide +kernel
/-- T-43-17. -/
theorem test_clrflags_keeps_mmio :
    look (clearFlags 0xB8000#20 0x8000#21 0xFF#8 s1) (·.flags) = some s1.flags := by decide +kernel
/-- T-43-4. -/
theorem test_testflags :
    answer (exec (.testflags 0xBFFFF#20) s1) = some { data := 0x0020#16 } ∧
      answer (exec (.testflags 0xC0000#20) s1) = some {} := by decide +kernel
/-- T-43-22. -/
theorem test_install :
    look (install board [⟨0x02#8, [0]⟩, ⟨0x01#8, [0, 0, 0]⟩] s0) (fun s => (s.portmap, s.slots.codeAt 1#8, s.installed))
      = some ([(0x20, 2#8), (0x21, 2#8), (0x40, 1#8), (0x41, 1#8), (0x42, 1#8), (0x43, 1#8)], some [0, 0, 0], true) := by
  decide +kernel
/-- T-43-23, T-43-24, T-43-27, T-43-29, and an unknown video type (T-43-26). -/
theorem test_install_faults :
    [flt (install board [] k0), flt (install board [⟨0x01#8, []⟩, ⟨0x01#8, []⟩] s0),
      flt (install board [⟨0x0C#8, []⟩] s0),
      flt (install board [⟨0x81#8, [0]⟩] (addRange 0xB8000#20 0x8000#21 0x80#8 3#8 true s0)),
      flt (install board [⟨0xA0#8, [0]⟩] s0)]
      = [some .alreadyInstalled, some .installFail, some .installFail, some .installFail, some .installFail] := by
  decide +kernel
/-- T-43-32, with T-43-33's flags. -/
theorem test_reset :
    look (busReset { s0 with
        mem := [(0x10, 0x12#8), (0xF0000, 0xEA#8)]
        flags := [(0x10, 0x04#8), (0x11, 0#8), (0x20, 0x0A#8), (0x21, 0#8), (0xF0000, 0x11#8), (0xF0001, 0#8)] })
      (fun s => (s.mem, s.flags))
      = some ([(0xF0000, 0xEA#8)], [(0xF0000, 0x11#8), (0xF0001, 0#8)]) := by decide +kernel
/-- RESET's scheduler registers (10_state.md R43). -/
theorem test_reset_scheduler :
    look (busReset { k0 with kbAcc := Binary64.one, phaseAdj := 7#64, refresh := .counting, refReload := 18#16 })
      (fun s => (s.kbAcc, s.phaseAdj, s.refresh, s.refReload)) = some (0#64, 0#64, .idle, 0#16) := by decide +kernel

/-! ## Scheduler -/

/-- T-44-3. -/
theorem test_run_key :
    look (runDevices board 0x408F400000000000#64 3#64 (some ⟨0x1E⟩) k0)
      (fun s => (s.slots.codeAt 2#8, s.slots.codeAt 6#8, s.slots.codeAt 1#8, s.kbAcc))
      = some (some [3, 0, 1, 0, 0, 0, 0, 0, 0], some [0x1E, 1, 0], some [0, 0, 3], 0x408F400000000000#64) := by
  decide +kernel
/-- T-44-9 to T-44-15: step 5 from an FSM state and a channel 1, and the event latch. -/
theorem test_run_events :
    (let step5 (f : RefreshFsm) (r : BitVec 16) (counting reload : Nat) :=
      (stepRefresh board
        { k0 with refresh := f, refReload := r, slots := { k0.slots with pit := some ⟨[counting, reload, 0]⟩ } }).2
     [step5 .idle 0#16 1 18, step5 .counting 18#16 1 18, step5 .counting 18#16 1 19, step5 .counting 19#16 0 19,
      step5 .idle 19#16 0 19])
      = [some (.dramRefreshUpdate 18#16 18#16 ⟨0⟩), none, some (.dramRefreshUpdate 19#16 19#16 ⟨0⟩),
        some (.dramRefreshEnable false), none] ∧
    eventLatch (some (.dramRefreshUpdate 18#16 18#16 ⟨0⟩)) (some true) = some (.dramRefreshUpdate 18#16 18#16 ⟨0⟩) ∧
    eventLatch none (some true) = some (.turboToggle true) := by decide +kernel
/-- T-44-19, its second RUN. -/
theorem test_step_video_ticks :
    (let s := stepVideo board 0#64 60#64 (setVideo { k0 with vidAcc := tabulate 128 fun _ => 60#64 } 0x90#8 ⟨[]⟩)
     (s.slots.codeAt 0x90#8, s.slots.codeAt 2#8, s.vidAcc.get (0x10 : Fin 128)))
      = (some [120], some [0, 0, 0, 1, 0, 0, 0, 0, 0], 0#64) := by decide +kernel
/-- T-44-25. -/
theorem test_step_storage :
    (let s := stepStorage board Binary64.one 3#64
      { s0 with slots := { Slots.absent with dma1 := some ⟨[]⟩, fdc := some ⟨[]⟩, hdc := some ⟨[]⟩ } }
     (s.slots.codeAt 4#8, s.slots.codeAt 8#8)) = (some [8, 9, 4], some [1]) := by decide +kernel
/-- T-44-16 and T-44-18: step 4 consumes the phase adjustment, but not with a crystal of its own. -/
theorem test_phase :
    look (setPhase 2#64 k0) (fun s => ((stepTimer board 0#64 3#64 s).slots.codeAt 1#8,
        (stepTimer board 0#64 3#64 s).phaseAdj, (stepTimer { board with pitHasCrystal := true } 0#64 3#64 s).phaseAdj))
      = some (some [0, 0, 5], 0#64, 2#64) := by decide +kernel
/-- T-44-21 to T-44-23. -/
theorem test_run_faults :
    [flt (runDevices board 0xBFF0000000000000#64 0#64 none k0), flt (runDevices board 0x7FF8000000000000#64 0#64 none k0),
      flt (runDevices board 0#64 0xFFFFFFFFFFFFFFFF#64 none { k0 with phaseAdj := 1#64 })]
      = [some .badOperand, some .badOperand, some .badOperand] := by decide +kernel

/-! ## Faults -/

/-- T-60-1 to T-60-3. -/
theorem test_illegal_opcode :
    answer (step { s0 with pending := [{ op := 0x00#8 }] }) = some { status := 0x09#8 } ∧
      answer (exec (.lookup 4#9) { s0 with fault := 0x09#8 }) = some { status := 0xFF#8 } ∧
      answer (exec .reset { s0 with fault := 0x09#8 }) = some { status := 0xFF#8 } := by decide +kernel

/-! ## Witnesses: a concrete state and operands that meet the hypotheses of each statement, at the ends of the ranges
of its clauses. A statement about `Config.board` is witnessed where its hypotheses do not need a value of it. -/

/-- A command ends in a next state. -/
theorem exec_next (i : Instr) (s : State) : ∃ t, exec i s = .next t := ⟨_, exec_eq_finish i s⟩

/-- The invariant at power-on of the test machine. -/
theorem s0_inv : s0.Inv where
  mem := by decide
  flags := by decide
  portmap := by decide
  reserved := fun a _ => by simp [s0, flagAt, flagWalk]
  clock := by decide +kernel
  table := by simp only [s0, State.powerOn]
  mmio := fun a _ => by rw [show s0.maplist = [] from rfl, show s0.flags = [] from powerOn_flags_nil _ _]; simp [mmioAt, flagAt, flagWalk]
  fast := fun a h => by
    have hk : a / bucketSize < 128 := by simp only [bucketSize, memSize] at *; omega
    rw [bucketTag, dif_pos hk]
    exact tabulate_getElem _ _ _ _
  admitted := fun r h => by simp [s0, State.powerOn] at h
  disjoint := List.Pairwise.nil
  ports := fun p h => absurd rfl h
  installed := fun _ => ⟨rfl, rfl⟩
  fault := by decide

/-- The invariant with a range registered, with tag 0x80. -/
def r0 : State := addRange 0xB8000#20 0x8000#21 0x80#8 0x03#8 true s0

theorem r0_inv : r0.Inv := by
  refine Inv_addRange s0_inv (a := 0xB8000#20) (l := 0x8000#21) (t := 0x80#8) (w := 0x03#8) (o := true) ?_
  have h : regmapCheck s0.fastmap 0xB8000#20 0x8000#21 0x80#8 = none := by decide +kernel
  rw [registerMap, h]; rfl

/-- The test machine with a timer, a PIC and a video card installed. -/
def i0 : State := (installDevices board [⟨0x01#8, [0, 0, 0]⟩, ⟨0x02#8, [0]⟩, ⟨0x80#8, [0]⟩] s0).getD s0

theorem i0_inv : i0.Inv := by
  have h : installDevices board [⟨0x01#8, [0, 0, 0]⟩, ⟨0x02#8, [0]⟩, ⟨0x80#8, [0]⟩] s0 = some i0 := by
    have hs : (installDevices board [⟨0x01#8, [0, 0, 0]⟩, ⟨0x02#8, [0]⟩, ⟨0x80#8, [0]⟩] s0).isSome = true := by
      decide +kernel
    obtain ⟨t, ht⟩ := Option.isSome_iff_exists.1 hs
    rw [i0, ht]; rfl
  exact Inv_install s0_inv rfl (by decide +kernel) h

/-- RUN with no time elapsed is accepted in every state. -/
theorem runAccepted_zero (s : State) : s.RunAccepted 0#64 0#64 :=
  ⟨by decide, by decide, by decide, fun _ _ => by simp [s.phaseAdj.isLt], fun t _ _ _ => by
    have := (s.vidAcc.get (videoIndex t)).isLt; simpa using this⟩

/-- Every device slot full, with port `t` mapped to tag `t`. -/
def full : State :=
  { s0 with
    portmap := [(1, 1#8), (2, 2#8), (3, 3#8), (4, 4#8), (5, 5#8), (6, 6#8), (8, 8#8), (9, 9#8), (10, 10#8),
      (0x80, 0x80#8), (0xFF, 0xFF#8)]
    slots :=
      { pit := some ⟨[]⟩, pic1 := some ⟨[]⟩, pic2 := some ⟨[]⟩, dma1 := some ⟨[]⟩, dma2 := some ⟨[]⟩, ppi := some ⟨[]⟩
        kbd := some ⟨[]⟩, fdc := some ⟨[]⟩, hdc := some ⟨[]⟩, serial := some ⟨[]⟩, mouse := some ⟨[]⟩
        video := tabulate 128 fun _ => some ⟨[]⟩ } }

theorem witness_DecodeAndEncodeAgree : decode { op := 0x41#8, q := 2#64 } = .ok (.phase 2#64) := by decide
theorem witness_OnlyBusesOfTheFormatCount :
    let x : Transfer := { op := 0x12#8, a := 1#20, d := 0x0055#16 }
    let y : Transfer := { op := 0x12#8, a := 1#20, d := 0xFF55#16, q := 7#64 }
    x ≠ y ∧ x.op = y.op ∧ ∀ b ∈ formatBuses x.op, x.Agrees y b := by
  refine ⟨by decide, rfl, ?_⟩
  simp [formatBuses, Transfer.Agrees, lowByte]
/-- Every end of the ranges of R72, and the assigned opcodes beside them. -/
theorem witness_UnassignedOpcodesFault :
    { s0 with pending := [{ op := 0x42#8 }] }.fault = 0#8 ∧
      [0x00#8, 0x03#8, 0x0F#8, 0x17#8, 0x1F#8, 0x22#8, 0x2F#8, 0x35#8, 0x37#8, 0x39#8, 0x3E#8, 0x42#8, 0xFF#8].all
        (fun op => (decode { op := op }).toOption.isNone) = true ∧
      [0x01#8, 0x02#8, 0x10#8, 0x16#8, 0x20#8, 0x21#8, 0x30#8, 0x34#8, 0x38#8, 0x3F#8, 0x40#8, 0x41#8].all
        (fun op => (decode { op := op }).toOption.isSome) = true := by decide
theorem witness_StepRunsTheDecodedCommand :
    decode { op := 0x3F#8 } = .ok .reset ∧ s0.pending = [] ∧ decodeTableWord 8 0x3F = some .reset := by decide
theorem witness_FaultsAreSticky :
    (∃ t, step { s0 with pending := [{ op := 0x42#8 }] } = .next t ∧ t.response = some { status := 0x09#8 }) ∧
      { s0 with fault := 0x01#8, pending := [{ op := 0x3F#8 }] }.fault ≠ 0#8 := ⟨⟨_, rfl, rfl⟩, by decide⟩
/-- A flags image with reserved bits set, and a ROM image. -/
theorem witness_PowerOnEstablishesInv :
    Memory.wf [(0xF0000, 0xEA#8)] = true ∧ ∀ a : Addr, flagAt [(0xF0000, 0xC1#8)] a.toNat &&& 0x20#8 = 0#8 := by
  refine ⟨by decide, fun a => ?_⟩
  simp only [flagAt, flagWalk]; split <;> decide
/-- Bits 7:6 of a flags image read as 0 (10_state.md R29, I27). -/
theorem test_power_on_reserved_flags :
    (let s := State.powerOn board [] [(0x500, 0xC1#8), (0x501, 0xC0#8)]
     rsp (testFlags 0x500#20 s) = some { data := 0x0001#16 } ∧ rsp (testFlags 0xFFFFF#20 s) = some { data := 0 } ∧
       s.flags = [(0x500, 0x01#8), (0x501, 0x00#8)]) := by decide +kernel
theorem inv_pending {s : State} (h : s.Inv) (l : List Transfer) : ({ s with pending := l } : State).Inv :=
  ⟨h.mem, h.flags, h.portmap, h.reserved, h.clock, h.table, h.mmio, h.fast, h.admitted, h.disjoint, h.ports,
    h.installed, h.fault⟩
theorem step_next (s : State) : ∃ t, step s = .next t := by
  rcases step_cases s with ⟨-, h⟩ | ⟨_, _, _, -, -, h⟩ | ⟨_, _, -, h⟩ <;> exact ⟨_, h⟩
theorem witness_StepsKeepInv :
    ({ i0 with pending := [{ op := 0x3F#8 }] } : State).Inv ∧
      ∃ t, step { i0 with pending := [{ op := 0x3F#8 }] } = .next t := ⟨inv_pending i0_inv _, step_next _⟩
theorem witness_OnlyRebuildWritesTheClock :
    (∃ t, exec .reset i0 = .next t) ∧ ∀ k n x, Instr.reset ≠ .rebuild k n x :=
  ⟨exec_next _ _, fun _ _ _ => by simp⟩
theorem witness_OnlyInstallWritesThePortMap :
    (∃ t, exec .reset i0 = .next t) ∧ (∀ g, Instr.reset ≠ .install g) ∧ k0.installed = true :=
  ⟨exec_next _ _, fun _ => by simp, rfl⟩
theorem witness_RomIsPermanent :
    (∃ t, exec .reset { s0 with flags := [(0xFFFFF, 0x01#8)] } = .next t) ∧
      flagAt [(0xFFFFF, 0x01#8)] (0xFFFFF#20).toNat &&& 0x01#8 ≠ 0#8 := ⟨exec_next _ _, by decide⟩
theorem witness_ConventionalSizeBoundsWrites :
    (∃ t, exec (.wr8 0xA0000#20 1#8 4#9) s0 = .next t) ∧ Instr.wr8 0xA0000#20 1#8 4#9 ≠ .reset ∧
      s0.convSize.val ≤ (0xA0000#20).toNat := ⟨exec_next _ _, by simp, by decide⟩
theorem witness_MapsOnlyGrow :
    (∃ t, exec (.clrflags 0xB8000#20 1#21 0xFF#8) r0 = .next t) ∧ r0.fastmap.get (0x5C : Fin 128) ≠ 0x00#8 ∧
      flagAt r0.flags (0xB8000#20).toNat &&& 0x20#8 ≠ 0#8 ∧
      (∀ a l tg w o, Instr.clrflags 0xB8000#20 1#21 0xFF#8 ≠ .regmap a l tg w o) ∧
      ∀ g, Instr.clrflags 0xB8000#20 1#21 0xFF#8 ≠ .install g :=
  ⟨exec_next _ _, by decide +kernel, by decide +kernel, fun _ _ _ _ _ => by simp, fun _ => by simp⟩
theorem witness_SlotsAreNeverEmptied :
    i0.Inv ∧ (∃ t, exec .reset i0 = .next t) ∧ i0.slots.codeAt 0x80#8 ≠ none ∧ i0.slots.codeAt 0xFF#8 = none :=
  ⟨i0_inv, exec_next _ _, by decide +kernel, by decide +kernel⟩
theorem witness_MemoryAndFlagsWriters : ∃ t, exec (.testflags 0#20) s0 = .next t := exec_next _ _
theorem witness_SchedulerRegisterWriters : ∃ t, exec (.phase 1#64) s0 = .next t := exec_next _ _

/-- Each check of R85 fails alone, and all pass. -/
theorem witness_RebuildSetsTheClockOrFaults :
    s0.fault = 0#8 ∧ Binary64.isNaN 0x7FF8000000000000#64 = true ∧ Binary64.isInf 0x7FF0000000000000#64 = true ∧
      Binary64.ge Binary64.zero 0#64 = true ∧ Binary64.ge Binary64.zero 0xBFF0000000000000#64 = true ∧
      Binary64.isInf (Binary64.mul 0x7FE1CCF385EBC8A0#64 (Binary64.ofNat 2)) = true ∧
      Binary64.isZero (Binary64.div 1#64 (Binary64.ofNat 2)) = true ∧
      Binary64.isNaN 0x4013147AE147AE14#64 = false ∧ Binary64.isInf 0x4013147AE147AE14#64 = false ∧
      Binary64.ge Binary64.zero 0x4013147AE147AE14#64 = false ∧
      Binary64.isInf (Binary64.mul 0x4013147AE147AE14#64 (Binary64.ofNat 4294967295)) = false ∧
      Binary64.isZero (Binary64.mul 0x4013147AE147AE14#64 (Binary64.ofNat 4294967295)) = false := by decide +kernel
theorem witness_LookupAnswersTheClosedForm : s0.fault = 0#8 ∧ s0.Inv := ⟨rfl, s0_inv⟩
theorem witness_ConversionsNeverWrap :
    1 ≤ (1#32).toNat ∧ 1 ≤ (4294967295#32).toNat ∧ (ClockFactor.mk .multiplier 1#32).kind = .multiplier := by decide
theorem witness_ConversionCorners :
    clockOk ⟨.multiplier, 1#32⟩ 0x4013147AE147AE14#64 = true ∧ clockOk ⟨.divisor, 512#32⟩ 0x402CA2E87D2C7B89#64 = true ∧
      511 < (512#32).toNat := by decide +kernel
theorem witness_MicrosecondsNeverFall :
    clockOk ⟨.divisor, 3#32⟩ 0x402CA2E87D2C7B89#64 = true ∧ (510 : Fin 512).val ≤ (511 : Fin 512).val := by
  decide +kernel

/-- The MMIO bit clear, at the two last addresses, and the MMIO bit set over a bucket that names no device. -/
theorem witness_RawReadsAndQueries :
    s0.fault = 0#8 ∧ flagAt s0.flags (0xFFFFE#20).toNat &&& 0x20#8 = 0#8 ∧ 0xFFFFE#20 ≠ 0xFFFFF#20 ∧
      s0.fastmap.get (bucketOf 0xFFFFF#20) = 0x00#8 := by decide +kernel
/-- The tags 0x01, 0x7F and an absent card's. -/
theorem witness_MemoryCommandFaults :
    [0x01#8, 0x7F#8, 0x81#8].all (fun t =>
      let s := addRange 0xA0000#20 0x2000#21 t 0#8 false s0
      s.fault == 0#8 && flagAt s.flags (0xA1FFF#20).toNat &&& 0x20#8 != 0#8 && s.fastmap.get (bucketOf 0xA1FFF#20) == t
        && ((s.fastmap.get (bucketOf 0xA1FFF#20)).toNat < 0x80 || videoSlot s.slots t == none)) = true := by
  decide +kernel
/-- The ends of the aperture of tag 0x80, and a card with the last tag over the last bucket. -/
theorem witness_DeviceReads :
    s1.fault = 0#8 ∧ flagAt s1.flags (0xB8000#20).toNat &&& 0x20#8 ≠ 0#8 ∧
      flagAt s1.flags (0xBFFFF#20).toNat &&& 0x20#8 ≠ 0#8 ∧ s1.fastmap.get (bucketOf 0xBFFFF#20) = 0x80#8 ∧
      0x80 ≤ (0x80#8).toNat ∧ videoSlot s1.slots 0x80#8 = some ⟨[0]⟩ := by decide +kernel
theorem witness_DeviceWrites :
    let s := addRange 0xFE000#20 0x2000#21 0xFF#8 0#8 false (setVideo s0 0xFF#8 ⟨[]⟩)
    s.fault = 0#8 ∧ flagAt s.flags (0xFFFFE#20).toNat &&& 0x20#8 ≠ 0#8 ∧ s.fastmap.get (bucketOf 0xFFFFE#20) = 0xFF#8 ∧
      0x80 ≤ (0xFF#8).toNat ∧ videoSlot s.slots 0xFF#8 = some ⟨[]⟩ ∧ 0xFFFFE#20 ≠ 0xFFFFF#20 := by decide +kernel
theorem witness_DeviceQueriesChangeNothing :
    s1.fault = 0#8 ∧ flagAt s1.flags (0xB8000#20).toNat &&& 0x20#8 ≠ 0#8 ∧
      s1.fastmap.get (bucketOf 0xB8000#20) = 0x80#8 ∧ 0x80 ≤ (0x80#8).toNat ∧ videoSlot s1.slots 0x80#8 = some ⟨[0]⟩ := by decide +kernel
/-- The last byte below `conv_size`, the first at it, and a ROM byte. -/
theorem witness_RawByteWrite :
    s0.fault = 0#8 ∧ flagAt s0.flags (0x9FFFF#20).toNat &&& 0x20#8 = 0#8 ∧ s0.Writable (0x9FFFF#20).toNat ∧
      ¬s0.Writable (0xA0000#20).toNat ∧ ¬({ s0 with flags := [(0, 0x01#8)] } : State).Writable (0#20).toNat := by
  unfold State.Writable; decide +kernel
theorem witness_RawWordWrite :
    s0.fault = 0#8 ∧ 0x9FFFF#20 ≠ 0xFFFFF#20 ∧ flagAt s0.flags (0x9FFFF#20).toNat &&& 0x20#8 = 0#8 ∧
      s0.Writable (0x9FFFF#20).toNat ∧ ¬s0.Writable ((0x9FFFF#20).toNat + 1) ∧
      s0.Writable ((0x9FFFE#20).toNat + 1) ∧
      ¬({ s0 with flags := [(0x500, 0x01#8), (0x501, 0#8)] } : State).Writable (0x500#20).toNat := by
  unfold State.Writable; decide +kernel
theorem witness_MixedWidthAccess :
    s0.fault = 0#8 ∧ 0x9FFFE#20 ≠ 0xFFFFF#20 ∧ flagAt s0.flags (0x9FFFE#20).toNat &&& 0x20#8 = 0#8 ∧
      flagAt s0.flags (0x9FFFE#20 + 1#20).toNat &&& 0x20#8 = 0#8 ∧ s0.Writable (0x9FFFE#20).toNat ∧
      s0.Writable (0x9FFFE#20 + 1#20).toNat := by unfold State.Writable; decide +kernel
theorem witness_MemoryKeepsTheLastWrite :
    s0.fault = 0#8 ∧ flagAt s0.flags (0x500#20).toNat &&& 0x20#8 = 0#8 ∧ s0.Writable (0x500#20).toNat ∧
      ∀ i ∈ [Instr.wr8 0x501#20 1#8 4#9, .wr16 0x4FE#20 1#16 4#9, .phase 1#64], i.SparesByte 0x500#20 := by
  have h : s0.Writable (0x500#20).toNat := by unfold State.Writable; decide +kernel
  refine ⟨rfl, by decide +kernel, h, fun i hi => ?_⟩
  simp only [List.mem_cons, List.not_mem_nil, or_false] at hi
  rcases hi with rfl | rfl | rfl
  · show (0x501#20 : Addr) ≠ 0x500#20; decide
  · show (0x4FE#20 : Addr) ≠ 0x500#20 ∧ (0x4FE#20 : Addr).toNat + 1 ≠ (0x500#20 : Addr).toNat; decide
  · trivial
theorem witness_QueriesPredictAccesses : s1.fault = 0#8 := rfl

/-- An unmapped port, and a mapped one whose device is absent, KBD or MOUSE. -/
theorem witness_UnmappedPorts :
    k0.fault = 0#8 ∧ full.fault = 0#8 ∧ readCell k0.portmap (0xFFFF#16).toNat = 0x00#8 ∧
      [0x01#8, 0x07#8, 0x0B#8, 0x80#8, 0x0C#8].all (fun t => readCell [(5, t)] (5#16).toNat != 0x00#8) = true ∧
      ¬Slots.absent.PortLive 0x01#8 ∧ ¬full.slots.PortLive 0x07#8 ∧ ¬full.slots.PortLive 0x0B#8 ∧
      ¬Slots.absent.PortLive 0x80#8 ∧ ¬full.slots.PortLive 0x0C#8 := by
  refine ⟨by decide, by decide, by decide, by decide, ?_, ?_, ?_, ?_, ?_⟩ <;>
    simp [Slots.PortLive, Slots.absent, isVideoTag, videoSlot]
/-- Each class has its port and its live device. -/
theorem witness_PortReadsReachTheirDevice :
    full.fault = 0#8 ∧
      [1, 2, 3, 4, 5, 6, 8, 9, 10, 0x80, 0xFF].all (fun p =>
        (readCell full.portmap p).toNat == p && full.slots.codeAt (readCell full.portmap p) == some []) = true := by
  decide +kernel
theorem witness_PortWritesReachTheirDevice :
    full.fault = 0#8 ∧ videoSlot full.slots 0x80#8 = some ⟨[]⟩ ∧ videoSlot full.slots 0xFF#8 = some ⟨[]⟩ ∧
      readCell full.portmap (0xFF#16).toNat = 0xFF#8 := by decide +kernel
theorem witness_PortsAlwaysResolve :
    i0.Inv ∧ i0.fault = 0#8 ∧ readCell i0.portmap (0x41#16).toNat ≠ 0x00#8 := ⟨i0_inv, by decide +kernel, by decide +kernel⟩

/-- The whole space and the last bucket are admitted; each check fails at the edge of its range. -/
theorem witness_RegmapRegistersOrFaults_admits :
    s0.fault = 0#8 ∧ s0.Admits (0x80#8, 0#20, 0x100000#21) ∧ s0.Admits (0x01#8, 0xFE000#20, 0x2000#21) := by
  unfold State.Admits; decide +kernel
theorem witness_RegmapRegistersOrFaults :
    r0.fault = 0#8 ∧ (0x0C ≤ (0x7F#8).toNat ∧ (0x7F#8).toNat ≤ 0x7F) ∧ 0x100000 < (0x100001#21).toNat ∧ (0x1FFF#21).toNat % 0x2000 ≠ 0 ∧
      (0#21).toNat % 0x2000 = 0 ∧ (0x1000#20).toNat % 0x2000 ≠ 0 ∧
      0x100000 < (0xFE000#20).toNat + (0x4000#21).toNat ∧ (0xBE000#20).toNat / 0x2000 ≤ 0x5F ∧
      0x5F < ((0xBE000#20).toNat + (0x2000#21).toNat) / 0x2000 ∧ r0.fastmap.get (0x5F : Fin 128) ≠ 0x00#8 := by
  decide +kernel
theorem witness_MapqFindsTheFirstRange :
    r0.fault = 0#8 ∧ r0.maplist = [] ++ ⟨0xB8000#20, 0x8000#21, 3#8, true, 0x80#8⟩ :: [] ∧
      (0xBFFFF#20).toNat < (0xB8000#20).toNat + (0x8000#21).toNat ∧
      ∀ q ∈ r0.maplist,
        ¬(q.base.toNat ≤ (0xC0000#20).toNat ∧ (0xC0000#20).toNat < q.base.toNat + q.size.toNat) := by decide +kernel
theorem witness_MapqFindsTheFirstRange_inv : r0.Inv ∧ r0.fault = 0#8 := ⟨r0_inv, rfl⟩
theorem witness_SetflagsSetsTheRange :
    s0.fault = 0#8 ∧ 0x100000 < (0x100001#21).toNat ∧ 0x100000 < (0xFFFFF#20).toNat + (2#21).toNat ∧
      (0xFFFFF#20).toNat + (1#21).toNat ≤ 0x100000 ∧ (0#20).toNat + (0x100000#21).toNat ≤ 0x100000 := by decide
theorem witness_ClrflagsClearsTheRange :
    s0.fault = 0#8 ∧ 0x100000 < (0x1FFFFF#21).toNat ∧ 0x100000 < (1#20).toNat + (0x100000#21).toNat ∧
      (0#20).toNat + (0#21).toNat ≤ 0x100000 := by decide
theorem witness_TestflagsAnswersTheFlagsByte : i0.Inv ∧ i0.fault = 0#8 := ⟨i0_inv, by decide +kernel⟩
theorem witness_InstallChecks :
    k0.fault = 0#8 ∧ k0.installed = true ∧ s0.fault = 0#8 ∧ s0.installed = false ∧ (0x0C ≤ (0x0C#8).toNat ∧ (0x7F#8).toNat ≤ 0x7F) ∧
      ¬[InstallEntry.mk 1#8 [], .mk 1#8 [1]].Pairwise (fun e e' => e.tag ≠ e'.tag) := by decide
/-- An illegal tag is refused by every board; the test board admits a configuration, and installs it. -/
theorem witness_InstallFillsOrFails :
    s0.Inv ∧ s0.fault = 0#8 ∧ k0.installed = true ∧ s0.installed = false ∧ ¬s0.InstallAdmits Config.board [⟨0x00#8, []⟩] ∧
      s0.InstallAdmits board [⟨0x80#8, [0]⟩, ⟨0x01#8, [0, 0, 0]⟩] := by
  refine ⟨s0_inv, rfl, rfl, rfl, fun h => h.1 ⟨0x00#8, []⟩ (by simp) (.inl rfl), ?_⟩
  have hx : aperturesInOrder board [⟨0x80#8, [0]⟩, ⟨0x01#8, [0, 0, 0]⟩] = [(0x80#8, 0xB8000#20, 0x8000#21)] := by
    decide +kernel
  unfold State.InstallAdmits
  rw [hx]
  refine ⟨by decide, by decide, by decide, rfl, ?_, ?_, by simp⟩
  · intro e he e' he' p hp hp'
    simp only [List.mem_cons, List.not_mem_nil, or_false] at he he'
    rcases he with rfl | rfl <;> rcases he' with rfl | rfl <;> first | rfl | skip
    · simp [portsOf, isVideoTag, board, vid, quietIo] at hp
    · simp [portsOf, isVideoTag, board, vid, quietIo] at hp'
  · simp only [List.mem_singleton, forall_eq, State.Admits]; decide +kernel
theorem witness_ResetClearsRamAndFlags : i0.fault = 0#8 := by decide +kernel

/-- No time on every state, and a NaN on none. -/
theorem witness_RunChecksAndFrame :
    full.fault = 0#8 ∧ full.RunAccepted 0#64 0#64 ∧ ¬full.RunAccepted 0x7FF8000000000000#64 0#64 :=
  ⟨rfl, runAccepted_zero _, fun h => absurd h.1 (by decide)⟩
theorem witness_RunWithoutDevices :
    s0.fault = 0#8 ∧ s0.slots = Slots.absent ∧ Binary64.isNaN 0x8000000000000000#64 = false ∧
      Binary64.isInf 0x8000000000000000#64 = false ∧
      Binary64.gt Binary64.zero 0x8000000000000000#64 = false := ⟨rfl, rfl, by decide, by decide, by decide⟩
theorem witness_RunKeyboardPacing : k0.RunAccepted 0#64 0#64 ∧ k0.slots.kbd = some ⟨[]⟩ ∧ s0.slots.kbd = none :=
  ⟨runAccepted_zero _, rfl, rfl⟩
theorem witness_RunScancodeLatch : full.RunAccepted 0#64 0#64 ∧ full.slots.ppi = some ⟨[]⟩ ∧ s0.slots.ppi = none :=
  ⟨runAccepted_zero _, rfl, rfl⟩
theorem witness_RunPulsesInOrder : full.RunAccepted 0#64 0#64 ∧ full.fault = 0#8 := ⟨runAccepted_zero _, rfl⟩
theorem witness_RunTimer : full.RunAccepted 0#64 0#64 ∧ full.slots.pit = some ⟨[]⟩ ∧ s0.slots.pit = none :=
  ⟨runAccepted_zero _, rfl, rfl⟩
theorem witness_RunRefreshAndEvent :
    full.RunAccepted 0#64 0#64 ∧ s0.slots.pit = none ∧ s0.refresh = .idle ∧
      ({ full with refresh := .counting } : State).RunAccepted 0#64 0#64 :=
  ⟨runAccepted_zero _, rfl, rfl, runAccepted_zero _⟩
theorem witness_RefreshIsEdgeTriggered : full.RunAccepted 0#64 0#64 ∧ ∀ t : State, t.RunAccepted 0#64 0#64 :=
  ⟨runAccepted_zero _, runAccepted_zero⟩
theorem witness_RunStorageThenDma : full.RunAccepted 0#64 0#64 ∧ full.slots.fdc = some ⟨[]⟩ :=
  ⟨runAccepted_zero _, rfl⟩
theorem witness_RunSerialThenMouse :
    full.RunAccepted 0#64 0#64 ∧ full.slots.serial = some ⟨[]⟩ ∧ full.slots.mouse = some ⟨[]⟩ ∧
      ({ full with slots := { full.slots with mouse := none } } : State).RunAccepted 0#64 0#64 ∧ s0.slots.serial = none :=
  ⟨runAccepted_zero _, rfl, rfl, runAccepted_zero _, rfl⟩
theorem witness_RunVideoCards :
    full.RunAccepted 0#64 0#64 ∧ videoSlot full.slots 0x80#8 = some ⟨[]⟩ ∧ videoSlot full.slots 0xFF#8 = some ⟨[]⟩ ∧
      videoSlot s0.slots 0x80#8 = none := ⟨runAccepted_zero _, by decide +kernel, by decide +kernel, by decide +kernel⟩
/-- Each check fails alone in `witness_RebuildSetsTheClockOrFaults`; here one clock is refused and one is taken. -/
theorem witness_ConstructionRefusesABadClock :
    (0#32 : BitVec 32) = 0#32 ∧ (State.construct board ⟨.divisor, 0#32⟩ 0x402CA2E87D2C7B89#64 [] []).isNone = true ∧
      (State.construct board ⟨.multiplier, 2#32⟩ 0x4013147AE147AE14#64 [] []).isSome = true := by decide +kernel
theorem witness_PhaseOverwrites : s0.fault = 0#8 := rfl

end Sys2Proof.Tests
end

section
/-! PROOFS. The obligations of spec/00_scope.md: a command completes or faults precisely, and RUN's keyboard. -/

namespace Sys2Proof.Machine

/-! ## How a command ends -/

/-- The codes that a command raises lie strictly between OK and FAULTED (60_exceptions.md R135). -/
theorem FaultCode.code_range (f : FaultCode) : 0x01 ≤ f.code.toNat ∧ f.code.toNat ≤ 0x0B := by
  cases f <;> decide

theorem FaultCode.code_ne_zero (f : FaultCode) : f.code ≠ 0x00#8 := fun h => by
  have := f.code_range.1
  simp [h] at this

theorem FaultCode.code_ne_faulted (f : FaultCode) : f.code ≠ statusFaulted := fun h => by
  have := f.code_range.2
  simp [h] at this

@[simp] theorem frameOf_fault (i : Instr) (s t : State) : (frameOf i s t).fault = s.fault := by cases i <;> rfl

@[simp] theorem frameOf_pending (i : Instr) (s t : State) : (frameOf i s t).pending = s.pending := by cases i <;> rfl

/-- A command that completes writes neither the sticky register nor the pending transfers (60_exceptions.md R136). -/
theorem commandResult_keeps_fault_pending {i : Instr} {s t : State} {r : Response}
    (h : commandResult i s = .ok (t, r)) : t.fault = s.fault ∧ t.pending = s.pending := by
  rw [commandResult_frame h]
  exact ⟨frameOf_fault i s t, frameOf_pending i s t⟩

/-- Settles O6: one case for each end of `settle_cases`. -/
theorem commandsCompleteOrFaultPrecisely : Obligations.CommandsCompleteOrFaultPrecisely := by
  unfold Obligations.CommandsCompleteOrFaultPrecisely
  intro i s
  have hexec : exec i s = .next (settle s (commandResult i s)) := exec_eq_finish i s
  rcases settle_cases s (commandResult i s) with ⟨h0, ht⟩ | ⟨h0, f, -, ht⟩ | ⟨h0, t, r, hr, ht⟩ <;> rw [ht] at hexec
  · -- the block had faulted before
    exact ⟨_, { status := statusFaulted }, hexec, rfl, rfl, .inr rfl,
      .inr ⟨by decide, by rw [if_neg h0], iff_of_true rfl h0⟩⟩
  · -- the command raises the fault `f`
    exact ⟨_, { status := f.code }, hexec, rfl, rfl, .inl f.code_range.2,
      .inr ⟨f.code_ne_zero, by rw [if_pos h0, raiseFault], iff_of_false f.code_ne_faulted (· h0)⟩⟩
  · -- the command completes
    obtain ⟨hfault, hpending⟩ := commandResult_keeps_fault_pending hr
    have hok : r.status = 0x00#8 := commandResult_status hr
    exact ⟨_, r, hexec, rfl, hpending, .inl (by simp [hok]), .inl ⟨hok, h0, hfault.trans h0⟩⟩

/-! ## The keyboard in a slice -/

/-- Step 1 where the accumulator crosses the threshold: one tick of the keyboard that has had its event
(44_scheduler.md R117). -/
theorem keyboardSlice_of_tick {b : Board} {u acc : F64} (e : Option KeyEvent) (k : KbdState)
    (h : Binary64.ge (Binary64.add acc u) b.kbUpdateUs.us = true) :
    (keyboardSlice b u e k acc).kbd = (b.kbd.tick (keyApplied b e k).1).1 ∧
      (keyboardSlice b u e k acc).acc = Binary64.sub (Binary64.add acc u) b.kbUpdateUs.us ∧
      (keyboardSlice b u e k acc).overflow = (b.kbd.tick (keyApplied b e k).1).2.2 := by
  cases e <;> simp [keyboardSlice, keyApplied, h]

/-- Step 1 below the threshold: the event alone (44_scheduler.md R117). -/
theorem keyboardSlice_of_no_tick {b : Board} {u acc : F64} (e : Option KeyEvent) (k : KbdState)
    (h : Binary64.ge (Binary64.add acc u) b.kbUpdateUs.us = false) :
    (keyboardSlice b u e k acc).kbd = (keyApplied b e k).1 ∧
      (keyboardSlice b u e k acc).acc = Binary64.add acc u ∧
      (keyboardSlice b u e k acc).overflow = false := by
  cases e <;> simp [keyboardSlice, keyApplied, h]

/-- Step 1 with no keyboard does nothing, and answers no overflow (44_scheduler.md R117). -/
theorem stepKeyboard_absent (b : Board) (u : F64) (e : Option KeyEvent) {s : State} (h : s.slots.kbd = none) :
    stepKeyboard b u e s = (s, false) := by
  rcases stepKeyboard_cases b u e s with ⟨-, hstep⟩ | ⟨k, -, -, hk, -⟩
  · exact hstep
  · exact absurd (h.symm.trans hk) nofun

/-- Step 1 with a keyboard leaves what `keyboardSlice` makes of it (44_scheduler.md R117). -/
theorem stepKeyboard_present (b : Board) (u : F64) (e : Option KeyEvent) {s : State} {k : KbdState}
    (h : s.slots.kbd = some k) :
    (stepKeyboard b u e s).1.slots.kbd = some (keyboardSlice b u e k s.kbAcc).kbd ∧
      (stepKeyboard b u e s).1.kbAcc = (keyboardSlice b u e k s.kbAcc).acc ∧
      (stepKeyboard b u e s).2 = (keyboardSlice b u e k s.kbAcc).overflow := by
  rcases stepKeyboard_cases b u e s with ⟨hnone, -⟩ | ⟨k', p, c, hk', hstep, -⟩
  · exact absurd (hnone.symm.trans h) nofun
  · obtain rfl : k = k' := Option.some.inj (h.symm.trans hk')
    rw [hstep]
    exact ⟨rfl, rfl, rfl⟩

/-- The keyboard and its accumulator are the same in both states. -/
def SameKeyboard (s t : State) : Prop := t.slots.kbd = s.slots.kbd ∧ t.kbAcc = s.kbAcc

theorem SameKeyboard.trans {s t u : State} (h : SameKeyboard s t) (h' : SameKeyboard t u) : SameKeyboard s u :=
  ⟨h'.1.trans h.1, h'.2.trans h.2⟩

theorem stepPic_sameKeyboard (b : Board) (q : U64) (s : State) : SameKeyboard s (stepPic b q s) := by
  rw [stepPic_eq]; exact ⟨rfl, rfl⟩

theorem stepPpi_sameKeyboard (b : Board) (u : F64) (s : State) : SameKeyboard s (stepPpi b u s).1 := by
  rw [stepPpi_fst]; exact ⟨rfl, rfl⟩

theorem stepTimer_sameKeyboard (b : Board) (u : F64) (q : U64) (s : State) : SameKeyboard s (stepTimer b u q s) := by
  obtain ⟨p, h, -⟩ := stepTimer_eq b u q s
  rw [h]; exact ⟨rfl, rfl⟩

theorem stepRefresh_sameKeyboard (b : Board) (s : State) : SameKeyboard s (stepRefresh b s).1 := by
  rw [stepRefresh_frame]; exact ⟨rfl, rfl⟩

theorem stepStorage_sameKeyboard (b : Board) (u : F64) (q : U64) (s : State) :
    SameKeyboard s (stepStorage b u q s) := by
  obtain ⟨p, h, -⟩ := stepStorage_eq b u q s
  rw [h]; exact ⟨rfl, rfl⟩

theorem stepSerial_sameKeyboard (b : Board) (u : F64) (s : State) : SameKeyboard s (stepSerial b u s) := by
  obtain ⟨c, m, p, h, -⟩ := stepSerial_eq b u s
  rw [h]; exact ⟨rfl, rfl⟩

theorem stepVideo_sameKeyboard (b : Board) (u : F64) (q : U64) (s : State) : SameKeyboard s (stepVideo b u q s) := by
  obtain ⟨vs, p, acc, h, -⟩ := stepVideo_frame b u q s
  rw [h]; exact ⟨rfl, rfl⟩

/-- The keyboard after a slice is the one step 1 left: steps 2 to 8 do not reach it (44_scheduler.md R130). -/
theorem runSlice_sameKeyboard (b : Board) (u : F64) (q : U64) (e : Option KeyEvent) (s : State) :
    SameKeyboard (stepKeyboard b u e s).1 (runSlice b u q e s).1 := by
  simp only [runSlice]
  have h2 := stepPic_sameKeyboard b q (stepKeyboard b u e s).1
  have h3 := h2.trans (stepPpi_sameKeyboard b u _)
  have h4 := h3.trans (stepTimer_sameKeyboard b u q _)
  have h5 := h4.trans (stepRefresh_sameKeyboard b _)
  have h6 := h5.trans (stepStorage_sameKeyboard b u q _)
  have h7 := h6.trans (stepSerial_sameKeyboard b u _)
  exact h7.trans (stepVideo_sameKeyboard b u q _)

/-- The data of a slice's response is the overflow flag of step 1 (44_scheduler.md R117). -/
theorem runSlice_data (b : Board) (u : F64) (q : U64) (e : Option KeyEvent) (s : State) :
    (runSlice b u q e s).2.data = if (stepKeyboard b u e s).2 then 1#16 else 0#16 := by
  have hbit : ∀ x : Bool, (BitVec.ofBool x).setWidth 16 = if x then 1#16 else 0#16 := by decide
  exact hbit _

/-- A RUN that passes its checks ends in the slice with its response (44_scheduler.md R116). -/
theorem exec_run_accepted {u : F64} {q : U64} (e : Option KeyEvent) {s : State} (h0 : s.fault = 0x00#8)
    (hacc : s.RunAccepted u q) :
    exec (.run u q e) s = .next { (runSlice Config.board u q e s).1 with
      response := some (runSlice Config.board u q e s).2 } := by
  have hrun : commandResult (.run u q e) s = .ok (runSlice Config.board u q e s) := by
    simp only [commandResult, runDevices, (runCheck_eq_none u q s).2 hacc]
  rw [exec_eq_finish, hrun]
  exact finish_ok h0 _ _

/-- Settles O48: the slice's keyboard is step 1's, which is absent, ticks, or takes the event alone. -/
theorem runKeyboardPacing : Obligations.RunKeyboardPacing := by
  unfold Obligations.RunKeyboardPacing
  intro u q e s h0 hacc
  have hexec := exec_run_accepted e h0 hacc
  obtain ⟨hkbd, hkbAcc⟩ := runSlice_sameKeyboard Config.board u q e s
  have hdata := runSlice_data Config.board u q e s
  generalize runSlice Config.board u q e s = slice at hexec hkbd hkbAcc hdata
  refine ⟨_, _, hexec, rfl, fun habsent => ?_, fun k hpresent => ?_⟩
  · rw [stepKeyboard_absent Config.board u e habsent] at hkbd hkbAcc hdata
    exact ⟨hkbd.trans habsent, hkbAcc, hdata⟩
  · obtain ⟨hk1, ha1, ho1⟩ := stepKeyboard_present Config.board u e hpresent
    rw [hk1] at hkbd
    rw [ha1] at hkbAcc
    rw [ho1] at hdata
    intro b applied acc
    have happlied : applied = (keyApplied b e k).1 := by cases e <;> rfl
    rw [happlied]
    refine ⟨fun htick => ?_, fun hno => ?_⟩
    · obtain ⟨hk, ha, ho⟩ := keyboardSlice_of_tick e k htick
      rw [hk] at hkbd; rw [ha] at hkbAcc; rw [ho] at hdata
      exact ⟨hkbd, hkbAcc, hdata⟩
    · obtain ⟨hk, ha, ho⟩ := keyboardSlice_of_no_tick e k hno
      rw [hk] at hkbd; rw [ha] at hkbAcc; rw [ho] at hdata
      exact ⟨hkbd, hkbAcc, hdata⟩

end Sys2Proof.Machine
end

section
/-! PROOFS. Steps, power-on and the invariant (10_state.md, 70_reset_and_hazards.md). -/

namespace Sys2Proof.Machine

/-! ## Every step keeps the invariant -/

/-- Every change of a command that does not fault keeps the invariant. -/
theorem Change.keeps_inv {s t : State} (hc : Change s t) (hi : s.Inv) : t.Inv := by
  cases hc with
  | same => exact hi
  | clock cf x h => exact Inv_clock hi h
  | memory m hwf _ _ => exact Inv_mem hi (hwf hi.mem)
  | slots sl h => exact Inv_slotsKept hi h
  | range a l tg w o t h => exact Inv_addRange hi h
  | flags f lo hi' _ hmmio hres => exact Inv_mapFlags hi f lo hi' hmmio fun v hv => (hres v).trans hv
  | install g t h0 hg h => exact Inv_install hi h0 hg h
  | reset t r h => exact Inv_busReset hi h
  | slice t h hs => exact Inv_of_slice hi h hs
  | phase q => exact { hi with }

/-- The response and the pending transfers stand outside the invariant. -/
theorem Inv_response {s : State} (h : s.Inv) (r : Option Response) : ({ s with response := r } : State).Inv :=
  { h with }

theorem Inv_pending {s : State} (h : s.Inv) (ts : List Transfer) : ({ s with pending := ts } : State).Inv :=
  { h with }

theorem Inv_raiseFault {s : State} (h : s.Inv) (f : FaultCode) : (raiseFault f s).Inv :=
  { h with fault := f.code_range.2 }

/-- The end of a command keeps the invariant if the command's effects are a `Change`. -/
theorem settle_keeps_inv {s : State} {r : CmdResult} (h : s.Inv)
    (hc : ∀ t rsp, r = .ok (t, rsp) → Change s t) : (settle s r).Inv := by
  rcases settle_cases s r with ⟨-, ht⟩ | ⟨-, f, -, ht⟩ | ⟨-, t, rsp, hr, ht⟩ <;> rw [ht]
  · exact Inv_response h _
  · exact Inv_raiseFault h f
  · exact Inv_response ((hc t rsp hr).keeps_inv h) _

/-- Settles O10: a step does nothing, ends a command, or rejects an opcode; each keeps the invariant. -/
theorem stepsKeepInv : Obligations.StepsKeepInv := by
  unfold Obligations.StepsKeepInv
  intro s t hi hstep
  rcases step_cases s with ⟨-, h⟩ | ⟨x, rest, i, -, -, h⟩ | ⟨x, rest, -, h⟩ <;>
    obtain rfl := Host.Outcome.next.inj (h.symm.trans hstep)
  · exact hi
  · exact settle_keeps_inv (Inv_pending hi rest) fun _ _ hr => commandResult_change hr
  · exact settle_keeps_inv (Inv_pending hi rest) fun _ _ hr => absurd hr (by simp)

/-! ## Steps -/

/-- A table word that is a command decodes as the transfer that carries it. -/
theorem decode_tableTransfer {nbits w : Nat} {i : Instr} (h : decodeTableWord nbits w = some i) :
    decode (tableTransfer w) = .ok i := by
  unfold decodeTableWord at h
  split at h
  · cases hd : decode (tableTransfer w) with
    | ok j => rw [hd] at h; exact congrArg _ (Option.some.inj h)
    | error e => rw [hd] at h; exact absurd h nofun
  · exact absurd h nofun

theorem step_of_decode {s : State} {x : Transfer} {rest : List Transfer} {i : Instr} (hp : s.pending = x :: rest)
    (hd : decode x = .ok i) : step s = exec i { s with pending := rest } := by
  simp only [step, takeTransfer, hp, hd]

theorem step_of_no_pending {s : State} (hp : s.pending = []) : step s = .next s := by
  simp only [step, takeTransfer, hp]

/-- Settles O5: a pending transfer that decodes, none pending, and a table word issued in front. -/
theorem stepRunsTheDecodedCommand : Obligations.StepRunsTheDecodedCommand := by
  unfold Obligations.StepRunsTheDecodedCommand
  refine ⟨fun s x rest i hp hd => step_of_decode hp hd, fun s hp => step_of_no_pending hp, fun s nbits w i h => ?_⟩
  exact step_of_decode (s := s.withFetchWord nbits w) (issueNext_pending (tableTransfer w) s) (decode_tableTransfer h)

/-! ## Power-on -/

/-- Settles O8: the fields as `State.powerOn` writes them, and the flags image without bits 7:6. -/
theorem powerOnState : Obligations.PowerOnState := by
  unfold Obligations.PowerOnState
  intro b mem0 flags0
  exact ⟨rfl, flagAt_powerOn b mem0 flags0, rfl, rfl, rfl, tabulate_get 128 _, fun _ => rfl, codeAt_absent, rfl, rfl,
    rfl, rfl, tabulate_get 128 _, rfl, rfl, rfl, rfl⟩

theorem flagBits_reserved (v : Byte) : (v &&& flagBits) &&& 0xC0#8 = 0#8 := by
  revert v; decide

theorem flagBits_keeps_mmio (v : Byte) : (v &&& flagBits) &&& flagMmio = v &&& flagMmio := by
  revert v; decide

/-- The flags part of the invariant at power-on: no bits 7:6, and no MMIO bit where the image has none. -/
theorem powerOn_flags (b : Board) (mem0 : Cells) {flags0 : FlagMap}
    (hm : ∀ a : Addr, flagAt flags0 a.toNat &&& 0x20#8 = 0#8) {a : Nat} (ha : a < memSize) :
    flagAt (State.powerOn b mem0 flags0).flags a &&& 0xC0#8 = 0#8 ∧
      mmioAt (State.powerOn b mem0 flags0).flags a = false := by
  have hflag := flagAt_powerOn b mem0 flags0 ⟨⟨a, ha⟩⟩
  have hclear := hm ⟨⟨a, ha⟩⟩
  simp only [BitVec.toNat_ofFin] at hflag hclear
  rw [mmioAt, hflag, flagBits_reserved, flagBits_keeps_mmio, hclear]
  exact ⟨rfl, rfl⟩

/-- With no range registered, the fast map of power-on agrees with the list. -/
theorem powerOn_inv (b : Board) {mem0 : Cells} {flags0 : FlagMap} (hmem : Memory.wf mem0 = true)
    (hm : ∀ a : Addr, flagAt flags0 a.toNat &&& 0x20#8 = 0#8) : (State.powerOn b mem0 flags0).Inv where
  mem := hmem
  flags := mapFlags_wf (· &&& flagBits) 0 memSize flags0
  portmap := rfl
  reserved a ha := (powerOn_flags b mem0 hm ha).1
  clock := b.clock.passes
  table := rfl
  mmio a ha := by
    rw [(powerOn_flags b mem0 hm ha).2]
    exact iff_of_false nofun nofun
  fast a ha := by
    have hk : a / bucketSize < 128 := by simp only [bucketSize, memSize] at *; omega
    rw [bucketTag, dif_pos hk]
    exact tabulate_getElem 128 _ _ hk
  admitted := nofun
  disjoint := List.Pairwise.nil
  ports p hp := absurd (readCell_nil p) hp
  installed _ := ⟨rfl, rfl⟩
  fault := Nat.zero_le _

/-- Settles O9: `powerOn_inv`, of which `State.reset` is the case of the empty images. -/
theorem powerOnEstablishesInv : Obligations.PowerOnEstablishesInv := by
  unfold Obligations.PowerOnEstablishesInv
  exact ⟨powerOn_inv Config.board rfl fun a => by rw [flagAt_nil]; rfl, fun b _ _ hmem hm => powerOn_inv b hmem hm⟩

end Sys2Proof.Machine
end

section
/-! PROOFS. What commands may write (10_state.md). -/

namespace Sys2Proof.Machine

/-! ## The end of a command -/

/-- A command leaves all but the sticky register and the response, or it completes. -/
theorem exec_ends {i : Instr} {s t : State} (h : exec i s = .next t) :
    t = { s with fault := t.fault, response := t.response } ∨
      ∃ u r, commandResult i s = .ok (u, r) ∧ t = { u with response := some r } := by
  rcases exec_cases h with ⟨-, rfl⟩ | ⟨-, f, -, rfl⟩ | ⟨-, u, r, hr, rfl⟩
  · exact .inl rfl
  · exact .inl rfl
  · exact .inr ⟨u, r, hr, rfl⟩

/-- A command leaves all but the sticky register and the response, or it writes its frame and the response. -/
theorem exec_frame {i : Instr} {s t : State} (h : exec i s = .next t) :
    t = { s with fault := t.fault, response := t.response } ∨
      ∃ u r, t = { frameOf i s u with response := r } := by
  rcases exec_ends h with ht | ⟨u, r, hr, ht⟩
  · exact .inl ht
  · exact .inr ⟨u, some r, ht.trans (congrArg (fun x : State => { x with response := some r }) (commandResult_frame hr))⟩

/-- What every `Change` gives, and what the sticky register and the response do not touch, every command gives. -/
theorem exec_change_induct {P : State → Prop} {i : Instr} {s t : State} (h : exec i s = .next t)
    (hchange : ∀ u, Change s u → P u) (hresponse : ∀ u f r, P u → P { u with fault := f, response := r }) : P t := by
  rcases exec_ends h with ht | ⟨u, r, hr, ht⟩ <;> rw [ht]
  · exact hresponse s _ _ (hchange s .same)
  · exact hresponse u u.fault _ (hchange u (commandResult_change hr))

/-! ## The clock, the scheduler registers, memory and flags -/

/-- Settles O11: the clock is in the frame of REBUILD alone. -/
theorem onlyRebuildWritesTheClock : Obligations.OnlyRebuildWritesTheClock := by
  unfold Obligations.OnlyRebuildWritesTheClock
  intro i s t h hi
  rcases exec_frame h with ht | ⟨u, r, ht⟩ <;> rw [ht]
  · exact ⟨rfl, rfl, rfl⟩
  · cases i with
    | rebuild k n x => exact absurd rfl (hi k n x)
    | _ => exact ⟨rfl, rfl, rfl⟩

/-- Settles O17: memory and flags are in the frames of the commands named. -/
theorem memoryAndFlagsWriters : Obligations.MemoryAndFlagsWriters := by
  unfold Obligations.MemoryAndFlagsWriters
  intro i s t h
  rcases exec_frame h with ht | ⟨u, r, ht⟩ <;> rw [ht]
  · cases i <;> simp
  · cases i <;> simp [frameOf]

/-- Settles O18: the scheduler registers are in the frames of the commands named. -/
theorem schedulerRegisterWriters : Obligations.SchedulerRegisterWriters := by
  unfold Obligations.SchedulerRegisterWriters
  intro i s t h
  rcases exec_frame h with ht | ⟨u, r, ht⟩ <;> rw [ht]
  · cases i <;> simp
  · cases i <;> simp [frameOf]

/-! ## The port map -/

/-- Once devices are installed no change touches the port map or the `installed` bit. -/
theorem Change.keeps_portmap {s t : State} (hc : Change s t) (h1 : s.installed = true) :
    t.installed = true ∧ t.portmap = s.portmap := by
  cases hc with
  | range a l tg w o t h =>
    obtain ⟨-, -, -, -, -, -, -, rfl⟩ := registerMap_ok h
    exact ⟨h1, rfl⟩
  | install g t h0 _ _ => exact absurd (h0.symm.trans h1) nofun
  | reset t r h => cases h; exact ⟨h1, rfl⟩
  | slice t h _ => rw [h]; exact ⟨h1, rfl⟩
  | _ => exact ⟨h1, rfl⟩

/-- Settles O12: the port map is in the frame of INSTALL alone, and INSTALL completes only once. -/
theorem onlyInstallWritesThePortMap : Obligations.OnlyInstallWritesThePortMap := by
  unfold Obligations.OnlyInstallWritesThePortMap
  intro i s t h
  refine ⟨fun hi => ?_, fun h1 => ?_⟩
  · rcases exec_frame h with ht | ⟨u, r, ht⟩ <;> rw [ht]
    · exact ⟨rfl, rfl⟩
    · cases i with
      | install g => exact absurd rfl (hi g)
      | _ => exact ⟨rfl, rfl⟩
  · exact exec_change_induct (P := fun t => t.installed = true ∧ t.portmap = s.portmap) h
      (fun _ hc => hc.keeps_portmap h1) fun _ _ _ hu => hu

/-! ## Bits of the flags after a range change -/

/-- A range change whose function keeps the bits of a mask keeps them at every address. -/
theorem mapFlags_keeps_mask {f : Byte → Byte} {m : Byte} (hf : ∀ v, f v &&& m = v &&& m) (lo hi : Nat) (fl : FlagMap)
    {a : Nat} (ha : a < memSize) : flagAt (mapFlags f lo hi fl) a &&& m = flagAt fl a &&& m := by
  rw [flagAt_mapFlags f lo hi fl a ha]
  split
  · exact hf _
  · rfl

/-- A range change whose function clears no bit of a mask leaves a set one set. -/
theorem mapFlags_keeps_set {f : Byte → Byte} {m : Byte} (hf : ∀ v, v &&& m ≠ 0#8 → f v &&& m ≠ 0#8) (lo hi : Nat)
    {fl : FlagMap} {a : Nat} (ha : a < memSize) (h : flagAt fl a &&& m ≠ 0#8) :
    flagAt (mapFlags f lo hi fl) a &&& m ≠ 0#8 := by
  rw [flagAt_mapFlags f lo hi fl a ha]
  split
  · exact hf _ h
  · exact h

/-! ## ROM -/

/-- In `t` the byte at `a` is ROM and holds what it holds in `s`. -/
def RomByteKept (s : State) (a : Nat) (t : State) : Prop :=
  flagAt t.flags a &&& flagRom ≠ 0#8 ∧ readCell t.mem a = readCell s.mem a

/-- Registration keeps a ROM byte (43_map_config.md R106). -/
theorem registerMap_keeps_rom {s x y : State} {a : Nat} (ha : a < memSize) {b : Addr} {l : Len} {tg : Tag} {w : Byte}
    {o : Bool} (h : registerMap b l tg w o x = .ok y) (hx : RomByteKept s a x) : RomByteKept s a y := by
  obtain ⟨-, -, -, -, -, -, -, rfl⟩ := registerMap_ok h
  refine ⟨?_, hx.2⟩
  rw [addRange_flags]
  exact mapFlags_keeps_set (fun v hv => by rw [orMmio_keeps_rom]; exact hv) _ _ ha hx.1

/-- An accepted INSTALL makes registrations on a state with the memory, the flags and the maps of `s`: what all of
them keep, it keeps. -/
theorem installDevices_induct {P : State → Prop}
    (hP : ∀ a l t w o s s', registerMap a l t w o s = .ok s' → P s → P s') {b : Board} {g : List InstallEntry}
    {s t : State} (hd : installDevices b g s = some t)
    (hs : ∀ sl pm i, P { s with slots := sl, portmap := pm, installed := i }) : P t := by
  obtain ⟨pm, hpm, -⟩ := installDevices_some hd
  simp only [installDevices, hpm] at hd
  exact registerAllApertures_induct hP hd (hs _ _ _)

/-- RESET keeps the memory behind a ROM bit (43_map_config.md R115). -/
theorem readCell_clearRam_rom {fl : FlagMap} {a : Nat} (h : flagAt fl a &&& flagRom ≠ 0#8) (m : Cells) :
    readCell (clearRam fl m) a = readCell m a := by
  have hread := readCell_filter m (fun x => romAt fl x || mmioAt fl x) a
  rw [(romAt_iff fl a).2 h] at hread
  exact hread

/-- Every change keeps a ROM byte. -/
theorem Change.keeps_rom {s t : State} (hc : Change s t) {a : Nat} (ha : a < memSize)
    (h : flagAt s.flags a &&& flagRom ≠ 0#8) : RomByteKept s a t := by
  cases hc with
  | memory m _ hrom _ => exact ⟨h, hrom a ((romAt_iff _ a).2 h)⟩
  | range b l tg w o t hr => exact registerMap_keeps_rom ha hr ⟨h, rfl⟩
  | flags f lo hi hrom _ _ => exact ⟨mapFlags_keeps_set hrom lo hi ha h, rfl⟩
  | install g t _ _ hd =>
    exact installDevices_induct (fun _ _ _ _ _ _ _ hr => registerMap_keeps_rom ha hr) hd fun _ _ _ => ⟨h, rfl⟩
  | reset t r hr =>
    cases hr
    exact ⟨by rw [mapFlags_keeps_mask resetMask_keeps_rom 0 memSize s.flags ha]; exact h, readCell_clearRam_rom h s.mem⟩
  | slice t hf _ => rw [hf]; exact ⟨h, rfl⟩
  | _ => exact ⟨h, rfl⟩

/-- Settles O13: every change keeps a ROM byte. -/
theorem romIsPermanent : Obligations.RomIsPermanent := by
  unfold Obligations.RomIsPermanent
  intro i s t a h hrom
  exact exec_change_induct (P := RomByteKept s a.toNat) h (fun _ hc => hc.keeps_rom a.isLt hrom) fun _ _ _ hu => hu

/-! ## Conventional size -/

@[simp] theorem frameOf_convSize (i : Instr) (s t : State) : (frameOf i s t).convSize = s.convSize := by
  cases i <;> rfl

/-- A raw write discards a byte at or above `conv_size` (41_memory_access.md R92). -/
theorem rawWrite8_read_above (s : State) (b : Nat) (v : Byte) {a : Nat} (h : s.convSize.val ≤ a) :
    readCell (rawWrite8 s b v).mem a = readCell s.mem a :=
  (rawWrite8_read s b v a).trans (if_neg fun ⟨hab, _, hb⟩ => by omega)

/-- A command that completes and is not RESET leaves every byte at or above `conv_size`. -/
theorem commandResult_keeps_above {i : Instr} {s t : State} {r : Response} (h : commandResult i s = .ok (t, r))
    (hi : i ≠ .reset) {a : Nat} (ha : s.convSize.val ≤ a) : readCell t.mem a = readCell s.mem a := by
  cases i with
  | wr8 b d c =>
    exact access_frame (P := fun t => readCell t.mem a = readCell s.mem a) h
      (rawWrite8_read_above s b.toNat d ha) fun _ _ => rfl
  | wr16 b d c =>
    refine access_frame (P := fun t => readCell t.mem a = readCell s.mem a) h ?_ fun _ _ => rfl
    exact (rawWrite8_read_above _ _ _ (by simpa using ha)).trans (rawWrite8_read_above s _ _ ha)
  | reset => exact absurd rfl hi
  | _ => rw [commandResult_frame h]; rfl

/-- Settles O14: `conv_size` is in no frame, and the raw writes discard what lies at or above it. -/
theorem conventionalSizeBoundsWrites : Obligations.ConventionalSizeBoundsWrites := by
  unfold Obligations.ConventionalSizeBoundsWrites
  intro i s t h
  rcases exec_ends h with ht | ⟨u, r, hr, ht⟩ <;> rw [ht]
  · exact ⟨rfl, fun _ _ _ => rfl⟩
  · refine ⟨?_, fun hi a ha => commandResult_keeps_above hr hi ha⟩
    show u.convSize = s.convSize
    rw [commandResult_frame hr, frameOf_convSize]

/-! ## The maps -/

/-- The list of `t` is that of `s` with ranges added at its end; taken buckets and MMIO bits stay. -/
structure MapsGrown (s t : State) : Prop where
  maplist : ∃ l, t.maplist = s.maplist ++ l
  fastmap : ∀ k : Fin 128, s.fastmap.get k ≠ 0x00#8 → t.fastmap.get k = s.fastmap.get k
  mmio : ∀ a, a < memSize → flagAt s.flags a &&& flagMmio ≠ 0#8 → flagAt t.flags a &&& flagMmio ≠ 0#8

theorem MapsGrown.refl (s : State) : MapsGrown s s := ⟨⟨[], by simp⟩, fun _ _ => rfl, fun _ _ h => h⟩

theorem MapsGrown.trans {s t u : State} (h : MapsGrown s t) (h' : MapsGrown t u) : MapsGrown s u where
  maplist := by
    obtain ⟨l, hl⟩ := h.maplist
    obtain ⟨l', hl'⟩ := h'.maplist
    exact ⟨l ++ l', by rw [hl', hl, List.append_assoc]⟩
  fastmap k hk := (h'.fastmap k (by rwa [h.fastmap k hk])).trans (h.fastmap k hk)
  mmio a ha hm := h'.mmio a ha (h.mmio a ha hm)

theorem fastmap_get_eq_bucketTag (fm : Vector Tag 128) (k : Fin 128) : fm.get k = bucketTag fm k.val := by
  rw [bucketTag, dif_pos k.isLt, Vector.get_eq_getElem]

/-- A taken bucket is in no accepted range (43_map_config.md R106). -/
theorem registerMap_grows {s t : State} {a : Addr} {l : Len} {tg : Tag} {w : Byte} {o : Bool}
    (h : registerMap a l tg w o s = .ok t) : MapsGrown s t := by
  obtain ⟨-, -, -, -, -, -, hfree, rfl⟩ := registerMap_ok h
  rw [bucketsTaken_eq_false] at hfree
  refine ⟨⟨_, addRange_maplist a l tg w o s⟩, fun k hk => ?_, fun x hx =>
    mapFlags_keeps_set (fun v _ => orMmio_mmio v) _ _ hx⟩
  rw [fastmap_get_eq_bucketTag] at hk ⊢
  rw [addRange_fastmap, bucketTag_setBuckets _ _ _ _ _ k.isLt, if_neg fun hin => hk (hfree k.val hin.1 hin.2),
    fastmap_get_eq_bucketTag]

/-- Every change grows the maps or leaves them. -/
theorem Change.maps_grow {s t : State} (hc : Change s t) : MapsGrown s t := by
  cases hc with
  | range a l tg w o t h => exact registerMap_grows h
  | flags f lo hi _ hmmio _ =>
    exact { MapsGrown.refl s with mmio := fun a ha h => by rw [mapFlags_keeps_mask hmmio lo hi s.flags ha]; exact h }
  | install g t _ _ hd =>
    exact installDevices_induct (P := MapsGrown s) (fun _ _ _ _ _ _ _ hr hx => hx.trans (registerMap_grows hr)) hd
      fun _ _ _ => { MapsGrown.refl s with }
  | reset t r h =>
    cases h
    exact { MapsGrown.refl s with
      mmio := fun a ha h => by rw [mapFlags_keeps_mask resetMask_keeps_mmio 0 memSize s.flags ha]; exact h }
  | slice t h _ => rw [h]; exact { MapsGrown.refl s with }
  | _ => exact { MapsGrown.refl s with }

/-- What SETFLAGS and CLRFLAGS do when they complete (43_map_config.md R109, R110). -/
theorem changeFlags_ok {f : Byte → Byte} {a : Addr} {l : Len} {s t : State} {r : Response}
    (h : changeFlags f a l s = .ok (t, r)) : t.flags = mapFlags f a.toNat (a.toNat + l.toNat) s.flags := by
  unfold changeFlags at h
  split at h
  · exact absurd h nofun
  · split at h
    · exact absurd h nofun
    · cases h; rfl

/-- A command that completes and registers no range leaves every MMIO bit. -/
theorem commandResult_keeps_mmio {i : Instr} {s t : State} {r : Response} (h : commandResult i s = .ok (t, r))
    (hregmap : ∀ a l tg w o, i ≠ .regmap a l tg w o) (hinstall : ∀ g, i ≠ .install g) {a : Nat} (ha : a < memSize) :
    flagAt t.flags a &&& flagMmio = flagAt s.flags a &&& flagMmio := by
  cases i with
  | regmap a l tg w o => exact absurd rfl (hregmap a l tg w o)
  | install g => exact absurd rfl (hinstall g)
  | setflags b l m =>
    rw [changeFlags_ok h, mapFlags_keeps_mask (setMask_keeps_mmio · m) _ _ _ ha]
  | clrflags b l m =>
    rw [changeFlags_ok h, mapFlags_keeps_mask (clearMask_keeps_mmio · m) _ _ _ ha]
  | reset => cases h; exact mapFlags_keeps_mask resetMask_keeps_mmio 0 memSize s.flags ha
  | _ => rw [commandResult_frame h]; rfl

/-- A command that completes and registers no range leaves the list and the fast map. -/
theorem frameOf_maps {i : Instr} (hregmap : ∀ a l tg w o, i ≠ .regmap a l tg w o) (hinstall : ∀ g, i ≠ .install g)
    (s t : State) : (frameOf i s t).maplist = s.maplist ∧ (frameOf i s t).fastmap = s.fastmap := by
  cases i with
  | regmap a l tg w o => exact absurd rfl (hregmap a l tg w o)
  | install g => exact absurd rfl (hinstall g)
  | _ => exact ⟨rfl, rfl⟩

/-- Settles O15: `MapsGrown` for every change; and no other command has the maps in its frame or moves an MMIO bit. -/
theorem mapsOnlyGrow : Obligations.MapsOnlyGrow := by
  unfold Obligations.MapsOnlyGrow
  intro i s t h
  have hgrown : MapsGrown s t := exec_change_induct h (fun _ hc => hc.maps_grow) fun _ _ _ hu => { hu with }
  refine ⟨hgrown.maplist, hgrown.fastmap, fun a => hgrown.mmio a.toNat a.isLt, fun hregmap hinstall => ?_⟩
  rcases exec_ends h with ht | ⟨u, r, hr, ht⟩ <;> rw [ht]
  · exact ⟨rfl, rfl, fun _ => rfl⟩
  · obtain ⟨hlist, hfast⟩ := frameOf_maps hregmap hinstall s u
    rw [← commandResult_frame hr] at hlist hfast
    exact ⟨hlist, hfast, fun a => commandResult_keeps_mmio hr hregmap hinstall a.isLt⟩

/-! ## Slots -/

/-- Kept slots are present under the same tags. -/
theorem SlotsKept.codeAt {sl sl' : Slots} (h : SlotsKept sl sl') (t : Tag) : sl'.codeAt t = none ↔ sl.codeAt t = none := by
  unfold Slots.codeAt
  split
  case h_12 =>
    split
    · simp only [Option.map_eq_none_iff, h.videoSlot]
    · rfl
  all_goals simp only [Option.map_eq_none_iff, h.pit, h.pic1, h.pic2, h.dma1, h.dma2, h.ppi, h.kbd, h.fdc, h.hdc,
    h.serial, h.mouse]

/-- Every change keeps the slots, but for INSTALL, which sets the `installed` bit. -/
theorem Change.slots_kept_or_install {s t : State} (hc : Change s t) :
    SlotsKept s.slots t.slots ∨ (s.installed = false ∧ t.installed = true) := by
  cases hc with
  | slots sl h => exact .inl h
  | range a l tg w o t h =>
    obtain ⟨-, -, -, -, -, -, -, rfl⟩ := registerMap_ok h
    exact .inl (.refl _)
  | install g t h0 _ hd =>
    obtain ⟨pm, -, ht⟩ := installDevices_some hd
    exact .inr ⟨h0, by rw [ht]⟩
  | reset t r h => cases h; exact .inl (.refl _)
  | slice t _ hs => exact .inl hs
  | _ => exact .inl (.refl _)

/-- Settles O16: slots are kept, or INSTALL has filled slots that the invariant says were all empty. -/
theorem slotsAreNeverEmptied : Obligations.SlotsAreNeverEmptied := by
  unfold Obligations.SlotsAreNeverEmptied
  intro i s t tag hinv h
  have hcases : SlotsKept s.slots t.slots ∨ (s.installed = false ∧ t.installed = true) :=
    exec_change_induct (P := fun t => SlotsKept s.slots t.slots ∨ (s.installed = false ∧ t.installed = true)) h
      (fun _ hc => hc.slots_kept_or_install) fun _ _ _ hu => hu
  rcases hcases with hkept | ⟨h0, h1⟩
  · exact ⟨mt (hkept.codeAt tag).1, fun _ => (hkept.codeAt tag).2⟩
  · refine ⟨fun hlive => absurd ?_ hlive, fun hi => ?_⟩
    · rw [(hinv.installed h0).1, codeAt_absent]
    · have hinstalled := ((onlyInstallWritesThePortMap i s t h).1 hi).2
      exact absurd (h1.symm.trans (hinstalled.trans h0)) nofun

end Sys2Proof.Machine
end

section
/-! PROOFS. Queries before accesses (41_memory_access.md), port writes (42_port_io.md), the frame of RUN
(44_scheduler.md). -/

namespace Sys2Proof.Machine

/-! ## Queries and accesses -/

/-- Two memory commands at one address, the second on the state with the first one's response, go the same way: raw, or
to the same card. What agrees of their responses on both ways agrees. -/
theorem access_predicts {α : Type} (f : Response → α) {s u : State} {r : Response} {a : Addr} {n : Nat}
    {raw raw' : State × Response} {dev dev' : Tag → VideoState → State × Response}
    (h : access s a n raw dev = .ok (u, r)) (hraw : f raw'.2 = f raw.2)
    (hdev : ∀ t v, f (dev' t v).2 = f (dev t v).2) :
    ∃ v x, access { s with response := some r } a n raw' dev' = .ok (v, x) ∧ f x = f r := by
  have hsame : access { s with response := some r } a n raw' dev' = access s a n raw' dev' := rfl
  have hb : inBounds a n = true := (access_ok h).1
  rw [hsame]
  simp only [access, hb, if_true] at h ⊢
  rcases route_cases s a with hr | hr | ⟨t, v, -, -, -, -, hr⟩ <;> rw [hr] at h ⊢
  · obtain rfl := Except.ok.inj h
    exact ⟨raw'.1, raw'.2, rfl, hraw⟩
  · exact absurd h nofun
  · have he := Except.ok.inj h
    exact ⟨(dev' t v).1, (dev' t v).2, rfl, (hdev t v).trans (by rw [he])⟩

/-- A query `q`, which writes nothing but the response, and then a command `i`: what agrees of their responses wherever
`q` completes agrees of the two commands run one after the other. -/
theorem exec_after_query {α : Type} (f : Response → α) {q i : Instr} {s : State} (h0 : s.fault = 0x00#8)
    (hq : ∀ t, frameOf q s t = s)
    (h : ∀ u r, commandResult q s = .ok (u, r) →
      ∃ v x, commandResult i { s with response := some r } = .ok (v, x) ∧ f x = f r) :
    ∃ (t u : State) (r x : Response), exec q s = .next t ∧ exec i t = .next u ∧ t.response = some r ∧
      u.response = some x ∧ (r.status = 0x00#8 → x.status = 0x00#8 ∧ f x = f r) := by
  cases hr : commandResult q s with
  | error c =>
    obtain ⟨u, x, hu, hx, -⟩ := commandsCompleteOrFaultPrecisely i (raiseFault c s)
    exact ⟨raiseFault c s, u, { status := c.code }, x, by rw [exec_eq_finish, hr, finish_error h0], hu, rfl, hx,
      fun hs => absurd hs c.code_ne_zero⟩
  | ok ur =>
    obtain ⟨u, r⟩ := ur
    obtain rfl : u = s := (commandResult_frame hr).trans (hq u)
    obtain ⟨v, x, hi, hf⟩ := h u r hr
    exact ⟨{ u with response := some r }, { v with response := some x }, r, x,
      by rw [exec_eq_finish, hr, finish_ok h0], by rw [exec_eq_finish, hi, finish_ok (s := { u with response := some r }) h0],
      rfl, rfl, fun _ => ⟨commandResult_status hi, hf⟩⟩

/-- Settles O33: each query goes the way of its access, and the device functions answer alike (log entry 2). -/
theorem queriesPredictAccesses : Obligations.QueriesPredictAccesses := by
  unfold Obligations.QueriesPredictAccesses
  intro a d c s h0
  obtain ⟨t1, u1, r1, x1, hq1, hi1, hr1, hx1, hp1⟩ :=
    exec_after_query (·.wait) (q := .wwait a c) (i := .wr8 a d c) h0 (fun _ => rfl) fun _ _ h =>
      access_predicts (·.wait) (s := s) h rfl fun _ _ => rfl
  obtain ⟨t2, u2, r2, x2, hq2, hi2, hr2, hx2, hp2⟩ :=
    exec_after_query (·.wait) (q := .rwait a c) (i := .rd8 a c) h0 (fun _ => rfl) fun _ _ h =>
      access_predicts (·.wait) (s := s) h rfl fun _ _ => rfl
  obtain ⟨t3, u3, r3, x3, hq3, hi3, hr3, hx3, hp3⟩ :=
    exec_after_query (·.data) (q := .peek8 a) (i := .rd8 a c) h0 (fun _ => rfl) fun _ _ h =>
      access_predicts (·.data) (s := s) h rfl fun _ _ => rfl
  exact ⟨t1, t2, t3, u1, u2, u3, r1, r2, r3, x1, x2, x3, hq1, hi1, hr1, hx1, hp1, hq2, hi2, hr2, hx2, hp2,
    hq3, hi3, hr3, hx3, hp3⟩

/-! ## Port writes -/

/-- IOWR8 of a mapped port: where no live device takes the write a fault, else the slots as the device left them, then
its effects on the primary PIC (42_port_io.md R101, R104). -/
theorem exec_iowr8_mapped {p : Port} (v : Byte) (c : Cycles) {s : State} (h0 : s.fault = 0x00#8)
    (hmapped : readCell s.portmap p.toNat ≠ 0x00#8) :
    exec (.iowr8 p v c) s =
      (portWrite Config.board s.slots (readCell s.portmap p.toNat) p v (s.table.get c.toFin)).elim
        (.next (s.faultedWith 0x0B#8)) fun w =>
          .next (({ s with slots := { w.2 with pic1 := pulseAll Config.board w.1 w.2.pic1 } } : State).respondWith {}) := by
  have hr : commandResult (.iowr8 p v c) s = ioWrite8 Config.board p v c s := rfl
  rw [exec_eq_finish, hr, ioWrite8, if_neg (c := portTag s p = 0x00#8) hmapped]
  simp only [portTag, entryAt]
  cases portWrite Config.board s.slots (readCell s.portmap p.toNat) p v (s.table.get c.toFin) with
  | none => exact finish_error h0 _
  | some w =>
    simp only [finish_ok h0, applyEffects_pulseAll]
    rfl

/-- A port write to a live video card. -/
theorem portWrite_video (b : Board) {sl : Slots} {t : Tag} {d : VideoState} (ht : 0x80 ≤ t.toNat)
    (hd : videoSlot sl t = some d) (p : Port) (v : Byte) (te : Entry) :
    portWrite b sl t p v te =
      some (((b.video t).io.write d p v te).2, setVideoSlot sl t ((b.video t).io.write d p v te).1) := by
  have hv : isVideoTag t = true := by simpa [isVideoTag] using ht
  unfold portWrite
  split
  case h_10 => simp only [hv, if_true, hd, callSlot, Option.map_some, writeCall]
  all_goals exact absurd ht (by omega)

/-- Settles O36: `exec_iowr8_mapped` with the call of each class. -/
theorem portWritesReachTheirDevice : Obligations.PortWritesReachTheirDevice := by
  unfold Obligations.PortWritesReachTheirDevice
  intro p v c s h0
  simp only
  refine ⟨?_, ?_, ?_, ?_, ?_, ?_, ?_, ?_, ?_, fun d ht hd => ?_⟩
  case refine_10 =>
    have hmapped : readCell s.portmap p.toNat ≠ 0x00#8 := fun hz => by simp [hz] at ht
    rw [exec_iowr8_mapped v c h0 hmapped, portWrite_video Config.board ht hd]
    refine ⟨_, rfl, rfl, videoSlot_setVideoSlot_same _ _ _, fun t' ht' hne => ?_⟩
    have hindex : videoIndex t' ≠ videoIndex (readCell s.portmap p.toNat) := fun hi =>
      hne (videoTag_index (by simpa [isVideoTag] using ht') (by simpa [isVideoTag] using ht) hi)
    exact (videoSlot_setVideoSlot _ _ _ _).trans (if_neg hindex)
  all_goals
    intro d ht hd
    rw [exec_iowr8_mapped v c h0 (by rw [ht]; decide)]
    simp [portWrite, ht, hd, callSlot, writeCall]

/-! ## The frame of RUN -/

/-- The secondary PIC and DMA controllers are the same in both states. -/
def SameSecondary (s t : State) : Prop := t.slots.pic2 = s.slots.pic2 ∧ t.slots.dma2 = s.slots.dma2

theorem SameSecondary.trans {s t u : State} (h : SameSecondary s t) (h' : SameSecondary t u) : SameSecondary s u :=
  ⟨h'.1.trans h.1, h'.2.trans h.2⟩

theorem stepKeyboard_sameSecondary (b : Board) (u : F64) (e : Option KeyEvent) (s : State) :
    SameSecondary s (stepKeyboard b u e s).1 := by
  rcases stepKeyboard_cases b u e s with ⟨-, h⟩ | ⟨k, p, r, -, h, -⟩ <;> rw [h] <;> exact ⟨rfl, rfl⟩

/-- No step of a slice reaches the secondary controllers (44_scheduler.md R119, R125). -/
theorem runSlice_sameSecondary (b : Board) (u : F64) (q : U64) (e : Option KeyEvent) (s : State) :
    SameSecondary s (runSlice b u q e s).1 := by
  have hpic (x : State) : SameSecondary x (stepPic b q x) := by rw [stepPic_eq]; exact ⟨rfl, rfl⟩
  have hppi (x : State) : SameSecondary x (stepPpi b u x).1 := by rw [stepPpi_fst]; exact ⟨rfl, rfl⟩
  have htimer (x : State) : SameSecondary x (stepTimer b u q x) := by
    obtain ⟨p, h, -⟩ := stepTimer_eq b u q x
    rw [h]; exact ⟨rfl, rfl⟩
  have hrefresh (x : State) : SameSecondary x (stepRefresh b x).1 := by rw [stepRefresh_frame]; exact ⟨rfl, rfl⟩
  have hstorage (x : State) : SameSecondary x (stepStorage b u q x) := by
    obtain ⟨p, h, -⟩ := stepStorage_eq b u q x
    rw [h]; exact ⟨rfl, rfl⟩
  have hserial (x : State) : SameSecondary x (stepSerial b u x) := by
    obtain ⟨c, m, p, h, -⟩ := stepSerial_eq b u x
    rw [h]; exact ⟨rfl, rfl⟩
  have hvideo (x : State) : SameSecondary x (stepVideo b u q x) := by
    obtain ⟨vs, p, acc, h, -⟩ := stepVideo_frame b u q x
    rw [h]; exact ⟨rfl, rfl⟩
  simp only [runSlice]
  exact (stepKeyboard_sameSecondary b u e s).trans <| (hpic _).trans <| (hppi _).trans <| (htimer _).trans <|
    (hrefresh _).trans <| (hstorage _).trans <| (hserial _).trans (hvideo _)

/-- A check of RUN that fails raises `BAD_OPERAND` (44_scheduler.md R116). -/
theorem runCheck_eq_some {b : Board} {u : F64} {q : U64} {s : State} {f : FaultCode} (h : runCheck b u q s = some f) :
    f = .badOperand := by
  unfold runCheck at h
  split_ifs at h <;> cases h <;> rfl

/-- A RUN that fails a check faults `BAD_OPERAND` (44_scheduler.md R116). -/
theorem exec_run_rejected {u : F64} {q : U64} (e : Option KeyEvent) {s : State} (h0 : s.fault = 0x00#8)
    (hacc : ¬s.RunAccepted u q) : exec (.run u q e) s = .next (s.faultedWith 0x0A#8) := by
  obtain ⟨f, hf⟩ := Option.ne_none_iff_exists'.1 (mt (runCheck_eq_none u q s).1 hacc)
  obtain rfl := runCheck_eq_some hf
  have hrun : commandResult (.run u q e) s = .error .badOperand := by simp only [commandResult, runDevices, hf]
  rw [exec_eq_finish, hrun, finish_error h0]
  rfl

/-- Settles O46: an accepted RUN ends in the slice, whose frame is `SliceFrame` and `SameSecondary`. -/
theorem runChecksAndFrame : Obligations.RunChecksAndFrame := by
  unfold Obligations.RunChecksAndFrame
  intro u q e s h0
  refine ⟨fun hacc => ⟨_, (runSlice Config.board u q e s).2, exec_run_accepted e h0 hacc, rfl, rfl, rfl, rfl, ?_⟩,
    exec_run_rejected e h0⟩
  have hframe : SliceFrame s (runSlice Config.board u q e s).1 := (runSlice_frame Config.board u q e s).1
  obtain ⟨hpic2, hdma2⟩ := runSlice_sameSecondary Config.board u q e s
  generalize runSlice Config.board u q e s = slice at hframe hpic2 hdma2 ⊢
  simp only [← hpic2, ← hdma2]
  conv_lhs => rw [hframe]

end Sys2Proof.Machine
end

section
/-! PROOFS. Memory (41_memory_access.md, 20_memory.md): reads, queries, faults and raw writes, and the byte that keeps
its last write. -/

namespace Sys2Proof.Machine

/-! ## The end of a command on a block that has not faulted -/

/-- A command whose result is `.ok` ends in its effects and its response. -/
theorem exec_completes {i : Instr} {s t : State} {r : Response} (h0 : s.fault = 0x00#8)
    (h : commandResult i s = .ok (t, r)) : exec i s = .next (t.respondWith r) := by
  rw [exec_eq_finish, h, finish_ok h0, State.respondWith]

/-- A command whose result is a fault ends in its code and no other effect (60_exceptions.md R136). -/
theorem exec_faults {i : Instr} {s : State} (f : FaultCode) (h0 : s.fault = 0x00#8)
    (h : commandResult i s = .error f) : exec i s = .next (s.faultedWith f.code) := by
  rw [exec_eq_finish, h, finish_error h0, raiseFault, State.faultedWith]

/-! ## Flag bits, tags and bounds, as the statements write them -/

theorem mmioAt_eq_false_iff {fl : FlagMap} {a : Nat} : mmioAt fl a = false ↔ flagAt fl a &&& 0x20#8 = 0#8 := by
  simp [mmioAt]

theorem writable_iff {s : State} {a : Nat} : s.Writable a ↔ romAt s.flags a = false ∧ a < s.convSize.val := by
  simp [State.Writable, romAt]

theorem isVideoTag_iff {t : Tag} : isVideoTag t = true ↔ 0x80 ≤ t.toNat := by
  simp [isVideoTag]

theorem isVideoTag_eq_false_iff {t : Tag} : isVideoTag t = false ↔ t.toNat < 0x80 := by
  simp [isVideoTag]

theorem inBounds_two_of_ne {a : Addr} (h : a ≠ 0xFFFFF#20) : inBounds a 2 = true := by
  rw [inBounds_two, decide_eq_true_eq]
  exact h

/-- Below the last address the next one does not wrap around (20_memory.md R50). -/
theorem toNat_add_one_of_ne {a : Addr} (h : a ≠ 0xFFFFF#20) : (a + 1#20).toNat = a.toNat + 1 := by
  bv_omega

/-! ## Accesses by their route -/

/-- An address is raw where its MMIO bit is clear or its bucket names no device (41_memory_access.md R90). -/
theorem route_raw_of_clear_or_unclaimed {s : State} {a : Addr}
    (h : flagAt s.flags a.toNat &&& 0x20#8 = 0#8 ∨ s.fastmap.get (bucketOf a) = 0x00#8) : route s a = .ok .raw := by
  rcases h with hclear | hunclaimed
  · exact route_raw (mmioAt_eq_false_iff.2 hclear)
  · simp [route, hunclaimed]

theorem access_of_route_raw {s : State} {a : Addr} {n : Nat} (hb : inBounds a n = true) (hr : route s a = .ok .raw)
    (raw : State × Response) (dev : Tag → VideoState → State × Response) : access s a n raw dev = .ok raw := by
  simp only [access, hb, if_true, hr]

theorem access_out_of_bounds {s : State} {a : Addr} {n : Nat} (hb : inBounds a n = false)
    (raw : State × Response) (dev : Tag → VideoState → State × Response) :
    access s a n raw dev = .error .outOfBounds := by
  simp [access, hb]

/-! ## Reads, queries and faults -/

/-- RD8 on the raw path (41_memory_access.md R93). -/
theorem exec_rd8_raw {a : Addr} {s : State} (h0 : s.fault = 0x00#8) (hr : route s a = .ok .raw) (c : Cycles) :
    exec (.rd8 a c) s = .next (s.respondWith { data := (readCell s.mem a.toNat).setWidth 16 }) :=
  exec_completes h0 (access_of_route_raw (inBounds_one a) hr _ _)

/-- RD16 on the raw path, little-endian (41_memory_access.md R94, 20_memory.md R51). -/
theorem exec_rd16_raw {a : Addr} {s : State} (h0 : s.fault = 0x00#8) (ha : a ≠ 0xFFFFF#20)
    (hr : route s a = .ok .raw) (c : Cycles) :
    exec (.rd16 a c) s =
      .next (s.respondWith { data := readCell s.mem (a.toNat + 1) ++ readCell s.mem a.toNat }) :=
  exec_completes h0 (access_of_route_raw (inBounds_two_of_ne ha) hr _ _)

/-- Settles O24: an access on the raw path answers its raw part. -/
theorem rawReadsAndQueries : Obligations.RawReadsAndQueries := by
  unfold Obligations.RawReadsAndQueries
  intro a c s h0 hpath
  have hr : route s a = .ok .raw := route_raw_of_clear_or_unclaimed hpath
  exact ⟨exec_rd8_raw h0 hr c, exec_completes h0 (access_of_route_raw (inBounds_one a) hr _ _),
    exec_completes h0 (access_of_route_raw (inBounds_one a) hr _ _),
    exec_completes h0 (access_of_route_raw (inBounds_one a) hr _ _), fun ha => exec_rd16_raw h0 ha hr c⟩

/-- Settles O25: the bounds check comes before the route, and the route of a claimed bucket with no live card fails. -/
theorem memoryCommandFaults : Obligations.MemoryCommandFaults := by
  unfold Obligations.MemoryCommandFaults
  intro a c d w s h0
  refine ⟨fun ha => ?_, fun hmmio hclaimed hdead => ?_⟩
  · have hb : inBounds a 2 = false := by rw [ha]; decide
    exact ⟨exec_faults .outOfBounds h0 (access_out_of_bounds hb _ _),
      exec_faults .outOfBounds h0 (access_out_of_bounds hb _ _)⟩
  · rw [← isVideoTag_eq_false_iff] at hdead
    have hmmio' : mmioAt s.flags a.toNat = true := (mmioAt_iff s.flags a.toNat).2 hmmio
    have hfault {i : Instr} {n : Nat} {raw dev} (hb : inBounds a n = true)
        (hi : commandResult i s = access s a n raw dev) : exec i s = .next (s.faultedWith 0x02#8) :=
      exec_faults .mmioUnresolvable h0 (hi.trans (access_unresolvable hb hmmio' rfl hclaimed hdead raw dev))
    have h1 := inBounds_one a
    refine ⟨hfault h1 rfl, hfault h1 rfl, hfault h1 rfl, hfault h1 rfl, hfault h1 rfl, fun ha => ?_⟩
    have h2 := inBounds_two_of_ne ha
    exact ⟨hfault h2 rfl, hfault h2 rfl⟩

/-- Settles O28: the device part of each query leaves the state. -/
theorem deviceQueriesChangeNothing : Obligations.DeviceQueriesChangeNothing := by
  unfold Obligations.DeviceQueriesChangeNothing
  intro a c s t v h0 hmmio htag hvideo hlive
  have hdev (raw dev) : access s a 1 raw dev = .ok (dev t v) :=
    access_dev (inBounds_one a) ((mmioAt_iff s.flags a.toNat).2 hmmio) htag (isVideoTag_iff.2 hvideo) hlive raw dev
  exact ⟨exec_completes h0 (hdev _ _), exec_completes h0 (hdev _ _), exec_completes h0 (hdev _ _)⟩

/-! ## Raw writes -/

theorem rawWrite8_of_writable {s : State} {a : Nat} (h : s.Writable a) (v : Byte) :
    rawWrite8 s a v = { s with mem := writeCell s.mem a v } := by
  rw [rawWrite8_eq, if_pos (writable_iff.1 h)]

theorem rawWrite8_of_not_writable {s : State} {a : Nat} (h : ¬s.Writable a) (v : Byte) : rawWrite8 s a v = s := by
  rw [rawWrite8_eq, if_neg (mt writable_iff.2 h)]

theorem rawWrite8_read_same {s : State} {a : Nat} (h : s.Writable a) (v : Byte) :
    readCell (rawWrite8 s a v).mem a = v := by
  rw [rawWrite8_of_writable h]
  exact readCell_writeCell_same s.mem a v

theorem rawWrite8_read_other (s : State) {a x : Nat} (h : x ≠ a) (v : Byte) :
    readCell (rawWrite8 s a v).mem x = readCell s.mem x :=
  (rawWrite8_read s a v x).trans (if_neg fun hx => h hx.1)

/-- What can be written is decided by the flags and `conv_size`, which a raw write leaves. -/
@[simp] theorem rawWrite8_writable (s : State) (a : Nat) (v : Byte) (x : Nat) :
    (rawWrite8 s a v).Writable x ↔ s.Writable x := by
  simp [State.Writable]

/-- WR8 of a writable byte on the raw path (41_memory_access.md R92, R95). -/
theorem exec_wr8_writable {a : Addr} {s : State} (h0 : s.fault = 0x00#8) (hr : route s a = .ok .raw)
    (hw : s.Writable a.toNat) (d : Byte) (c : Cycles) :
    exec (.wr8 a d c) s = .next (({ s with mem := writeCell s.mem a.toNat d } : State).respondWith {}) := by
  rw [← rawWrite8_of_writable hw]
  exact exec_completes h0 (access_of_route_raw (inBounds_one a) hr _ _)

/-- WR16 on the raw path: the raw writes of its low and of its high byte (41_memory_access.md R96). -/
theorem exec_wr16_raw {a : Addr} {s : State} (h0 : s.fault = 0x00#8) (ha : a ≠ 0xFFFFF#20)
    (hr : route s a = .ok .raw) (d : BitVec 16) (c : Cycles) :
    exec (.wr16 a d c) s = .next
      ((rawWrite8 (rawWrite8 s a.toNat (d.extractLsb' 0 8)) (a.toNat + 1) (d.extractLsb' 8 8)).respondWith {}) :=
  exec_completes h0 (access_of_route_raw (inBounds_two_of_ne ha) hr _ _)

/-- Settles O30: the high byte's write does not read as the low byte's, nor the low byte's as the high one's. -/
theorem rawWordWrite : Obligations.RawWordWrite := by
  unfold Obligations.RawWordWrite
  intro a d c s h0 ha hpath
  have hexec := exec_wr16_raw h0 ha (route_raw_of_clear_or_unclaimed hpath) d c
  rw [rawWrite16_mem] at hexec
  have hne : a.toNat ≠ a.toNat + 1 := by omega
  refine ⟨_, hexec, fun hw => ?_, fun hw => ?_, fun hw => ?_, fun hw => ?_, fun x hx hx' => ?_⟩
  · rw [rawWrite8_read_other _ hne, rawWrite8_read_same hw]
  · rw [rawWrite8_read_other _ hne, rawWrite8_of_not_writable hw]
  · rw [rawWrite8_read_same (by simpa using hw)]
  · rw [rawWrite8_of_not_writable (by simpa using hw), rawWrite8_read_other _ hne.symm]
  · rw [rawWrite8_read_other _ hx', rawWrite8_read_other _ hx]

/-- Settles O31: a word written and read as bytes, by O30, and two bytes written and read as a word. The routes stay raw
throughout, for a route depends on neither memory nor the response. -/
theorem mixedWidthAccess : Obligations.MixedWidthAccess := by
  unfold Obligations.MixedWidthAccess
  intro a v x y c s h0 ha hclear hclear' hw hw'
  have hr : route s a = .ok .raw := route_raw_of_clear_or_unclaimed (.inl hclear)
  have hr' : route s (a + 1#20) = .ok .raw := route_raw_of_clear_or_unclaimed (.inl hclear')
  have hnext : (a + 1#20).toNat = a.toNat + 1 := toNat_add_one_of_ne ha
  constructor
  · obtain ⟨m, hwrite, hlow, -, hhigh, -⟩ := rawWordWrite a v c s h0 ha (.inl hclear)
    let t := ({ s with mem := m } : State).respondWith {}
    refine ⟨t, hwrite, ?_, ?_⟩
    · rw [← hlow hw]
      exact exec_rd8_raw (s := t) h0 hr c
    · rw [← hhigh (hnext ▸ hw'), ← hnext]
      exact exec_rd8_raw (s := t) h0 hr' c
  · let t := ({ s with mem := writeCell s.mem a.toNat x } : State).respondWith {}
    let u := ({ t with mem := writeCell t.mem (a + 1#20).toNat y } : State).respondWith {}
    have hlow : readCell u.mem a.toNat = x :=
      (readCell_writeCell_other t.mem y (by omega)).trans (readCell_writeCell_same s.mem a.toNat x)
    have hhigh : readCell u.mem (a.toNat + 1) = y := hnext ▸ readCell_writeCell_same t.mem (a + 1#20).toNat y
    refine ⟨t, u, exec_wr8_writable h0 hr hw x c, exec_wr8_writable (s := t) h0 hr' hw' y c, ?_⟩
    rw [exec_rd16_raw (s := u) h0 ha hr, hlow, hhigh]

/-! ## The last write -/

/-- A command that completes and spares a byte keeps it. -/
theorem commandResult_keeps_spared {i : Instr} {s t : State} {r : Response} {a : Addr}
    (h : commandResult i s = .ok (t, r)) (hi : i.SparesByte a) :
    readCell t.mem a.toNat = readCell s.mem a.toNat := by
  cases i with
  | wr8 b d c =>
    have hb : a.toNat ≠ b.toNat := fun he => hi (BitVec.eq_of_toNat_eq he).symm
    exact access_frame (P := fun t => readCell t.mem a.toNat = readCell s.mem a.toNat) h
      (rawWrite8_read_other s hb d) fun _ _ => rfl
  | wr16 b d c =>
    obtain ⟨hlow, hhigh⟩ := hi
    have hb : a.toNat ≠ b.toNat := fun he => hlow (BitVec.eq_of_toNat_eq he).symm
    exact access_frame (P := fun t => readCell t.mem a.toNat = readCell s.mem a.toNat) h
      ((rawWrite8_read_other _ hhigh.symm _).trans (rawWrite8_read_other s hb _)) fun _ _ => rfl
  | reset => exact hi.elim
  | _ => rw [commandResult_frame h]; rfl

/-- Every command ends in a next state, and keeps a byte that it spares. -/
theorem exec_keeps_spared {i : Instr} {a : Addr} (hi : i.SparesByte a) (s : State) :
    ∃ t, exec i s = .next t ∧ readCell t.mem a.toNat = readCell s.mem a.toNat := by
  refine ⟨_, exec_eq_finish i s, ?_⟩
  rcases exec_ends (exec_eq_finish i s) with ht | ⟨u, r, hr, ht⟩
  · rw [ht]
  · have hkeep := commandResult_keeps_spared hr hi
    rw [ht]
    exact hkeep

/-- Commands that spare a byte keep it, one after the other (20_memory.md R61). -/
theorem execAll_keeps_spared {a : Addr} (is : List Instr) (his : ∀ i ∈ is, i.SparesByte a) (s : State) :
    ∃ t, execAll is s = .next t ∧ readCell t.mem a.toNat = readCell s.mem a.toNat := by
  induction is generalizing s with
  | nil => exact ⟨s, rfl, rfl⟩
  | cons i is ih =>
    obtain ⟨u, hu, hread⟩ := exec_keeps_spared (his i List.mem_cons_self) s
    obtain ⟨t, ht, hread'⟩ := ih (fun j hj => his j (List.mem_cons_of_mem i hj)) u
    exact ⟨t, by rw [execAll, hu]; exact ht, hread'.trans hread⟩

/-- Settles O32: WR8 stores the byte, `execAll_keeps_spared` carries it along, and RD8 on the raw path answers it. -/
theorem memoryKeepsTheLastWrite : Obligations.MemoryKeepsTheLastWrite := by
  unfold Obligations.MemoryKeepsTheLastWrite
  intro a d c c' is s h0 hraw hw his
  have hwrite := exec_wr8_writable h0 (route_raw_of_clear_or_unclaimed (.inl hraw)) hw d c
  obtain ⟨t, ht, hread⟩ :=
    execAll_keeps_spared is his (({ s with mem := writeCell s.mem a.toNat d } : State).respondWith {})
  have hd : readCell t.mem a.toNat = d := hread.trans (readCell_writeCell_same s.mem a.toNat d)
  refine ⟨t, by rw [execAll, hwrite]; exact ht, hd, fun hfault hmmio => ?_⟩
  rw [exec_rd8_raw hfault (route_raw_of_clear_or_unclaimed (.inl hmmio)), hd]

end Sys2Proof.Machine
end

section
/-! PROOFS. The decoder and the encoder (30_encoding.md). -/

namespace Sys2Proof

/-! ## The operand buses that are not words -/

@[simp] theorem clockKindOfBit_eq_iff (b : Bool) (k : ClockKind) : clockKindOfBit b = k ↔ b = clockKindBit k := by
  cases b <;> cases k <;> decide

@[simp] theorem lowByte_setWidth (d : Byte) : lowByte (d.setWidth 16) = d :=
  BitVec.setWidth_setWidth_of_le d (by decide)

@[simp] theorem lowByte_eq_and_eq_iff (d d' : BitVec 16) : lowByte d = lowByte d' ∧ d = d' ↔ d = d' :=
  and_iff_right_of_imp (congrArg lowByte)

@[simp] theorem eventOfBus_isSome_getD (e : Option KeyEvent) (d : KeyEvent) : eventOfBus e.isSome (e.getD d) = e := by
  cases e <;> rfl

/-! ## What decodes to a command -/

@[simp] theorem encode_op (i : Instr) : (encode i).op = i.opcode := by cases i <;> rfl

theorem Transfer.Agrees.refl (x : Transfer) (b : Bus) : x.Agrees x b := by
  cases b
  case d => exact ⟨rfl, fun _ => rfl⟩
  all_goals rfl

/-- Of transfers with one opcode, two that carry the operand of a third on a bus carry the same. -/
theorem Transfer.Agrees.euclidean {x y z : Transfer} {b : Bus} (hop : x.op = y.op) (hy : x.Agrees y b)
    (hz : x.Agrees z b) : y.Agrees z b := by
  cases b
  case d =>
    obtain ⟨hlow, hall⟩ := hy
    obtain ⟨hlow', hall'⟩ := hz
    exact ⟨hlow.symm.trans hlow', fun h => (hall (hop.trans h)).symm.trans (hall' (hop.trans h))⟩
  all_goals exact Eq.trans (Eq.symm hy) hz

/-- A transfer decodes only to the command of its opcode (30_encoding.md R70). -/
theorem op_eq_opcode_of_decode {x : Transfer} {i : Instr} (h : decode x = .ok i) : x.op = i.opcode := by
  unfold decode at h
  split at h
  case h_21 => exact absurd h nofun
  all_goals
    obtain rfl := Except.ok.inj h
    exact BitVec.eq_of_toNat_eq ‹_›

/-- A transfer with the opcode of a command decodes to it just if it carries the command's operand on every bus of the
format (30_encoding.md R66, R68). -/
theorem decode_eq_ok_iff_agrees {x : Transfer} {i : Instr} (hop : x.op = i.opcode) :
    decode x = .ok i ↔ ∀ b ∈ formatBuses i.opcode, x.Agrees (encode i) b := by
  cases i
  all_goals
    rw [Instr.opcode] at hop
    simp [decode, encode, formatBuses, Transfer.Agrees, Instr.opcode, hop]

/-- Settles O2: `decode_eq_ok_iff_agrees`, right to left for an encoding and left to right for any transfer. -/
theorem decodeAndEncodeAgree : Obligations.DecodeAndEncodeAgree := by
  unfold Obligations.DecodeAndEncodeAgree
  refine ⟨fun i => (decode_eq_ok_iff_agrees (encode_op i)).2 fun b _ => .refl _ b, fun x i h => ?_⟩
  have hop : x.op = i.opcode := op_eq_opcode_of_decode h
  exact ⟨(encode_op i).trans hop.symm, hop ▸ (decode_eq_ok_iff_agrees hop).1 h⟩

/-! ## Opcodes outside the map -/

/-- The opcode values that no command has (30_encoding.md R72). -/
def UnassignedOpcode (o : Nat) : Prop :=
  o = 0x00 ∨ (0x03 ≤ o ∧ o ≤ 0x0F) ∨ (0x17 ≤ o ∧ o ≤ 0x1F) ∨ (0x22 ≤ o ∧ o ≤ 0x2F) ∨
    (0x35 ≤ o ∧ o ≤ 0x37) ∨ (0x39 ≤ o ∧ o ≤ 0x3E) ∨ 0x42 ≤ o

/-- The decoder rejects the unassigned opcodes and no others, by name (30_encoding.md R72). -/
theorem decode_eq_error_iff {x : Transfer} {e : DecodeError} :
    decode x = .error e ↔ .illegalOpcode x.op = e ∧ UnassignedOpcode x.op.toNat := by
  unfold decode UnassignedOpcode
  split
  case h_21 =>
    simp only [imp_false] at *
    rw [and_iff_left (by omega), Except.error.injEq]
  all_goals exact iff_of_false nofun (by omega)

/-- An assigned opcode decodes whatever its operand buses carry (30_encoding.md R70). -/
theorem exists_decode_of_assigned {x : Transfer} (h : ¬UnassignedOpcode x.op.toNat) : ∃ i, decode x = .ok i := by
  cases hd : decode x with
  | ok i => exact ⟨i, rfl⟩
  | error e => exact absurd (decode_eq_error_iff.1 hd).2 h

/-- Settles O3: an unassigned opcode is rejected on both transfers; else the second agrees, as the first does, with the
encoding of the command. -/
theorem onlyBusesOfTheFormatCount : Obligations.OnlyBusesOfTheFormatCount := by
  unfold Obligations.OnlyBusesOfTheFormatCount
  intro x y hop hxy
  cases hd : decode x with
  | error e => exact (decode_eq_error_iff.2 (hop ▸ decode_eq_error_iff.1 hd)).symm
  | ok i =>
    have hx : x.op = i.opcode := op_eq_opcode_of_decode hd
    have hagree := (decode_eq_ok_iff_agrees hx).1 hd
    rw [hx] at hxy
    exact ((decode_eq_ok_iff_agrees (hop ▸ hx)).2 fun b hb => (hxy b hb).euclidean hop (hagree b hb)).symm

end Sys2Proof

namespace Sys2Proof.Machine

/-- On a block that has not faulted, a transfer that is no command faults `ILLEGAL_OPCODE` (30_encoding.md R72). -/
theorem step_of_decode_error {s : State} {x : Transfer} {rest : List Transfer} {e : DecodeError}
    (hp : s.pending = x :: rest) (h0 : s.fault = 0x00#8) (hd : decode x = .error e) :
    step s = .next (({ s with pending := rest } : State).faultedWith 0x09#8) := by
  have hstep : step s = rejectOpcode { s with pending := rest } := by simp only [step, takeTransfer, hp, hd]
  rw [hstep]
  exact finish_error (s := { s with pending := rest }) h0 .illegalOpcode

/-- Settles O4: an unassigned opcode by `decode_eq_error_iff`, an assigned one by `exists_decode_of_assigned`. -/
theorem unassignedOpcodesFault : Obligations.UnassignedOpcodesFault := by
  unfold Obligations.UnassignedOpcodesFault
  intro x rest s hp h0
  refine ⟨fun hun => step_of_decode_error hp h0 (decode_eq_error_iff.2 ⟨rfl, hun⟩), fun has => ?_⟩
  obtain ⟨i, hd⟩ := exists_decode_of_assigned has
  exact ⟨i, hd, (op_eq_opcode_of_decode hd).symm⟩

/-- Settles O1: the decoder evaluates on each word. -/
theorem writtenOutWordsDecode : Obligations.WrittenOutWordsDecode := by
  unfold Obligations.WrittenOutWordsDecode
  decide

end Sys2Proof.Machine
end

section
/-! PROOFS. Timing (40_timing.md): the conversions and the table, and where their ticks and waits reach a device. -/

namespace Sys2Proof.Binary64

/-! ## Rounding in the table -/

theorem units_pos {x : F64} (h : isZero x = false) : 0 < units x := by
  have h0 : magBits x ≠ 0 := by simpa [isZero] using h
  unfold units
  simp only
  split
  · omega
  · positivity

theorem roundBits_zero (den : Nat) : roundBits 0 den = 0 := by
  have hr (d : Nat) : roundDiv 0 d = 0 := by simp [roundDiv]
  simp [roundBits, hr]

/-- Values with a clear sign bit are ordered as their magnitude bits are. -/
theorem ge_pack_false {m n : Nat} (hm : m ≤ infBits) (hn : n ≤ infBits) (h : n ≤ m) :
    ge (pack false m) (pack false n) = true := by
  simp [ge, isNaN, magBits_pack hm, magBits_pack hn, orderKey_pack_false hm, orderKey_pack_false hn, hm, hn, h]

end Sys2Proof.Binary64

namespace Sys2Proof.Machine

/-! ## Conversions -/

theorem conv_divisor {cf : ClockFactor} (hk : cf.kind = .divisor) (x : Nat) : conv cf x = ceilDiv x cf.n.toNat := by
  simp only [conv, hk]

theorem conv_multiplier {cf : ClockFactor} (hk : cf.kind = .multiplier) (x : Nat) : conv cf x = x * cf.n.toNat := by
  simp only [conv, hk]

theorem conv_zero {cf : ClockFactor} (hn : 1 ≤ cf.n.toNat) : conv cf 0 = 0 := by
  cases hk : cf.kind with
  | divisor => rw [conv_divisor hk]; exact Nat.le_zero.1 (ceilDiv_le 0 _ hn)
  | multiplier => rw [conv_multiplier hk, Nat.zero_mul]

/-- A factor of 1 converts nothing, whatever its kind (40_timing.md R84). -/
theorem conv_one {cf : ClockFactor} (h1 : cf.n = 1#32) (x : Nat) : conv cf x = x := by
  cases hk : cf.kind with
  | divisor => rw [conv_divisor hk, h1]; simp [ceilDiv]
  | multiplier => rw [conv_multiplier hk, h1]; simp

theorem conv_mono {cf : ClockFactor} (hn : 1 ≤ cf.n.toNat) {x y : Nat} (h : x ≤ y) : conv cf x ≤ conv cf y := by
  cases hk : cf.kind with
  | divisor => rw [conv_divisor hk, conv_divisor hk]; exact ceilDiv_mono hn h
  | multiplier => rw [conv_multiplier hk, conv_multiplier hk]; exact Nat.mul_le_mul_right _ h

/-- No conversion grows a count by more than the largest factor (40_timing.md R83). -/
theorem conv_le {cf : ClockFactor} (hn : 1 ≤ cf.n.toNat) (x : Nat) : conv cf x ≤ x * (2 ^ 32 - 1) := by
  cases hk : cf.kind with
  | divisor =>
    rw [conv_divisor hk]
    exact (ceilDiv_le x _ hn).trans (Nat.le_mul_of_pos_right x (by norm_num))
  | multiplier =>
    rw [conv_multiplier hk]
    exact Nat.mul_le_mul_left x (Nat.le_pred_of_lt cf.n.isLt)

/-- A divisor gives no ticks to no cycles alone (40_timing.md R84). -/
theorem conv_divisor_eq_zero_iff {cf : ClockFactor} (hn : 1 ≤ cf.n.toNat) (hk : cf.kind = .divisor) (x : Nat) :
    conv cf x = 0 ↔ x = 0 := by
  rw [conv_divisor hk, ← Nat.le_zero, ceilDiv_le_iff hn, Nat.zero_mul, Nat.le_zero]

/-- A count up to the divisor, but not none, is one tick (40_timing.md R84). -/
theorem conv_divisor_eq_one {cf : ClockFactor} (hk : cf.kind = .divisor) {x : Nat} (h1 : 1 ≤ x)
    (hx : x ≤ cf.n.toNat) : conv cf x = 1 := by
  have hn : 1 ≤ cf.n.toNat := h1.trans hx
  have hle : conv cf x ≤ 1 := by
    rw [conv_divisor hk, ceilDiv_le_iff hn, Nat.one_mul]
    exact hx
  have hne : conv cf x ≠ 0 := mt (conv_divisor_eq_zero_iff hn hk x).1 (by omega)
  omega

/-! ## The table -/

theorem buildTable_ticks_toNat {cf : ClockFactor} (hn : 1 ≤ cf.n.toNat) (x : F64) (c : Fin 512) :
    ((buildTable cf x).get c).ticks.toNat = conv cf c.val := by
  rw [buildTable_get, tableEntry_ticks_toNat cf _ c.val hn c.isLt]

/-- The microseconds of an entry are one rounded quotient: the cycle count is exact and the frequency finite and
positive (40_timing.md R82). -/
theorem buildTable_us {cf : ClockFactor} {x : F64} (h : clockOk cf x = true) (c : Fin 512) :
    ((buildTable cf x).get c).us =
      Binary64.pack false (Binary64.roundBits (c.val * 2 ^ 1074 * 2 ^ 1074) (Binary64.units (mhz cf x))) := by
  obtain ⟨hnan, hinf, hzero, hsign⟩ := mhz_clear h
  obtain ⟨hunits, hfinite⟩ := Binary64.units_ofNat c
  rw [buildTable_get, tableEntry,
    Binary64.div_eq hfinite hnan hinf hzero (Binary64.ofNat_sign c.val) hsign, hunits]

theorem buildTable_us_zero {cf : ClockFactor} {x : F64} (h : clockOk cf x = true) :
    ((buildTable cf x).get 0).us = Binary64.zero := by
  rw [buildTable_us h, Fin.val_zero, Nat.zero_mul, Nat.zero_mul, Binary64.roundBits_zero]
  decide

/-- Settles O21: `conv_le` bounds each conversion, so that its 64-bit field holds it. -/
theorem conversionsNeverWrap : Obligations.ConversionsNeverWrap := by
  unfold Obligations.ConversionsNeverWrap
  intro cf hn
  refine ⟨buildTable_ticks_toNat hn, fun c hc => ?_, by norm_num, fun w => ⟨?_, waitCycles_toNat cf w hn⟩, by norm_num,
    fun x => ⟨fun hk => ?_, fun hk _ => ?_⟩⟩
  · exact (conv_le hn c).trans (Nat.mul_le_mul_right _ hc)
  · rw [Nat.pow_two]
    exact (conv_le hn w.toNat).trans (Nat.mul_le_mul_right _ (Nat.le_pred_of_lt w.isLt))
  · rw [conv_divisor hk]
    exact ceilDiv_le x _ hn
  · rw [conv_multiplier hk]
    exact Nat.le_mul_of_pos_right x hn

/-- Settles O22: each corner is one of the conversion, which the ticks of the table show unchanged. -/
theorem conversionCorners : Obligations.ConversionCorners := by
  unfold Obligations.ConversionCorners
  intro cf x hok
  have hn : 1 ≤ cf.n.toNat := clockOk_n hok
  have hticks := buildTable_ticks_toNat hn x
  refine ⟨conv_zero hn, buildTable_us_zero hok, conv_one, fun hk h511 c hc => ?_, fun c d hcd => ?_, fun hk c h0 => ?_⟩
  · exact BitVec.eq_of_toNat_eq ((hticks c).trans (conv_divisor_eq_one hk hc (by omega)))
  · rw [hticks, hticks]
    exact conv_mono hn hcd
  · exact (conv_divisor_eq_zero_iff hn hk c.val).1 ((hticks c).symm.trans (congrArg BitVec.toNat h0))

/-- Settles O23: the quotient that is rounded grows with the cycle count, and rounding keeps the order. -/
theorem microsecondsNeverFall : Obligations.MicrosecondsNeverFall := by
  unfold Obligations.MicrosecondsNeverFall
  intro cf x c d hok hcd
  obtain ⟨-, -, hzero, -⟩ := mhz_clear hok
  rw [buildTable_us hok, buildTable_us hok]
  refine Binary64.ge_pack_false (Binary64.roundBits_le _ _) (Binary64.roundBits_le _ _) ?_
  exact Binary64.roundBits_mono (Binary64.units_pos hzero) (Nat.mul_le_mul_right _ (Nat.mul_le_mul_right _ hcd))

/-! ## REBUILD and LOOKUP -/

/-- The checks of REBUILD, one by one (40_timing.md R85). -/
theorem clockOk_iff {cf : ClockFactor} {x : F64} :
    clockOk cf x = true ↔ cf.n ≠ 0#32 ∧ Binary64.isNaN x = false ∧ Binary64.isInf x = false ∧
      Binary64.ge Binary64.zero x = false ∧ Binary64.isInf (mhz cf x) = false ∧
      Binary64.isZero (mhz cf x) = false := by
  cases hnan : Binary64.isNaN x
  · simp [clockOk, Binary64.isFinite_eq, hnan, Binary64.gt_zero_eq hnan, and_assoc]
  · simp [clockOk, Binary64.isFinite_eq, hnan]

theorem rebuild_of_clockOk {k : ClockKind} {n : BitVec 32} {x : F64} (h : clockOk ⟨k, n⟩ x = true) (s : State) :
    rebuild k n x s = .ok ({ s with cf := ⟨k, n⟩, crystal := x, table := buildTable ⟨k, n⟩ x }, {}) := if_pos h

theorem rebuild_of_not_clockOk {k : ClockKind} {n : BitVec 32} {x : F64} (h : ¬clockOk ⟨k, n⟩ x = true) (s : State) :
    rebuild k n x s = .error .badClock := if_neg h

/-- Settles O19: the two ends of REBUILD are the two answers of `clockOk`, whose checks `clockOk_iff` lists. -/
theorem rebuildSetsTheClockOrFaults : Obligations.RebuildSetsTheClockOrFaults := by
  unfold Obligations.RebuildSetsTheClockOrFaults
  intro k n x s h0 m
  have hm : mhz ⟨k, n⟩ x = m := rfl
  refine ⟨fun hbad => ?_, fun hn hnan hinf hpos hminf hmzero => ?_⟩
  · refine exec_faults .badClock h0 (rebuild_of_not_clockOk (fun hok => ?_) s)
    obtain ⟨hn, hnan, hinf, hpos, hminf, hmzero⟩ := clockOk_iff.1 hok
    rw [hm] at hminf hmzero
    simp [hn, hnan, hinf, hpos, hminf, hmzero] at hbad
  · have hok : clockOk ⟨k, n⟩ x = true := clockOk_iff.2 ⟨hn, hnan, hinf, hpos, hm ▸ hminf, hm ▸ hmzero⟩
    exact ⟨buildTable ⟨k, n⟩ x, fun c => buildTable_get _ x c, exec_completes h0 (rebuild_of_clockOk hok s)⟩

/-- Settles O20: the table of the invariant is the one of the clock. -/
theorem lookupAnswersTheClosedForm : Obligations.LookupAnswersTheClosedForm := by
  unfold Obligations.LookupAnswersTheClosedForm
  intro c s h0
  refine ⟨exec_completes h0 rfl, fun hinv => ?_⟩
  have hn : 1 ≤ s.cf.n.toNat := clockOk_n hinv.clock
  have hticks (c : Fin 512) : (s.table.get c).ticks.toNat = conv s.cf c.val := by
    rw [hinv.table, buildTable_ticks_toNat hn]
  refine ⟨hticks c.toFin, ?_, fun hc => ⟨BitVec.eq_of_toNat_eq ?_, ?_⟩⟩
  · rw [hinv.table, buildTable_get]
    rfl
  · rw [hticks, hc]
    exact conv_zero hn
  · rw [hinv.table, hc]
    exact buildTable_us_zero hinv.clock

/-! ## Calls that reach a device -/

theorem cardReplaced_setVideo (s : State) {t : Tag} (ht : 0x80 ≤ t.toNat) (v : VideoState) (r : Response) :
    s.CardReplaced t v r ((setVideo s t v).respondWith r) := by
  refine ⟨rfl, videoSlot_setVideoSlot_same s.slots t v, fun t' ht' hne => ?_⟩
  have hindex : videoIndex t' ≠ videoIndex t := fun hi =>
    hne (videoTag_index (isVideoTag_iff.2 ht') (isVideoTag_iff.2 ht) hi)
  exact (videoSlot_setVideoSlot s.slots t t' v).trans (if_neg hindex)

/-- A memory command on the device path whose device part writes the card `t` back ends with that card replaced
(41_memory_access.md R90, R100). -/
theorem exec_access_replaces_card {i : Instr} {s : State} {a : Addr} {n : Nat} {raw : State × Response}
    {dev : Tag → VideoState → State × Response} {t : Tag} {v v' : VideoState} {r : Response}
    (h0 : s.fault = 0x00#8) (hi : commandResult i s = access s a n raw dev) (hb : inBounds a n = true)
    (hmmio : flagAt s.flags a.toNat &&& 0x20#8 ≠ 0#8) (htag : s.fastmap.get (bucketOf a) = t)
    (hvideo : 0x80 ≤ t.toNat) (hlive : videoSlot s.slots t = some v) (hdev : dev t v = (setVideo s t v', r)) :
    ∃ u : State, exec i s = .next u ∧ s.CardReplaced t v' r u := by
  have hresult : commandResult i s = .ok (setVideo s t v', r) := by
    rw [hi, access_dev hb ((mmioAt_iff s.flags a.toNat).2 hmmio) htag (isVideoTag_iff.2 hvideo) hlive, hdev]
  exact ⟨_, exec_completes h0 hresult, cardReplaced_setVideo s hvideo v' r⟩

/-- Settles O26: both reads write the card back as it left its call. -/
theorem deviceReads : Obligations.DeviceReads := by
  unfold Obligations.DeviceReads
  intro a c s t v h0 hmmio htag hvideo hlive
  exact ⟨exec_access_replaces_card h0 rfl (inBounds_one a) hmmio htag hvideo hlive rfl,
    fun ha => exec_access_replaces_card h0 rfl (inBounds_two_of_ne ha) hmmio htag hvideo hlive rfl⟩

/-- Settles O27: both writes write the card back as it left its call, and no raw write is made. -/
theorem deviceWrites : Obligations.DeviceWrites := by
  unfold Obligations.DeviceWrites
  intro a c d w s t v h0 hmmio htag hvideo hlive
  exact ⟨exec_access_replaces_card h0 rfl (inBounds_one a) hmmio htag hvideo hlive rfl,
    fun ha => exec_access_replaces_card h0 rfl (inBounds_two_of_ne ha) hmmio htag hvideo hlive rfl⟩

/-- IORD8 of a mapped port whose device answers: the value read, and the slots as the device left them
(42_port_io.md R101, R103). -/
theorem exec_iord8_of_portRead {p : Port} {c : Cycles} {s : State} {v : Byte} {sl : Slots} (h0 : s.fault = 0x00#8)
    (hmapped : readCell s.portmap p.toNat ≠ 0x00#8)
    (hread : portRead Config.board s.slots (readCell s.portmap p.toNat) p (s.table.get c.toFin) = some (v, sl)) :
    exec (.iord8 p c) s = .next (({ s with slots := sl } : State).respondWith { data := v.setWidth 16 }) := by
  refine exec_completes h0 ?_
  show ioRead8 Config.board p c s = _
  simp only [ioRead8, portTag, entryAt, hmapped, if_false, hread]

/-- A port read of a live video card. -/
theorem portRead_video (b : Board) {sl : Slots} {t : Tag} {d : VideoState} (ht : 0x80 ≤ t.toNat)
    (hd : videoSlot sl t = some d) (p : Port) (te : Entry) :
    portRead b sl t p te = some (((b.video t).io.read d p te).1, setVideoSlot sl t ((b.video t).io.read d p te).2) := by
  unfold portRead
  split
  case h_10 => simp only [isVideoTag_iff.2 ht, if_true, hd, callSlot, Option.map_some]
  all_goals exact absurd ht (by omega)

/-- Settles O35: `exec_iord8_of_portRead` with the call of each class. -/
theorem portReadsReachTheirDevice : Obligations.PortReadsReachTheirDevice := by
  unfold Obligations.PortReadsReachTheirDevice
  intro p c s h0
  simp only
  refine ⟨?_, ?_, ?_, ?_, ?_, ?_, ?_, ?_, ?_, fun d ht hd => ?_⟩
  case refine_10 =>
    have hmapped : readCell s.portmap p.toNat ≠ 0x00#8 := fun hz => by simp [hz] at ht
    exact ⟨_, exec_iord8_of_portRead h0 hmapped (portRead_video Config.board ht hd p _),
      cardReplaced_setVideo s ht _ _⟩
  all_goals
    intro d ht hd
    refine exec_iord8_of_portRead h0 (by rw [ht]; decide) ?_
    simp [portRead, ht, hd, callSlot]

end Sys2Proof.Machine
end

section
/-! PROOFS. A byte written on the raw path (41_memory_access.md). -/

namespace Sys2Proof.Machine

/-- WR8 on the raw path: the raw write of its byte (41_memory_access.md R92, R95). -/
theorem exec_wr8_raw {a : Addr} {s : State} (h0 : s.fault = 0x00#8) (hr : route s a = .ok .raw) (d : Byte)
    (c : Cycles) : exec (.wr8 a d c) s = .next ((rawWrite8 s a.toNat d).respondWith {}) :=
  exec_completes h0 (access_of_route_raw (inBounds_one a) hr _ _)

/-- Settles O29: the raw write changes memory alone, and reads as its byte where the address can be written, as the old
byte where it cannot, and as the old byte everywhere else. -/
theorem rawByteWrite : Obligations.RawByteWrite := by
  unfold Obligations.RawByteWrite
  intro a d c s h0 hpath
  have hexec := exec_wr8_raw h0 (route_raw_of_clear_or_unclaimed hpath) d c
  rw [rawWrite8_mem] at hexec
  exact ⟨_, hexec, fun hw => rawWrite8_read_same hw d, fun hw => by rw [rawWrite8_of_not_writable hw],
    fun x hx => rawWrite8_read_other s hx d⟩

end Sys2Proof.Machine
end

section
/-! PROOFS. Ports without a live device, and ports under the invariant (42_port_io.md). -/

namespace Sys2Proof.Machine

/-! ## Unmapped ports -/

/-- A read of an unmapped port is open bus (42_port_io.md R103). -/
theorem exec_iord8_unmapped {p : Port} {s : State} (h0 : s.fault = 0x00#8)
    (hunmapped : readCell s.portmap p.toNat = 0x00#8) (c : Cycles) :
    exec (.iord8 p c) s = .next (s.respondWith { data := 0x00FF#16 }) :=
  exec_completes h0 (if_pos hunmapped)

/-- A write to an unmapped port is a no-op (42_port_io.md R104). -/
theorem exec_iowr8_unmapped {p : Port} {s : State} (h0 : s.fault = 0x00#8)
    (hunmapped : readCell s.portmap p.toNat = 0x00#8) (d : Byte) (c : Cycles) :
    exec (.iowr8 p d c) s = .next (s.respondWith {}) :=
  exec_completes h0 (if_pos hunmapped)

/-! ## Mapped ports -/

/-- No port read is answered where no live device with byte I/O has the tag: the converse of `portRead_ne_none`
(42_port_io.md R101). -/
theorem portRead_eq_none {b : Board} {sl : Slots} {t : Tag} (h : ¬sl.PortLive t) (p : Port) (te : Entry) :
    portRead b sl t p te = none := by
  unfold Slots.PortLive at h
  unfold portRead
  split at h <;> simp_all [callSlot]

/-- No port write is taken where no live device with byte I/O has the tag: the converse of `portWrite_ne_none`
(42_port_io.md R101). -/
theorem portWrite_eq_none {b : Board} {sl : Slots} {t : Tag} (h : ¬sl.PortLive t) (p : Port) (d : Byte) (te : Entry) :
    portWrite b sl t p d te = none := by
  unfold Slots.PortLive at h
  unfold portWrite
  split at h <;> simp_all [callSlot]

/-- IORD8 of a mapped port faults where no live device answers it (42_port_io.md R101). -/
theorem exec_iord8_of_portRead_none {p : Port} {c : Cycles} {s : State} (h0 : s.fault = 0x00#8)
    (hmapped : readCell s.portmap p.toNat ≠ 0x00#8)
    (hread : portRead Config.board s.slots (readCell s.portmap p.toNat) p (s.table.get c.toFin) = none) :
    exec (.iord8 p c) s = .next (s.faultedWith 0x0B#8) := by
  refine exec_faults .portUnresolvable h0 ?_
  show ioRead8 Config.board p c s = _
  simp only [ioRead8, portTag, entryAt, hmapped, if_false, hread]

/-- Settles O34: an unmapped port calls no device, and a call to a tag without a live device has no answer. -/
theorem unmappedPorts : Obligations.UnmappedPorts := by
  unfold Obligations.UnmappedPorts
  intro p d c s h0
  refine ⟨fun hunmapped => ⟨exec_iord8_unmapped h0 hunmapped c, exec_iowr8_unmapped h0 hunmapped d c⟩,
    fun hmapped hdead => ⟨exec_iord8_of_portRead_none h0 hmapped (portRead_eq_none hdead p _), ?_⟩⟩
  rw [exec_iowr8_mapped d c h0 hmapped, portWrite_eq_none hdead, Option.elim_none]

/-! ## Ports under the invariant -/

/-- A port read completes where the port is unmapped or a live device with byte I/O has its tag (42_port_io.md R101,
R103). -/
theorem exec_iord8_status_ok {p : Port} {s : State} (h0 : s.fault = 0x00#8)
    (hlive : readCell s.portmap p.toNat ≠ 0x00#8 → s.slots.PortLive (readCell s.portmap p.toNat)) (c : Cycles) :
    ∃ t r, exec (.iord8 p c) s = .next t ∧ t.response = some r ∧ r.status = 0x00#8 := by
  by_cases hmapped : readCell s.portmap p.toNat = 0x00#8
  · exact ⟨_, _, exec_iord8_unmapped h0 hmapped c, rfl, rfl⟩
  · obtain ⟨⟨v, sl⟩, hread⟩ := Option.ne_none_iff_exists'.1
      (portRead_ne_none (b := Config.board) p (s.table.get c.toFin) (hlive hmapped))
    exact ⟨_, _, exec_iord8_of_portRead h0 hmapped hread, rfl, rfl⟩

/-- A port write completes where the port is unmapped or a live device with byte I/O has its tag (42_port_io.md R101,
R104). -/
theorem exec_iowr8_status_ok {p : Port} {s : State} (h0 : s.fault = 0x00#8)
    (hlive : readCell s.portmap p.toNat ≠ 0x00#8 → s.slots.PortLive (readCell s.portmap p.toNat)) (d : Byte)
    (c : Cycles) :
    ∃ t r, exec (.iowr8 p d c) s = .next t ∧ t.response = some r ∧ r.status = 0x00#8 := by
  by_cases hmapped : readCell s.portmap p.toNat = 0x00#8
  · exact ⟨_, _, exec_iowr8_unmapped h0 hmapped d c, rfl, rfl⟩
  · obtain ⟨w, hwrite⟩ := Option.ne_none_iff_exists'.1
      (portWrite_ne_none (b := Config.board) p d (s.table.get c.toFin) (hlive hmapped))
    rw [exec_iowr8_mapped d c h0 hmapped, hwrite]
    exact ⟨_, _, rfl, rfl, rfl⟩

/-- Settles O37: the invariant's clause on the port map gives every mapped port its live device. -/
theorem portsAlwaysResolve : Obligations.PortsAlwaysResolve := by
  unfold Obligations.PortsAlwaysResolve
  intro p d c s hinv h0
  have hlive := hinv.ports p.toNat
  exact ⟨fun hmapped => codeAt_live.1 (hlive hmapped), exec_iord8_status_ok h0 hlive c,
    exec_iowr8_status_ok h0 hlive d c⟩

end Sys2Proof.Machine
end

section
/-! PROOFS. Map and flags (43_map_config.md): REGMAP, MAPQ, the flag hooks and RESET. -/

namespace Sys2Proof.Machine

/-! ## REGMAP -/

theorem setBuckets_get (fm : Vector Tag 128) (lo hi : Nat) (t : Tag) (k : Fin 128) :
    (setBuckets fm lo hi t).get k = if lo ≤ k.val ∧ k.val < hi then t else fm.get k := by
  rw [bucketTag_val, bucketTag_setBuckets fm lo hi t k.val k.isLt, bucketTag_val]

section
variable {fm : Vector Tag 128} {a : Addr} {l : Len} {t : Tag}

/-- The first two checks of R106: the tag, and the length as an operand. -/
theorem regmapCheck_badOperand (h : Tag.assigned t = false ∨ memSize < l.toNat) :
    regmapCheck fm a l t = some .badOperand := by
  unfold regmapCheck
  rcases ht : Tag.assigned t
  · simp
  · have hl : memSize < l.toNat := h.resolve_left (by simp [ht])
    simp [Len.legal, hl]

theorem regmapCheck_mapSize (ht : Tag.assigned t = true) (hl : l.toNat ≤ memSize) (hsize : l.toNat % bucketSize ≠ 0) :
    regmapCheck fm a l t = some .mapSize := by
  simp [regmapCheck, Len.legal, ht, hl, hsize]

theorem regmapCheck_mapAlign (ht : Tag.assigned t = true) (hl : l.toNat ≤ memSize) (hsize : l.toNat % bucketSize = 0)
    (halign : l = 0#21 ∨ a.toNat % bucketSize ≠ 0 ∨ memSize < a.toNat + l.toNat) :
    regmapCheck fm a l t = some .mapAlign := by
  simp only [regmapCheck, Len.legal, ht, hl, hsize, halign, if_true]
  simp

theorem regmapCheck_mapOverlap (ht : Tag.assigned t = true) (hsize : l.toNat % bucketSize = 0) (hne : l ≠ 0#21)
    (hbase : a.toNat % bucketSize = 0) (hend : a.toNat + l.toNat ≤ memSize)
    (htaken : bucketsTaken fm (a.toNat / bucketSize) ((a.toNat + l.toNat) / bucketSize) = true) :
    regmapCheck fm a l t = some .mapOverlap := by
  have hl : l.toNat ≤ memSize := by omega
  have halign : ¬(l = 0#21 ∨ a.toNat % bucketSize ≠ 0 ∨ memSize < a.toNat + l.toNat) := by
    rintro (h | h | h)
    exacts [hne h, h hbase, absurd h (Nat.not_lt.2 hend)]
  simp only [regmapCheck, Len.legal, ht, hl, hsize, halign, htaken]
  simp

end

/-- Within the space, a bucket of the range that has a tag is a taken one. -/
theorem bucketsTaken_of_get_ne {fm : Vector Tag 128} {lo hi : Nat} (hhi : hi ≤ 128)
    (h : ∃ k : Fin 128, lo ≤ k.val ∧ k.val < hi ∧ fm.get k ≠ 0x00#8) : bucketsTaken fm lo hi = true := by
  obtain ⟨k, hlo, hlt, hk⟩ := h
  rw [← Bool.not_eq_false, bucketsTaken_false_iff hhi]
  exact fun hfree => hk (hfree k hlo hlt)

theorem exec_regmap_faults {a : Addr} {l : Len} {t : Tag} {s : State} {f : FaultCode} (h0 : s.fault = 0x00#8)
    (hf : regmapCheck s.fastmap a l t = some f) (w : Byte) (o : Bool) :
    exec (.regmap a l t w o) s = .next (s.faultedWith f.code) := by
  refine exec_faults f h0 ?_
  simp only [commandResult, regmap, registerMap, hf]

theorem exec_regmap_registers {a : Addr} {l : Len} {t : Tag} {s : State} (h0 : s.fault = 0x00#8)
    (hok : regmapCheck s.fastmap a l t = none) (w : Byte) (o : Bool) :
    exec (.regmap a l t w o) s = .next ((addRange a l t w o s).respondWith {}) := by
  refine exec_completes h0 ?_
  simp only [commandResult, regmap, registerMap, hok]

/-- Settles O38: each premise decides the checks of `regmapCheck` in their order, and a range that passes them all is
added by `addRange`. -/
theorem regmapRegistersOrFaults : Obligations.RegmapRegistersOrFaults := by
  unfold Obligations.RegmapRegistersOrFaults
  intro a l t w o s h0
  simp only [assigned_eq_false_iff, Bool.not_eq_false]
  refine ⟨fun hbad => ?_, fun ht hl hsize => ?_, fun ht hl hsize halign => ?_,
    fun ht hsize hne hbase hend htaken => ?_, fun ht hadmits => ?_⟩
  · exact exec_regmap_faults h0 (regmapCheck_badOperand hbad) w o
  · exact exec_regmap_faults h0 (regmapCheck_mapSize ht hl hsize) w o
  · exact exec_regmap_faults h0 (regmapCheck_mapAlign ht hl hsize halign) w o
  · have hbuckets : (a.toNat + l.toNat) / 0x2000 ≤ 128 := by omega
    exact exec_regmap_faults h0
      (regmapCheck_mapOverlap ht hsize hne hbase hend (bucketsTaken_of_get_ne hbuckets htaken)) w o
  · exact ⟨_, exec_regmap_registers h0 ((regmapCheck_eq_none ht).2 hadmits) w o, rfl,
      setBuckets_get s.fastmap _ _ t, fun x => flagAt_mapFlags (· ||| flagMmio) _ _ s.flags x.toNat x.isLt⟩

/-! ## MAPQ -/

theorem covers_eq_false_iff {r : Registration} {a : Nat} :
    r.covers a = false ↔ ¬(r.base.toNat ≤ a ∧ a < r.base.toNat + r.size.toNat) := by
  rw [← Bool.not_eq_true, covers_iff]

theorem exec_mapq_of_find {a : Addr} {s : State} {r : Registration} (h0 : s.fault = 0x00#8)
    (hfind : s.maplist.find? (fun q => q.covers a.toNat) = some r) :
    exec (.mapq a) s = .next (s.respondWith { data := r.wcost ++ r.tag, ticks := if r.ro then 1#64 else 0#64 }) := by
  refine exec_completes h0 ?_
  simp only [commandResult, mapQuery, hfind]
  cases r.ro <;> rfl

theorem exec_mapq_of_find_none {a : Addr} {s : State} (h0 : s.fault = 0x00#8)
    (hfind : s.maplist.find? (fun q => q.covers a.toNat) = none) : exec (.mapq a) s = .next (s.respondWith {}) := by
  refine exec_completes h0 ?_
  simp only [commandResult, mapQuery, hfind]

/-- MAPQ completes with the tag of the first covering registration in its low byte (43_map_config.md R108). -/
theorem exec_mapq_tag (a : Addr) {s : State} (h0 : s.fault = 0x00#8) :
    ∃ r : Response, exec (.mapq a) s = .next (s.respondWith r) ∧ r.status = 0x00#8 ∧
      r.data.extractLsb' 0 8 = listTag s.maplist a.toNat := by
  unfold listTag
  cases hfind : s.maplist.find? (fun q => q.covers a.toNat) with
  | some q => exact ⟨_, exec_mapq_of_find h0 hfind, rfl, BitVec.extractLsb'_append_eq_right⟩
  | none => exact ⟨_, exec_mapq_of_find_none h0 hfind, rfl, rfl⟩

/-- Settles O39: MAPQ answers what `find?` finds, and under the invariant its tag is the fast map's. -/
theorem mapqFindsTheFirstRange : Obligations.MapqFindsTheFirstRange := by
  unfold Obligations.MapqFindsTheFirstRange
  intro a s h0
  simp only [← covers_eq_false_iff]
  refine ⟨fun before after r hlist hbefore hlo hhi => exec_mapq_of_find h0 ?_,
    fun hnone => exec_mapq_of_find_none h0 (List.find?_eq_none.2 fun q hq => by simp [hnone q hq]), fun hinv => ?_⟩
  · have hnone : before.find? (fun q => q.covers a.toNat) = none :=
      List.find?_eq_none.2 fun q hq => by simp [hbefore q hq]
    rw [hlist, List.find?_append, hnone, Option.none_or]
    exact List.find?_cons_of_pos ((covers_iff r a.toNat).2 ⟨hlo, hhi⟩)
  · obtain ⟨r, hexec, hok, htag⟩ := exec_mapq_tag a h0
    exact ⟨_, r, hexec, rfl, hok, by rw [htag, bucketTag_get, hinv.fast a.toNat a.isLt]⟩

/-! ## SETFLAGS, CLRFLAGS, TESTFLAGS -/

/-- The checks of the flag hooks in their order, and the range change where they pass (43_map_config.md R109, R110). -/
theorem exec_changeFlags {i : Instr} {f : Byte → Byte} {a : Addr} {l : Len} {s : State} (h0 : s.fault = 0x00#8)
    (hi : commandResult i s = changeFlags f a l s) :
    (0x100000 < l.toNat → exec i s = .next (s.faultedWith 0x0A#8)) ∧
    (l.toNat ≤ 0x100000 → 0x100000 < a.toNat + l.toNat → exec i s = .next (s.faultedWith 0x01#8)) ∧
    (a.toNat + l.toNat ≤ 0x100000 →
      ∃ fl : FlagMap, exec i s = .next ({ s with flags := fl }.respondWith {}) ∧
        ∀ x : Addr, flagAt fl x.toNat =
          if a.toNat ≤ x.toNat ∧ x.toNat < a.toNat + l.toNat then f (flagAt s.flags x.toNat)
          else flagAt s.flags x.toNat) := by
  refine ⟨fun hl => exec_faults .badOperand h0 (hi.trans ?_), fun hl hend => exec_faults .outOfBounds h0 (hi.trans ?_),
    fun hend => ⟨mapFlags f a.toNat (a.toNat + l.toNat) s.flags, exec_completes h0 (hi.trans ?_),
      fun x => flagAt_mapFlags f _ _ s.flags x.toNat x.isLt⟩⟩
  · simp [changeFlags, Len.legal, hl]
  · simp [changeFlags, Len.legal, hl, hend]
  · have hl : l.toNat ≤ 0x100000 := by omega
    simp [changeFlags, Len.legal, hl, Nat.not_lt.2 hend]

/-- Settles O40: `exec_changeFlags` for the mask that is set. -/
theorem setflagsSetsTheRange : Obligations.SetflagsSetsTheRange := by
  unfold Obligations.SetflagsSetsTheRange
  intro a l m s h0
  exact exec_changeFlags (i := .setflags a l m) (f := (· ||| (m &&& setMask))) h0 rfl

/-- Settles O41: `exec_changeFlags` for the mask that is cleared. -/
theorem clrflagsClearsTheRange : Obligations.ClrflagsClearsTheRange := by
  unfold Obligations.ClrflagsClearsTheRange
  intro a l m s h0
  exact exec_changeFlags (i := .clrflags a l m) (f := (· &&& ~~~(m &&& clearMask))) h0 rfl

/-- A flags byte with bits 7:6 clear reads as it is stored (10_state.md R29). -/
theorem and_flagBits_of_reserved_clear {v : Byte} : v &&& 0xC0#8 = 0#8 → v &&& flagBits = v := by
  revert v; decide

/-- Settles O42: under the invariant the mask of R29 leaves the stored byte. -/
theorem testflagsAnswersTheFlagsByte : Obligations.TestflagsAnswersTheFlagsByte := by
  unfold Obligations.TestflagsAnswersTheFlagsByte
  intro a s h0
  have hexec : exec (.testflags a) s =
      .next (s.respondWith { data := (flagAt s.flags a.toNat &&& flagBits).setWidth 16 }) := exec_completes h0 rfl
  refine ⟨hexec, fun hinv => ?_⟩
  rw [hexec, and_flagBits_of_reserved_clear (hinv.reserved a.toNat a.isLt)]

/-! ## RESET -/

theorem and_romMmio_eq_zero_iff (v : Byte) : v &&& 0x21#8 = 0#8 ↔ v &&& flagRom = 0#8 ∧ v &&& flagMmio = 0#8 := by
  revert v; decide

/-- RESET clears a byte with neither ROM nor MMIO set and keeps every other (43_map_config.md R115). -/
theorem readCell_clearRam (fl : FlagMap) (m : Cells) (a : Nat) :
    readCell (clearRam fl m) a = if flagAt fl a &&& 0x21#8 = 0#8 then 0x00#8 else readCell m a := by
  have hkeep : (romAt fl a || mmioAt fl a) = true ↔ ¬flagAt fl a &&& 0x21#8 = 0#8 := by
    rw [and_romMmio_eq_zero_iff, Bool.or_eq_true, romAt_iff, mmioAt_iff]; tauto
  rw [clearRam, readCell_filter m (fun x => romAt fl x || mmioAt fl x) a]
  simp only [hkeep, ite_not]

/-- Settles O45: the fields as `busReset` writes them, read byte by byte. -/
theorem resetClearsRamAndFlags : Obligations.ResetClearsRamAndFlags := by
  unfold Obligations.ResetClearsRamAndFlags
  intro s h0
  refine ⟨_, exec_completes (i := .reset) h0 rfl, rfl, fun a => readCell_clearRam s.flags s.mem a.toNat, fun a => ?_,
    tabulate_get 128 _⟩
  exact (flagAt_mapFlags (· &&& resetKeepMask) 0 memSize s.flags a.toNat a.isLt).trans (if_pos ⟨Nat.zero_le _, a.isLt⟩)

end Sys2Proof.Machine
end

section
/-! PROOFS. INSTALL (43_map_config.md R113): when it completes, and what it then does. -/

namespace Sys2Proof.Machine

/-! ## The ends of INSTALL -/

section
variable {b : Board} {g : List InstallEntry} {s : State}

theorem install_of_installed (h1 : s.installed = true) : install b g s = .error .alreadyInstalled := by
  simp only [install, h1, if_true]

/-- Where a check fails, or the work on copies does, INSTALL leaves no partial state. -/
theorem install_fails (h1 : s.installed = false)
    (hnot : ¬(installAccepts b g = true ∧ ∃ t, installDevices b g s = some t)) :
    install b g s = .error .installFail := by
  by_cases hg : installAccepts b g = true
  · have hd : installDevices b g s = none := Option.eq_none_iff_forall_ne_some.2 fun t ht => hnot ⟨hg, t, ht⟩
    simp [install, h1, hg, hd]
  · simp [install, h1, hg]

theorem install_completes {t : State} (h1 : s.installed = false) (hg : installAccepts b g = true)
    (hd : installDevices b g s = some t) : install b g s = .ok (t, {}) := by
  simp [install, h1, hg, hd]

end

/-! ## The empty configuration -/

theorem installAccepts_nil (b : Board) : installAccepts b [] = b.supported [] := by
  simp [installAccepts, distinctTags]

theorem byAscendingTag_nil : byAscendingTag [] = [] := by
  simp [byAscendingTag]

/-- No device fills no slot, claims no port and registers no aperture. -/
theorem installDevices_nil (b : Board) (s : State) : installDevices b [] s = some { s with installed := true } := by
  simp only [installDevices, byAscendingTag_nil, claimAllPorts, registerAllApertures, List.foldl_nil]

/-- Settles O43: the `installed` bit is looked at first, then the checks of `installAccepts`; on the empty configuration
only `SUPPORTED` is left of them. -/
theorem installChecks : Obligations.InstallChecks := by
  unfold Obligations.InstallChecks
  intro g s h0
  refine ⟨fun h1 => exec_faults .alreadyInstalled h0 (install_of_installed h1), fun h1 hbad => ?_,
    fun h1 hrepeat => ?_, fun h1 hg => ?_⟩
  · refine exec_faults .installFail h0 (install_fails h1 fun ⟨hacc, _⟩ => ?_)
    obtain ⟨e, he, hbad⟩ := hbad
    obtain ⟨htags, -⟩ := (installAccepts_iff _ g).1 hacc
    exact htags e he hbad
  · refine exec_faults .installFail h0 (install_fails h1 fun ⟨hacc, _⟩ => ?_)
    obtain ⟨-, hdistinct, -⟩ := (installAccepts_iff _ g).1 hacc
    exact hrepeat hdistinct
  · subst hg
    rw [← installAccepts_nil]
    split
    next hacc => exact exec_completes h0 (install_completes h1 hacc (installDevices_nil _ s))
    next hrefused => exact exec_faults .installFail h0 (install_fails h1 fun ⟨hacc, _⟩ => hrefused hacc)

/-! ## When INSTALL completes -/

theorem installAccepts_assigned {b : Board} {g : List InstallEntry} (hg : installAccepts b g = true) :
    ∀ e ∈ byAscendingTag g, Tag.assigned e.tag = true := by
  obtain ⟨htags, -⟩ := (installAccepts_iff b g).1 hg
  simp only [assigned_eq_false_iff, Bool.not_eq_false] at htags
  exact fun e he => htags e (mem_byAscendingTag he)

theorem installAccepts_distinct {b : Board} {g : List InstallEntry} (hg : installAccepts b g = true) :
    g.Pairwise fun e e' => e.tag ≠ e'.tag :=
  ((installAccepts_iff b g).1 hg).2.1

/-- An aperture has the tag of its card. -/
theorem aperturesInOrder_assigned {b : Board} {g : List InstallEntry}
    (ha : ∀ e ∈ byAscendingTag g, Tag.assigned e.tag = true) :
    ∀ x ∈ aperturesInOrder b g, Tag.assigned x.1 = true := by
  intro x hx
  obtain ⟨e, he, hx⟩ := List.mem_flatMap.1 hx
  obtain ⟨y, -, rfl⟩ := List.mem_map.1 hx
  exact ha e he

/-- On an empty port map the claims of a configuration succeed exactly where no two devices share a port. -/
theorem claimAllPorts_nil_iff {b : Board} {g : List InstallEntry} (hg : installAccepts b g = true) :
    (∃ pm, claimAllPorts b (byAscendingTag g) [] = some pm) ↔
      ∀ e ∈ g, ∀ e' ∈ g, ∀ p, p ∈ portsOf b e → p ∈ portsOf b e' → e.tag = e'.tag := by
  have hne : ∀ e ∈ byAscendingTag g, e.tag ≠ 0x00#8 := fun e he => assigned_ne_zero (installAccepts_assigned hg e he)
  rw [claimAllPorts_iff b _ (byAscendingTag_rising g) hne [] fun _ e he => (hne e he).symm]
  simp only [readCell_nil, implies_true, true_and, byAscendingTag_mem_iff (installAccepts_distinct hg)]

/-- `s` with the slots of the devices of `g` filled, `installed` set, and the port map `pm`: the state on which the
apertures are registered. -/
def devicesPut (g : List InstallEntry) (pm : Cells) (s : State) : State :=
  { s with slots := (byAscendingTag g).foldl putDevice s.slots, portmap := pm, installed := true }

/-- The work on copies: the claims of the ports, then the apertures in a row. -/
theorem installDevices_eq_some_iff {b : Board} {g : List InstallEntry} {s t : State} :
    installDevices b g s = some t ↔ ∃ pm, claimAllPorts b (byAscendingTag g) s.portmap = some pm ∧
      registerList (aperturesInOrder b g) (devicesPut g pm s) = some t := by
  unfold installDevices
  cases claimAllPorts b (byAscendingTag g) s.portmap with
  | none => simp
  | some pm => simp [registerAllApertures_eq, devicesPut, aperturesInOrder]

/-- INSTALL completes exactly where `InstallAdmits` says so (43_map_config.md R113). -/
theorem installAdmits_iff {b : Board} {g : List InstallEntry} {s : State} (hpm : s.portmap = []) :
    s.InstallAdmits b g ↔ installAccepts b g = true ∧ ∃ t, installDevices b g s = some t := by
  have hsplit : s.InstallAdmits b g ↔ installAccepts b g = true ∧
      (∀ e ∈ g, ∀ e' ∈ g, ∀ p, p ∈ portsOf b e → p ∈ portsOf b e' → e.tag = e'.tag) ∧
      (∀ x ∈ aperturesInOrder b g, s.Admits x) ∧ (aperturesInOrder b g).Pairwise Aperture.Disjoint := by
    simp only [installAccepts_iff, State.InstallAdmits, and_assoc]
    rfl
  rw [hsplit]
  refine and_congr_right fun hg => ?_
  have hregister (pm : Cells) : (∃ t, registerList (aperturesInOrder b g) (devicesPut g pm s) = some t) ↔ _ :=
    registerList_isSome _ (devicesPut g pm s) (aperturesInOrder_assigned (installAccepts_assigned hg))
  simp only [installDevices_eq_some_iff, hpm]
  rw [← claimAllPorts_nil_iff hg]
  constructor
  · rintro ⟨⟨pm, hclaim⟩, happ⟩
    obtain ⟨t, ht⟩ := (hregister pm).2 happ
    exact ⟨t, pm, hclaim, ht⟩
  · rintro ⟨t, pm, hclaim, ht⟩
    exact ⟨⟨pm, hclaim⟩, (hregister pm).1 ⟨t, ht⟩⟩

/-! ## What INSTALL does -/

/-- The slots after INSTALL, which finds them empty. -/
theorem codeAt_devicesPut {b : Board} {g : List InstallEntry} {s : State} (hg : installAccepts b g = true)
    (hs : s.slots = Slots.absent) (pm : Cells) :
    (∀ e ∈ g, (devicesPut g pm s).slots.codeAt e.tag = some e.init) ∧
      ∀ tag : Tag, (∀ e ∈ g, e.tag ≠ tag) → (devicesPut g pm s).slots.codeAt tag = none := by
  obtain ⟨hfilled, hother⟩ := codeAt_putDevices (byAscendingTag_rising g) (installAccepts_assigned hg) s.slots
  simp only [byAscendingTag_mem_iff (installAccepts_distinct hg), hs, codeAt_absent] at hfilled hother
  simp only [devicesPut, hs]
  exact ⟨hfilled, hother⟩

/-- The port map after INSTALL, which finds it empty. -/
theorem readCell_claimAllPorts_nil {b : Board} {g : List InstallEntry} {pm : Cells} (hg : installAccepts b g = true)
    (hclaim : claimAllPorts b (byAscendingTag g) [] = some pm) :
    (∀ e ∈ g, ∀ p ∈ portsOf b e, readCell pm p.toNat = e.tag) ∧
      ∀ p : Port, (∀ e ∈ g, p ∉ portsOf b e) → readCell pm p.toNat = 0x00#8 := by
  have hshared := (claimAllPorts_nil_iff hg).1 ⟨pm, hclaim⟩
  have hmem (e : InstallEntry) := byAscendingTag_mem_iff (installAccepts_distinct hg) (e := e)
  have hread := claimAllPorts_read b (byAscendingTag g) [] pm hclaim (by simpa only [hmem] using hshared)
  simpa only [hmem, readCell_nil] using hread

/-- Settles O44: `installAdmits_iff` tells the ends apart; where INSTALL completes, the slots are those of `devicesPut`,
the ports those of the claims, and the maps those of the apertures in a row. -/
theorem installFillsOrFails : Obligations.InstallFillsOrFails := by
  unfold Obligations.InstallFillsOrFails
  intro g s hinv h0
  refine ⟨fun h1 => exec_faults .alreadyInstalled h0 (install_of_installed h1), fun h1 hnot => ?_,
    fun b h1 hadmits => ?_⟩
  · obtain ⟨-, hpm⟩ := hinv.installed h1
    exact exec_faults .installFail h0 (install_fails h1 (mt (installAdmits_iff hpm).2 hnot))
  · obtain ⟨hslots, hpm⟩ := hinv.installed h1
    obtain ⟨hg, t, ht⟩ := (installAdmits_iff hpm).1 hadmits
    obtain ⟨pm, hclaim, hregister⟩ := installDevices_eq_some_iff.1 ht
    rw [hpm] at hclaim
    obtain ⟨hframe, hcovered, huncovered⟩ :=
      registerList_effect _ (aperturesInOrder_assigned (installAccepts_assigned hg)) hregister
    have hfinish : finish s (install b g s) = .next (t.respondWith {}) := by
      rw [install_completes h1 hg ht, finish_ok h0, State.respondWith]
    have htslots : t.slots = (devicesPut g pm s).slots := by rw [hframe]
    have htports : t.portmap = pm := by rw [hframe]; rfl
    obtain ⟨hfilled, hempty⟩ := codeAt_devicesPut hg hslots pm
    obtain ⟨hmapped, hunmapped⟩ := readCell_claimAllPorts_nil hg hclaim
    rw [← htslots] at hfilled hempty
    rw [← htports] at hmapped hunmapped
    refine ⟨t.respondWith {}, hfinish, fun hb => by subst hb; exact hfinish, ?_,
      ⟨byAscendingTag_rising g, fun e => byAscendingTag_mem_iff (installAccepts_distinct hg)⟩, hfilled, hempty, hmapped,
      hunmapped, hcovered, huncovered⟩
    rw [hframe]
    rfl

end Sys2Proof.Machine
end

section
/-! PROOFS. The scheduler (44_scheduler.md): the eight steps of RUN in their order, and PHASE. -/

namespace Sys2Proof.Machine

/-! ## Steps 1 to 7, each device called once -/

section
variable (b : Board) (u : F64) (q : U64) (e : Option KeyEvent) (s : State)

/-- The pulses that step 1's latches ask for, none without a PPI (44_scheduler.md R118). -/
def keyboardPulses : List Effect :=
  s.slots.ppi.elim [] (latchPulses b (scancodesOf b u e s))

/-- The pulses of step 4, none without a timer (44_scheduler.md R121). -/
def timerPulses : List Effect :=
  s.slots.pit.elim [] fun d => (pitAdvanced b u q s d).2

/-- The pulses of step 7, none without a serial controller (44_scheduler.md R126). -/
def serialPulses : List Effect :=
  s.slots.serial.elim [] fun c => (b.serial.advance c u).2

/-- The serial controller and the mouse after step 7 (44_scheduler.md R126). -/
def serialAndMouse : Option SerialState → Option MouseState → Option SerialState × Option MouseState
  | none, m => (none, m)
  | some c, none => (some (b.serial.advance c u).1, none)
  | some c, some m =>
    (some (b.mouse.advance m (b.serial.advance c u).1 u).2, some (b.mouse.advance m (b.serial.advance c u).1 u).1)

/-- Channel 1 of the timer when step 5 inspects it, none without a timer (44_scheduler.md R122). -/
def channel1After : Option Channel1 :=
  s.slots.pit.map fun d => b.pit.ch1 (pitAdvanced b u q s d).1

/-- The refresh event of step 5 (44_scheduler.md R123). -/
def refreshEventOf : Option Event :=
  (channel1After b u q s).bind (refreshEvent s.refresh s.refReload)

/-- The state after steps 1 to 3. -/
def stateAfterPpi : State :=
  { s with
    kbAcc := (stepKeyboard b u e s).1.kbAcc
    slots := { s.slots with
      kbd := (stepKeyboard b u e s).1.slots.kbd
      ppi := s.slots.ppi.map fun p => (ppiAdvanced b u q e s p).1
      pic1 := picAfterStep2 b u q e s } }

/-- The state after steps 1 to 5. -/
def stateAfterRefresh : State :=
  { stateAfterPpi b u q e s with
    slots := { (stateAfterPpi b u q e s).slots with
      pit := s.slots.pit.map fun d => (pitAdvanced b u q s d).1
      pic1 := pulseAll b (timerPulses b u q s) (picAfterStep2 b u q e s) }
    phaseAdj := if s.slots.pit.isSome && !b.pitHasCrystal then 0#64 else s.phaseAdj
    refresh := (channel1After b u q s).elim s.refresh refreshNext
    refReload := (channel1After b u q s).elim s.refReload (·.reload) }

/-- The state after steps 1 to 7. -/
def stateBeforeVideo : State :=
  { stateAfterRefresh b u q e s with
    slots := { (stateAfterRefresh b u q e s).slots with
      fdc := (fdcCall b u q s).1
      hdc := (hdcCall b u q s).1
      dma1 := (hdcCall b u q s).2.1.map fun d => (b.dma 0x04#8).advance d ⟨q, u⟩
      serial := (serialAndMouse b u s.slots.serial s.slots.mouse).1
      mouse := (serialAndMouse b u s.slots.serial s.slots.mouse).2
      pic1 := picBeforeVideo b u q e s } }

/-! ## The steps in a row -/

/-- The latch of a list of scancodes, with a PPI or without one (44_scheduler.md R118). -/
theorem foldl_scancodeLatch (xs : List Byte) (sl : Slots) :
    xs.foldl (scancodeLatch b) sl =
      { sl with
        ppi := sl.ppi.map (latchAll b xs)
        pic1 := pulseAll b (sl.ppi.elim [] (latchPulses b xs)) sl.pic1 } := by
  cases hp : sl.ppi with
  | none => rw [scancodes_discarded b xs sl hp, Option.map_none, Option.elim_none, pulseAll_nil, ← hp]
  | some p => exact scancodes_latch b xs sl p hp

/-- Step 1, the keyboard's own fields left as they are. -/
theorem stepKeyboard_fst :
    (stepKeyboard b u e s).1 =
      { s with
        kbAcc := (stepKeyboard b u e s).1.kbAcc
        slots := { s.slots with
          kbd := (stepKeyboard b u e s).1.slots.kbd
          ppi := s.slots.ppi.map (latchAll b (scancodesOf b u e s))
          pic1 := pulseAll b (keyboardPulses b u e s) s.slots.pic1 } } := by
  unfold keyboardPulses
  cases hk : s.slots.kbd with
  | none =>
    have hslots := foldl_scancodeLatch b [] s.slots
    have hcodes : scancodesOf b u e s = [] := by simp only [scancodesOf, hk]
    rw [stepKeyboard_absent b u e hk, hcodes]
    exact congrArg (fun sl => { s with slots := sl }) hslots
  | some k =>
    simp only [stepKeyboard, hk, keyboardSlice_scancodes b u e k s hk, foldl_scancodeLatch]

/-- Step 4 with its pulses in one list (44_scheduler.md R121). -/
theorem stepTimer_pulses :
    stepTimer b u q s =
      { s with
        slots := { s.slots with
          pit := s.slots.pit.map fun d => (pitAdvanced b u q s d).1
          pic1 := pulseAll b (timerPulses b u q s) s.slots.pic1 }
        phaseAdj := if s.slots.pit.isSome && !b.pitHasCrystal then 0#64 else s.phaseAdj } := by
  unfold stepTimer timerPulses
  cases hd : s.slots.pit with
  | none =>
    simp only [Option.elim_none, pulseAll_nil, Option.map_none, Option.isSome_none, Bool.false_and, Bool.false_eq_true,
      if_false]
    rw [← hd]
  | some d => cases hc : b.pitHasCrystal <;> simp [applyEffects_pulseAll, pitAdvanced, timerAdvance, hc]

/-- Step 6: the FDC's pulses, then the HDC's (44_scheduler.md R125). -/
theorem stepStorage_pulses :
    stepStorage b u q s =
      { s with slots := { s.slots with
          fdc := (fdcCall b u q s).1
          hdc := (hdcCall b u q s).1
          dma1 := (hdcCall b u q s).2.1.map fun d => (b.dma 0x04#8).advance d ⟨q, u⟩
          pic1 := pulseAll b ((fdcCall b u q s).2.2 ++ (hdcCall b u q s).2.2) s.slots.pic1 } } := by
  have hcall (t : Tag) (c : Option StorageState) (d : Option DmaState) :
      storageSlice b t c d ⟨q, u⟩ = storageCall b t c d ⟨q, u⟩ := by cases c <;> rfl
  simp only [stepStorage, hcall, applyEffects_pulseAll, pulseAll_append, fdcCall, hdcCall]

/-- Step 7: the mouse sends no pulse of its own (44_scheduler.md R126). -/
theorem stepSerial_pulses :
    stepSerial b u s =
      { s with slots := { s.slots with
          serial := (serialAndMouse b u s.slots.serial s.slots.mouse).1
          mouse := (serialAndMouse b u s.slots.serial s.slots.mouse).2
          pic1 := pulseAll b (serialPulses b u s) s.slots.pic1 } } := by
  unfold stepSerial serialPulses
  cases hc : s.slots.serial with
  | none =>
    simp only [serialAndMouse, Option.elim_none, pulseAll_nil]
    rw [← hc]
  | some c =>
    cases hm : s.slots.mouse with
    | none =>
      simp only [serialAndMouse, Option.elim_some, applyEffects_pulseAll]
      rw [← hm]
    | some m => simp only [serialAndMouse, Option.elim_some, applyEffects_pulseAll]

theorem picAfterStep2_eq :
    picAfterStep2 b u q e s =
      (pulseAll b (keyboardPulses b u e s) s.slots.pic1).map fun p => (b.pic 0x02#8).advance p q := by
  unfold picAfterStep2 keyboardPulses
  cases s.slots.ppi <;> rfl

/-- The pulses of steps 4, 6 and 7 reach the PIC that step 2 left, one step after another (44_scheduler.md R130). -/
theorem picBeforeVideo_eq :
    picBeforeVideo b u q e s =
      pulseAll b (serialPulses b u s) (pulseAll b ((fdcCall b u q s).2.2 ++ (hdcCall b u q s).2.2)
        (pulseAll b (timerPulses b u q s) (picAfterStep2 b u q e s))) := by
  unfold picBeforeVideo timerPulses serialPulses
  simp only [← pulseAll_append, ← List.append_assoc]
  cases s.slots.pit <;> cases s.slots.serial <;> rfl

theorem stepPpi_stepPic_stepKeyboard :
    stepPpi b u (stepPic b q (stepKeyboard b u e s).1) = (stateAfterPpi b u q e s, turboOf b u q e s) := by
  rw [stepKeyboard_fst, stepPic_eq]
  unfold stepPpi stateAfterPpi turboOf ppiAdvanced
  simp only [← picAfterStep2_eq]
  cases s.slots.ppi <;> rfl

theorem stepRefresh_stepTimer :
    stepRefresh b (stepTimer b u q (stateAfterPpi b u q e s)) =
      (stateAfterRefresh b u q e s, refreshEventOf b u q s) := by
  rw [stepTimer_pulses]
  unfold stepRefresh stateAfterRefresh refreshEventOf channel1After timerPulses stateAfterPpi
  cases s.slots.pit <;> rfl

theorem stepSerial_stepStorage :
    stepSerial b u (stepStorage b u q (stateAfterRefresh b u q e s)) = stateBeforeVideo b u q e s := by
  rw [stepStorage_pulses, stepSerial_pulses]
  unfold stateBeforeVideo
  rw [picBeforeVideo_eq]
  rfl

/-- The slice is steps 1 to 7 in one go, then step 8 (44_scheduler.md R130). -/
theorem runSlice_eq :
    runSlice b u q e s =
      (stepVideo b u q (stateBeforeVideo b u q e s),
        { data := (BitVec.ofBool (stepKeyboard b u e s).2).setWidth 16
          event := eventLatch (refreshEventOf b u q s) (turboOf b u q e s) }) := by
  simp only [runSlice, stepPpi_stepPic_stepKeyboard, stepRefresh_stepTimer, stepSerial_stepStorage]

end

/-- Step 8 reaches the cards, their accumulators and the primary PIC only: an accepted RUN ends in what steps 1 to 7
leave elsewhere, with the slice's response. -/
theorem exec_run_stateBeforeVideo {u : F64} {q : U64} (e : Option KeyEvent) {s : State} (h0 : s.fault = 0x00#8)
    (hacc : s.RunAccepted u q) :
    ∃ vs p acc, exec (.run u q e) s = .next { stateBeforeVideo Config.board u q e s with
      slots := { (stateBeforeVideo Config.board u q e s).slots with video := vs, pic1 := p }
      vidAcc := acc
      response := some (runSlice Config.board u q e s).2 } := by
  obtain ⟨vs, p, acc, hvideo, -⟩ := stepVideo_frame Config.board u q (stateBeforeVideo Config.board u q e s)
  exact ⟨vs, p, acc, by rw [exec_run_accepted e h0 hacc, runSlice_eq, hvideo]⟩

/-! ## Steps 1 to 4, 6 and 7 -/

/-- Settles O49: `stateAfterPpi` holds the PPI's call on the PIC of step 2. -/
theorem runScancodeLatch : Obligations.RunScancodeLatch := by
  unfold Obligations.RunScancodeLatch
  intro u q e s h0 hacc
  obtain ⟨vs, p, acc, hexec⟩ := exec_run_stateBeforeVideo e h0 hacc
  exact ⟨_, hexec, Option.map_eq_none_iff.2, fun p hp => congrArg (Option.map _) hp⟩

/-- Settles O51: `stateAfterRefresh` holds the timer's call, and the phase adjustment where it is not consumed. -/
theorem runTimer : Obligations.RunTimer := by
  unfold Obligations.RunTimer
  intro u q e s h0 hacc
  obtain ⟨vs, p, acc, hexec⟩ := exec_run_stateBeforeVideo e h0 hacc
  refine ⟨_, hexec, fun habsent => ?_, fun d hpresent => ?_⟩ <;>
    simp only [stateBeforeVideo, stateAfterRefresh]
  · simp [habsent]
  · simp only [hpresent, pitAdvanced]
    cases Config.board.pitHasCrystal <;> simp

/-- Settles O54: the calls of step 6, with the DMA controller last. -/
theorem runStorageThenDma : Obligations.RunStorageThenDma := by
  unfold Obligations.RunStorageThenDma
  intro u q e s h0 hacc
  obtain ⟨vs, p, acc, hexec⟩ := exec_run_stateBeforeVideo e h0 hacc
  exact ⟨_, hexec, rfl, rfl, rfl⟩

/-- Settles O55: one case for each of the three arms of `serialAndMouse`. -/
theorem runSerialThenMouse : Obligations.RunSerialThenMouse := by
  unfold Obligations.RunSerialThenMouse
  intro u q e s h0 hacc
  obtain ⟨vs, p, acc, hexec⟩ := exec_run_stateBeforeVideo e h0 hacc
  refine ⟨_, hexec, fun hserial => ?_, fun c hserial => ⟨fun hmouse => ?_, fun m hmouse => ?_⟩⟩ <;>
    simp only [stateBeforeVideo, hserial]
  · exact ⟨rfl, rfl⟩
  · rw [hmouse]; exact ⟨rfl, rfl⟩
  · rw [hmouse]; exact ⟨rfl, rfl⟩

/-! ## The refresh FSM -/

/-- An inspection that finds the flag and the reload value of the one before it makes no event (44_scheduler.md R124). -/
theorem refreshEvent_eq_none_of_same {c c' : Channel1} (hcounting : c'.counting = c.counting)
    (hreload : c'.reload = c.reload) : refreshEvent (refreshNext c) c.reload c' = none := by
  cases hc : c.counting <;> simp [refreshEvent, refreshNext, hcounting, hreload, hc]

/-- Without a refresh event the turbo request is the event, if there is one (44_scheduler.md R128). -/
theorem eventLatch_none (turbo : Option Bool) : eventLatch none turbo = turbo.map .turboToggle := by
  cases turbo <;> rfl

theorem eventLatch_some (ev : Event) (turbo : Option Bool) : eventLatch (some ev) turbo = some ev := rfl

/-- Step 5 in an accepted RUN, on the timer the slice ends with: no later step reaches it (44_scheduler.md R122, R130). -/
theorem exec_run_refresh {u : F64} {q : U64} (e : Option KeyEvent) {s : State} (h0 : s.fault = 0x00#8)
    (hacc : s.RunAccepted u q) :
    ∃ t r, exec (.run u q e) s = .next t ∧ t.fault = 0x00#8 ∧ t.response = some r ∧
      (t.slots.pit = none ↔ s.slots.pit = none) ∧
      t.refresh = (t.slots.pit.elim s.refresh fun d => refreshNext (Config.board.pit.ch1 d)) ∧
      t.refReload = (t.slots.pit.elim s.refReload fun d => (Config.board.pit.ch1 d).reload) ∧
      r.event = eventLatch (t.slots.pit.bind fun d => refreshEvent s.refresh s.refReload (Config.board.pit.ch1 d))
        (turboOf Config.board u q e s) := by
  obtain ⟨vs, p, acc, hexec⟩ := exec_run_stateBeforeVideo e h0 hacc
  refine ⟨_, _, hexec, h0, rfl, Option.map_eq_none_iff, ?_⟩
  rw [runSlice_eq]
  simp only [stateBeforeVideo, stateAfterRefresh, refreshEventOf, channel1After]
  cases s.slots.pit <;> exact ⟨rfl, rfl, rfl⟩

/-- Settles O52: `exec_run_refresh` with no timer, and then for each row of R123's table. -/
theorem runRefreshAndEvent : Obligations.RunRefreshAndEvent := by
  unfold Obligations.RunRefreshAndEvent
  intro u q e s h0 hacc
  obtain ⟨t, r, hexec, -, hresponse, hkept, hrefresh, hreload, hevent⟩ := exec_run_refresh e h0 hacc
  refine ⟨t, r, hexec, hresponse, ?_⟩
  intro turbo
  have hturbo : eventLatch none (turboOf Config.board u q e s) = turbo := by
    simp only [turbo]; cases turboOf Config.board u q e s <;> rfl
  refine ⟨fun habsent => ?_, fun d hpresent => ?_⟩
  · rw [hkept.2 habsent] at hrefresh hreload hevent
    exact ⟨hrefresh, hreload, hevent.trans hturbo⟩
  · simp only [hpresent, Option.elim_some, Option.bind_some] at hrefresh hreload hevent
    intro c
    change t.refresh = refreshNext c at hrefresh
    change r.event = eventLatch (refreshEvent s.refresh s.refReload c) _ at hevent
    simp only [hrefresh, hevent]
    refine ⟨hreload, ?_, ?_, ?_, ?_, ?_⟩
    · intro hidle hstopped
      simp [refreshNext, refreshEvent, hidle, hstopped, hturbo]
    · intro hidle hcounting
      simp [refreshNext, refreshEvent, hidle, hcounting, eventLatch_some]
    · intro hbusy hcounting hsame
      simp [refreshNext, refreshEvent, hbusy, hcounting, hsame, hturbo]
    · intro hbusy hcounting hchanged
      simp [refreshNext, refreshEvent, hbusy, hcounting, hchanged, eventLatch_some]
    · intro hbusy hstopped
      simp [refreshNext, refreshEvent, hbusy, hstopped, eventLatch_some]

/-- Settles O53: the first slice leaves the flag and the reload value it saw, so the second finds no edge. -/
theorem refreshIsEdgeTriggered : Obligations.RefreshIsEdgeTriggered := by
  unfold Obligations.RefreshIsEdgeTriggered
  intro u u' q q' e e' s h0 hacc
  obtain ⟨t, -, hexec, hfault, -, -, hrefresh, hreload, -⟩ := exec_run_refresh e h0 hacc
  refine ⟨t, hexec, fun hacc' => ?_⟩
  obtain ⟨t', r, hexec', -, hresponse, -, -, -, hevent⟩ := exec_run_refresh e' hfault hacc'
  refine ⟨t', r, hexec', hresponse, fun d d' hd hd' hcounting hsame => ?_⟩
  rw [hd] at hrefresh hreload
  rw [hd', Option.bind_some, hrefresh, hreload, Option.elim_some, Option.elim_some,
    refreshEvent_eq_none_of_same hcounting hsame, eventLatch_none] at hevent
  cases hturbo : turboOf Config.board u' q' e' t with
  | none => exact .inl (by rw [hevent, hturbo]; rfl)
  | some on => exact .inr ⟨on, by rw [hevent, hturbo]; rfl⟩

/-! ## Step 8 -/

/-- The video tags are 0x80 to 0xFF, in ascending order (44_scheduler.md R127). -/
theorem videoTags_toNat : videoTags.map BitVec.toNat = List.range' 0x80 128 := by decide +kernel

/-- The cards of a part of step 8 see, each in its turn, the primary PIC that `cardPulses` gives. -/
theorem stepVideoCards_stateBeforeVideo_pic1 (b : Board) (u : F64) (q : U64) (e : Option KeyEvent) (s : State)
    {ts : List Tag} (hts : ts.Sublist videoTags) :
    (ts.foldl (stepVideoCard b u q) (stateBeforeVideo b u q e s)).slots.pic1 =
      ts.foldl (cardPulses b u q s) (picBeforeVideo b u q e s) :=
  stepVideoCards_pic1 b u q s ts _ (videoTags_nodup.sublist hts) (fun t ht => videoTags_video t (hts.subset ht))
    fun _ _ => ⟨rfl, rfl⟩

/-- The primary PIC after a slice (44_scheduler.md R130). -/
theorem runSlice_pic1 (b : Board) (u : F64) (q : U64) (e : Option KeyEvent) (s : State) :
    (runSlice b u q e s).1.slots.pic1 = videoTags.foldl (cardPulses b u q s) (picBeforeVideo b u q e s) := by
  rw [runSlice_eq, stepVideo, stepVideoCards_stateBeforeVideo_pic1 b u q e s (.refl _)]

/-- Settles O50: `stateBeforeVideo` holds the PIC of steps 1 to 7, and the cards pulse it by ascending tag. -/
theorem runPulsesInOrder : Obligations.RunPulsesInOrder := by
  unfold Obligations.RunPulsesInOrder
  refine And.intro videoTags_toNat ?_
  intro u q e s h0 hacc
  refine ⟨_, exec_run_accepted e h0 hacc, ?_⟩
  rw [← runSlice_pic1]

/-- Cards other than `t` leave its slot and its accumulator (44_scheduler.md R127). -/
theorem stepVideoCards_other (b : Board) (u : F64) (q : U64) {ts : List Tag} {t : Tag} (hts : ∀ x ∈ ts, 0x80 ≤ x.toNat)
    (ht : 0x80 ≤ t.toNat) (hmem : t ∉ ts) (s : State) :
    videoSlot (ts.foldl (stepVideoCard b u q) s).slots t = videoSlot s.slots t ∧
      (ts.foldl (stepVideoCard b u q) s).vidAcc.get (videoIndex t) = s.vidAcc.get (videoIndex t) := by
  obtain ⟨vs, p, acc, hfold, -, -, hother⟩ := stepVideoCards_frame b u q ts s
  rw [hfold]
  exact hother (videoIndex t) fun x hx hindex =>
    hmem (videoTag_index (isVideoTag_iff.2 (hts x hx)) (isVideoTag_iff.2 ht) hindex ▸ hx)

/-- A list without repetitions is what stands before a member of it, the member, and what stands after it. -/
theorem eq_takeWhile_append_cons {l : List Tag} (hnodup : l.Nodup) {t : Tag} (ht : t ∈ l) :
    ∃ after, l = l.takeWhile (· ≠ t) ++ t :: after ∧ t ∉ l.takeWhile (· ≠ t) ∧ t ∉ after := by
  obtain ⟨before, after, rfl, hbefore⟩ := List.eq_append_cons_of_mem ht
  have htake : (before ++ t :: after).takeWhile (· ≠ t) = before := by
    rw [List.takeWhile_append_of_pos (by simpa using fun x hx => ne_of_mem_of_not_mem hx hbefore)]
    simp
  obtain ⟨-, htail, -⟩ := List.nodup_append.1 hnodup
  exact ⟨after, by rw [htake], by rwa [htake], (List.nodup_cons.1 htail).1⟩

/-- The state when step 8 comes to the card `t` (44_scheduler.md R127). -/
def stateBeforeCard (b : Board) (u : F64) (q : U64) (e : Option KeyEvent) (s : State) (t : Tag) : State :=
  (videoTags.takeWhile (· ≠ t)).foldl (stepVideoCard b u q) (stateBeforeVideo b u q e s)

theorem stateBeforeCard_pic1 (b : Board) (u : F64) (q : U64) (e : Option KeyEvent) (s : State) (t : Tag) :
    (stateBeforeCard b u q e s t).slots.pic1 = picBeforeCard b u q e s t :=
  stepVideoCards_stateBeforeVideo_pic1 b u q e s (List.takeWhile_sublist _)

/-- A card comes to its turn as the slice found it, and ends the slice as its own step left it (44_scheduler.md R127). -/
theorem runSlice_card (b : Board) (u : F64) (q : U64) (e : Option KeyEvent) (s : State) {t : Tag} (ht : 0x80 ≤ t.toNat) :
    (videoSlot (stateBeforeCard b u q e s t).slots t = videoSlot s.slots t ∧
      (stateBeforeCard b u q e s t).vidAcc.get (videoIndex t) = s.vidAcc.get (videoIndex t)) ∧
    videoSlot (runSlice b u q e s).1.slots t =
      videoSlot (stepVideoCard b u q (stateBeforeCard b u q e s t) t).slots t ∧
      (runSlice b u q e s).1.vidAcc.get (videoIndex t) =
        (stepVideoCard b u q (stateBeforeCard b u q e s t) t).vidAcc.get (videoIndex t) := by
  obtain ⟨after, hsplit, hbefore, hafter⟩ := eq_takeWhile_append_cons videoTags_nodup (mem_videoTags t ht)
  have hvideo : ∀ x ∈ videoTags.takeWhile (· ≠ t) ++ t :: after, 0x80 ≤ x.toNat := hsplit ▸ videoTags_video
  obtain ⟨hvideoBefore, -, hvideoAfter⟩ : (∀ x ∈ videoTags.takeWhile (· ≠ t), 0x80 ≤ x.toNat) ∧ 0x80 ≤ t.toNat ∧
      ∀ x ∈ after, 0x80 ≤ x.toNat := by rwa [List.forall_mem_append, List.forall_mem_cons] at hvideo
  have hfold : (runSlice b u q e s).1 =
      after.foldl (stepVideoCard b u q) (stepVideoCard b u q (stateBeforeCard b u q e s t) t) := by
    rw [runSlice_eq, stepVideo, hsplit, List.foldl_append, List.foldl_cons]; rfl
  rw [hfold]
  exact ⟨stepVideoCards_other b u q hvideoBefore ht hbefore _,
    stepVideoCards_other b u q hvideoAfter ht hafter _⟩

/-- Settles O56: `runSlice_card` leaves the card's own step, which `stepVideoCard_own` describes on the PIC that the
cards before it left. -/
theorem runVideoCards : Obligations.RunVideoCards := by
  unfold Obligations.RunVideoCards
  refine And.intro videoTags_toNat ?_
  intro u q e s tag h0 hacc htag
  refine ⟨_, exec_run_accepted e h0 hacc, ?_⟩
  obtain ⟨⟨hslot, hvidAcc⟩, hslot', hvidAcc'⟩ := runSlice_card Config.board u q e s htag
  obtain ⟨habsent, hpresent⟩ := stepVideoCard_own Config.board u q (stateBeforeCard Config.board u q e s tag) tag
  rw [hslot, hvidAcc, ← hslot', ← hvidAcc'] at habsent hpresent
  rw [stateBeforeCard_pic1] at hpresent
  generalize runSlice Config.board u q e s = slice at habsent hpresent ⊢
  exact ⟨habsent, hpresent⟩

/-! ## No devices -/

/-- With no card step 8 does nothing (44_scheduler.md R127). -/
theorem stepVideo_no_cards (b : Board) (u : F64) (q : U64) {s : State} (h : ∀ t, videoSlot s.slots t = none) :
    stepVideo b u q s = s := by
  have hcard (t : Tag) : stepVideoCard b u q s t = s := by rw [stepVideoCard, h t]
  rw [stepVideo]
  generalize videoTags = ts
  induction ts with
  | nil => rfl
  | cons t ts ih => rw [List.foldl_cons, hcard, ih]

/-- With no device installed a slice does nothing and answers nothing (44_scheduler.md R116). -/
theorem runSlice_no_devices (b : Board) (u : F64) (q : U64) (e : Option KeyEvent) {s : State}
    (hs : s.slots = Slots.absent) : runSlice b u q e s = (s, {}) := by
  have hbefore : stateBeforeVideo b u q e s = s := by
    obtain ⟨⟩ := s
    cases hs
    rfl
  have hevents : refreshEventOf b u q s = none ∧ turboOf b u q e s = none := by
    simp [refreshEventOf, channel1After, turboOf, hs, Slots.absent]
  have hkeyboard : stepKeyboard b u e s = (s, false) := stepKeyboard_absent b u e (by rw [hs]; rfl)
  obtain ⟨hrefresh, hturbo⟩ := hevents
  rw [runSlice_eq, hbefore, stepVideo_no_cards b u q (by simp [hs, videoSlot_absent]), hkeyboard, hrefresh, hturbo]
  rfl

/-- Settles O47: without devices only the elapsed time is checked, and the slice is the identity. -/
theorem runWithoutDevices : Obligations.RunWithoutDevices := by
  unfold Obligations.RunWithoutDevices
  intro u q e s h0 hs hnan hinf hneg
  have hacc : s.RunAccepted u q := by
    refine ⟨hnan, hinf, hneg, fun hpit => ?_, fun t _ hslot => ?_⟩
    · exact absurd (by rw [hs]; rfl) hpit
    · exact absurd (by rw [hs, videoSlot_absent]) hslot
  rw [exec_run_accepted e h0 hacc, runSlice_no_devices Config.board u q e hs]
  rfl

/-! ## PHASE -/

/-- Settles O57: PHASE completes with the operand in the phase adjustment, twice in a row. -/
theorem phaseOverwrites : Obligations.PhaseOverwrites := by
  unfold Obligations.PhaseOverwrites
  intro q q' s h0
  have hphase (x : U64) {z : State} (hz : z.fault = 0x00#8) :
      exec (.phase x) z = .next ({ z with phaseAdj := x }.respondWith {}) := exec_completes hz rfl
  refine ⟨hphase q h0, ?_⟩
  simp only [execAll, hphase q h0]
  exact hphase q' (z := { s with phaseAdj := q }.respondWith {}) h0

end Sys2Proof.Machine
end

section
/-! PROOFS. Faults are sticky (60_exceptions.md R136). -/

namespace Sys2Proof.Machine

/-! ## The code of a fault -/

/-- The end of a command, where one that completes answers OK: after an answer other than OK the sticky register holds
that answer, or the code it held before. -/
theorem settle_fault {s : State} {c : CmdResult} (hok : ∀ t r, c = .ok (t, r) → r.status = 0x00#8) {r : Response}
    (hr : (settle s c).response = some r) (hne : r.status ≠ 0x00#8) :
    (settle s c).fault = if s.fault = 0x00#8 then r.status else s.fault := by
  rcases settle_cases s c with ⟨h0, hs⟩ | ⟨h0, f, -, hs⟩ | ⟨-, t, r', hc, hs⟩ <;> rw [hs] at hr ⊢ <;>
    obtain rfl := Option.some.inj hr
  · -- FAULTED
    rw [if_neg h0]
  · -- the first fault
    rw [if_pos h0, raiseFault_fault]
  · -- the command completes
    exact absurd (hok t r' hc) hne

/-- A step with a transfer pending ends a command, on the state without the transfer; a command that completes answers
OK (60_exceptions.md R135). -/
theorem step_settles {s : State} {x : Transfer} {rest : List Transfer} (hp : s.pending = x :: rest) :
    ∃ c : CmdResult, step s = .next (settle { s with pending := rest } c) ∧
      ∀ t r, c = .ok (t, r) → r.status = 0x00#8 := by
  rcases step_cases s with ⟨hnil, -⟩ | ⟨_, _, i, hp', -, h⟩ | ⟨_, _, hp', h⟩
  · exact absurd (hnil.symm.trans hp) nofun
  · obtain ⟨rfl, rfl⟩ := List.cons.inj (hp'.symm.trans hp)
    exact ⟨_, h, fun _ _ => commandResult_status⟩
  · obtain ⟨rfl, rfl⟩ := List.cons.inj (hp'.symm.trans hp)
    exact ⟨_, h, fun _ _ hc => absurd hc (by simp)⟩

/-! ## Runs of a faulted block -/

/-- A faulted block takes one pending transfer, answers FAULTED and changes nothing else. -/
theorem step_faulted {s : State} (h0 : s.fault ≠ 0x00#8) {x : Transfer} {rest : List Transfer}
    (hp : s.pending = x :: rest) :
    step s = .next { s with pending := rest, response := some { status := statusFaulted } } := by
  obtain ⟨c, hstep, -⟩ := step_settles hp
  rw [hstep, settle_faulted (s := { s with pending := rest }) h0]

/-- A run whose first step answers `t` goes on from `t`. -/
theorem run_succ_of_step {s t : State} (h : step s = .next t) (n : Nat) :
    Host.Core.run Sys2Proof.core (n + 1) s = Host.Core.run Sys2Proof.core n t := by
  have hcore : Sys2Proof.core.step s = .next t := h
  simp only [Host.Core.run, hcore]

/-- A run of a faulted block takes a pending transfer a step, and answers FAULTED once it has taken one. -/
theorem run_faulted (n : Nat) {s : State} (h0 : s.fault ≠ 0x00#8) :
    Host.Core.run Sys2Proof.core n s = .next { s with
      pending := s.pending.drop n
      response := if n = 0 ∨ s.pending = [] then s.response else some { status := statusFaulted } } := by
  induction n generalizing s with
  | zero => rfl
  | succ n ih =>
    cases hp : s.pending with
    | nil => exact (run_succ_of_step (step_of_no_pending hp) n).trans ((ih h0).trans (by simp [hp]))
    | cons x rest =>
      refine (run_succ_of_step (step_faulted h0 hp) n).trans ((ih ?_).trans ?_)
      · exact h0
      · simp

/-- Settles O7: a step ends a command by `settle`, and a faulted block only drains its pending transfers. -/
theorem faultsAreSticky : Obligations.FaultsAreSticky := by
  unfold Obligations.FaultsAreSticky
  refine ⟨fun s t r hp hstep hr hne => ?_, fun n s h0 => run_faulted n h0⟩
  obtain ⟨x, rest, hp⟩ := List.exists_cons_of_ne_nil hp
  obtain ⟨c, hc, hok⟩ := step_settles hp
  obtain rfl := Host.Outcome.next.inj (hc.symm.trans hstep)
  exact settle_fault hok hr hne

end Sys2Proof.Machine
end

section
/-! PROOFS. Construction refuses a bad clock (70_reset_and_hazards.md R154). -/

namespace Sys2Proof.Machine

/-! ## Construction -/

/-- The checks of REBUILD fail when one of them does (40_timing.md R85). -/
theorem clockOk_eq_false_iff {cf : ClockFactor} {x : F64} :
    clockOk cf x = false ↔ cf.n = 0#32 ∨ Binary64.isNaN x = true ∨ Binary64.isInf x = true ∨
      Binary64.ge Binary64.zero x = true ∨ Binary64.isInf (mhz cf x) = true ∨
      Binary64.isZero (mhz cf x) = true := by
  rw [← Bool.not_eq_true, clockOk_iff]
  simp only [not_and_or, not_not, Bool.not_eq_false]

theorem construct_of_clockOk_false {cf : ClockFactor} {x : F64} (h : clockOk cf x = false) (b : Board) (mem0 : Cells)
    (flags0 : FlagMap) : State.construct b cf x mem0 flags0 = none := by
  rw [State.construct, constructClock_eq_none.2 h]

theorem construct_of_clockOk {cf : ClockFactor} {x : F64} (h : clockOk cf x = true) (b : Board) (mem0 : Cells)
    (flags0 : FlagMap) :
    State.construct b cf x mem0 flags0 = some (State.powerOn { b with clock := ⟨cf, x, h⟩ } mem0 flags0) := by
  rw [State.construct, constructClock_of_ok h]

/-- Settles O58: the two ends of construction are the two answers of `clockOk`, whose checks `clockOk_eq_false_iff` and
`clockOk_iff` list. -/
theorem constructionRefusesABadClock : Obligations.ConstructionRefusesABadClock := by
  unfold Obligations.ConstructionRefusesABadClock
  intro b k n x mem0 flags0 m
  have hm : mhz ⟨k, n⟩ x = m := rfl
  rw [← hm]
  refine ⟨fun hbad => ?_, fun hn hnan hinf hpos hminf hmzero => ?_⟩
  · exact construct_of_clockOk_false (clockOk_eq_false_iff.2 hbad) b mem0 flags0
  · have hok : clockOk ⟨k, n⟩ x = true := clockOk_iff.2 ⟨hn, hnan, hinf, hpos, hminf, hmzero⟩
    exact ⟨⟨⟨k, n⟩, x, hok⟩, rfl, rfl, construct_of_clockOk hok b mem0 flags0⟩

end Sys2Proof.Machine
end
